-- ==== Sys2Proof/Word.lean ====
section
/-! DEFINITION. The word of the hardware: "Every register, opcode, mask and status value is an 8-bit unsigned byte" (R7). -/

namespace Sys2Proof

/-- An 8-bit unsigned byte; bit 0 is the least significant bit (R7). -/
abbrev Byte := BitVec 8

end Sys2Proof
end

