-- ==== Sys2Proof/Config.lean ====
section
/-! DEFINITION. What the environment and the implementation decide: the records the open parameters range over
(transport calls, history events, the Logical Configuration) and the free values of R6, R92 and R93. -/

namespace Sys2Proof

/-- What a transport call returns: `ok` or `fail` (R9). -/
inductive Rc where
  | ok
  | fail
  deriving DecidableEq, Repr, Inhabited

/-- One bus transaction of the block: the three transfer shapes of the transport contract (R9, R81). -/
inductive Call where
  /-- `T.send(bs)`, the collaborator's `spiSend`. -/
  | send (bs : List Byte)
  /-- `T.send2(b1, b2)`, the collaborator's `spiSendThenSend`. -/
  | send2 (b1 b2 : List Byte)
  /-- `T.xfer(ws, n)`, the collaborator's `spiSendThenReceive`: `ws` to the chip, then exactly `n` bytes back. -/
  | xfer (ws : List Byte) (n : Nat)
  deriving DecidableEq, Repr, Inhabited

/-- An event of the history `H`, one per transport call, with what was sent, received and returned (R63). -/
inductive Event where
  | send (bs : List Byte) (rc : Rc)
  | send2 (b1 b2 : List Byte) (rc : Rc)
  | xfer (ws : List Byte) (n : Nat) (received : List Byte) (rc : Rc)
  /-- `T.ce(level)`; true is high. -/
  | ce (level : Bool)
  | tinit (rc : Rc)
  | tdeinit
  deriving DecidableEq, Repr, Inhabited

/-- Air data rate, 1 or 2 Mbps (R62). -/
inductive Rate where
  | r1M
  | r2M
  deriving DecidableEq, Repr, Inhabited

/-- One pipe descriptor of the Logical Configuration (R62). The address is a byte sequence so that "an address of the
wrong length" (R305) can be written down. -/
structure PipeConfig where
  enabled : Bool
  autoAck : Bool
  addr : List Byte
  deriving DecidableEq, Repr, Inhabited

/-- The Logical Configuration record `Config` of R62, as an operand: not necessarily well formed. -/
structure RadioConfig where
  rate : Rate
  power : Byte
  channel : Byte
  txAddr : List Byte
  pipe0 : PipeConfig
  pipe1 : PipeConfig
  pipe2 : PipeConfig
  pipe3 : PipeConfig
  pipe4 : PipeConfig
  pipe5 : PipeConfig
  deriving DecidableEq, Repr, Inhabited

/-- The two values of the parameter `NOACK_IN_PRX` (R6, R213). -/
inductive NoackPolicy where
  | reject
  | legacy
  deriving DecidableEq, Repr

/-! The free values. No body: nothing can evaluate them, so a claim holds whatever they are. -/

/-- Whether a transaction of the black-box transport fails: a free draw, from the history and the call (R92). -/
opaque Config.oracleRc : List Event → Call → Rc

/-- Whether the black-box transport's own `init` fails: a free draw (R92). -/
opaque Config.oracleInitRc : List Event → Rc

/-- The level of the chip-enable pin after the black-box transport's `init`: "unspecified" (R38). -/
opaque Config.oracleInitPin : List Event → Bool

/-- Byte `i` of what the black-box transport delivers for a call: a free draw, failed or not (R92, R93). -/
opaque Config.oracleByte : List Event → Call → Nat → Byte

/-- The OPEN parameter `DEFAULT_REG_TABLE` before the limits of R65 are put on it. -/
opaque Config.freeRegTable : List (Byte × Byte)

/-- The OPEN parameter `DEFAULT_USER_CONFIG` before the limit of R66 is put on it. -/
opaque Config.freeUserConfig : RadioConfig

end Sys2Proof
end

