-- ==== Sys2Proof/Syntax.lean ====
section
/-! DEFINITION. The instructions: one constructor for each of the 11 wire rows and the 40 host rows of the opcode table
(R134, R138), their operand types, and the request in which one arrives on its port. -/

namespace Sys2Proof

/-- `Role ::= PTX | PRX` (R61). -/
inductive Role where
  | ptx
  | prx
  deriving DecidableEq, Repr

/-- The transport collaborator handed to `init` (R280): the black box of R92 or one of the reference environments
of R96 and R109. -/
inductive Transport where
  | blackBox
  | refChip
  | absent0
  | absentF
  deriving DecidableEq, Repr

/-- One of the 11 wire commands with its operands (R134). -/
inductive WireCmd where
  | rRegister (addr : BitVec 5) (n : Nat)
  | wRegister (addr : BitVec 5) (data : List Byte)
  | rRxPayload (n : Nat)
  | wTxPayload (data : List Byte)
  | flushTx
  | flushRx
  | reuseTxPl
  | activate
  | rRxPlWid
  | wAckPayload (pipe : BitVec 3) (data : List Byte)
  | wTxPayloadNoack (data : List Byte)
  deriving DecidableEq, Repr

/-- An instruction: a wire command (R191 to R201) or a host operation (R138) with its abstract operands. Operands may be
ill formed; the operation's rule says what then happens (R305). -/
inductive Instr where
  -- the wire space, formats A, P and F
  | rRegister (addr : BitVec 5) (n : Nat)
  | wRegister (addr : BitVec 5) (data : List Byte)
  | rRxPayload (n : Nat)
  | wTxPayload (data : List Byte)
  | flushTx
  | flushRx
  | reuseTxPl
  | wireActivate
  | rRxPlWid
  | wAckPayload (pipe : BitVec 3) (data : List Byte)
  | wTxPayloadNoack (data : List Byte)
  -- the host space, format H: Register Access Layer
  | getBits (byte mask : Byte)
  | setBits (byte mask value : Byte)
  | readRegister (addr : Byte)
  | writeRegister (addr byte : Byte)
  | readRegisters (addr : Byte) (n : Nat)
  | writeRegisters (addr : Byte) (bytes : List Byte)
  | modifyRegisterBits (reg mask value : Byte)
  -- Command Protocol Layer
  | reuseTx
  | activate
  -- FIFO Manager
  | txHasSpace
  | txIsEmpty
  | txWrite (data : List Byte) (len : Nat)
  | txWriteNoAck (data : List Byte) (len : Nat)
  | setAckPipe (pipe : Byte)
  | getAckPipe
  | rxHasData
  | rxIsFull
  | rxRead
  | txFlush
  | rxFlush
  -- status operations and the decoder
  | statusRead
  | statusClear (sel : Byte)
  | statusClearAll
  | clearTxFail
  | decode (rawStatus : Byte)
  -- Role State Machine
  | switchRole (role : Byte)
  | switchRoleDirectly (role : Byte)
  | getRole
  -- User Configuration Model
  | cfgWriteDirectly (config : RadioConfig)
  | cfgWriteDiff (old : Option RadioConfig) (new : RadioConfig)
  | cfgRead
  | cfgWrite (config : RadioConfig)
  -- Device Lifecycle
  | init (transport : Transport)
  | checkDevice
  | setup (role : Byte) (config : Option RadioConfig) (registerList : Option (List (Byte × Byte)))
  | deinit
  | powerUp
  | powerDown
  | radioOn
  | radioOff
  deriving DecidableEq, Repr

/-- A request as it stands on its port: a transport call on the wire port, a select code and its operand bytes on the host
port. "The two spaces are decoded on different ports and never mixed" (30_encoding.md). -/
inductive Request where
  | wire (call : Call)
  | host (op : Byte) (operands : List Byte)
  deriving DecidableEq, Repr

/-- The instruction that a wire command is. -/
def WireCmd.toInstr : WireCmd → Instr
  | .rRegister addr n => .rRegister addr n
  | .wRegister addr data => .wRegister addr data
  | .rRxPayload n => .rRxPayload n
  | .wTxPayload data => .wTxPayload data
  | .flushTx => .flushTx
  | .flushRx => .flushRx
  | .reuseTxPl => .reuseTxPl
  | .activate => .wireActivate
  | .rRxPlWid => .rRxPlWid
  | .wAckPayload pipe data => .wAckPayload pipe data
  | .wTxPayloadNoack data => .wTxPayloadNoack data

/-- The wire command that an instruction of the wire space is; none for a host operation. -/
def Instr.wireCmd : Instr → Option WireCmd
  | .rRegister addr n => some (.rRegister addr n)
  | .wRegister addr data => some (.wRegister addr data)
  | .rRxPayload n => some (.rRxPayload n)
  | .wTxPayload data => some (.wTxPayload data)
  | .flushTx => some .flushTx
  | .flushRx => some .flushRx
  | .reuseTxPl => some .reuseTxPl
  | .wireActivate => some .activate
  | .rRxPlWid => some .rRxPlWid
  | .wAckPayload pipe data => some (.wAckPayload pipe data)
  | .wTxPayloadNoack data => some (.wTxPayloadNoack data)
  | .getBits _ _ | .setBits _ _ _ | .readRegister _ | .writeRegister _ _ | .readRegisters _ _
  | .writeRegisters _ _ | .modifyRegisterBits _ _ _ | .reuseTx | .activate | .txHasSpace | .txIsEmpty
  | .txWrite _ _ | .txWriteNoAck _ _ | .setAckPipe _ | .getAckPipe | .rxHasData | .rxIsFull | .rxRead
  | .txFlush | .rxFlush | .statusRead | .statusClear _ | .statusClearAll | .clearTxFail | .decode _
  | .switchRole _ | .switchRoleDirectly _ | .getRole | .cfgWriteDirectly _ | .cfgWriteDiff _ _ | .cfgRead
  | .cfgWrite _ | .init _ | .checkDevice | .setup _ _ _ | .deinit | .powerUp | .powerDown | .radioOn
  | .radioOff => none

/-- Whether an instruction is one of the 40 host operations (R138). -/
def Instr.isHost (i : Instr) : Bool := i.wireCmd.isNone

end Sys2Proof
end

