-- ==== Sys2Proof/Machine/Operands.lean ====
section
/-! DEFINITION. Operands of the host operations: the bit-field accessors on a contiguous mask (R170 to R172), the operand
checks of R139 and R305, and the readings of an admitted operand. -/

namespace Sys2Proof.Machine

/-! ### Contiguous masks (R170) -/

/-- The shift of a mask: "by linear scan (0–7)" the least `i` with `m[i] = 1` (R170). -/
def maskShift (m : Byte) : Nat := ((List.range 8).find? fun i => m.getLsbD i).getD 0

/-- The width of a mask: the number of its set bits (R170). -/
def maskWidth (m : Byte) : Nat := (List.range 8).countP fun i => m.getLsbD i

/-- `m != 0` and `m = ((1 << w) - 1) << s` (R170). -/
def contiguous (m : Byte) : Bool :=
  m != 0 && m == BitVec.ofNat 8 (2 ^ maskWidth m - 1) <<< maskShift m

/-- `getBits` on a contiguous mask (R171). -/
def getBits (byte mask : Byte) : Byte := (byte &&& mask) >>> maskShift mask

/-- `setBits` on a contiguous mask (R172). -/
def setBits (byte mask value : Byte) : Byte :=
  (byte &&& ~~~mask) ||| ((value <<< maskShift mask) &&& mask)

/-! ### The checks of R139 -/

/-- "`addr` must be at most 0x1F" (R139). -/
def addrOk (addr : Byte) : Bool := decide (addr.toNat ≤ 0x1F)

/-- The 5-bit register address `addr & 0x1F` (R131). -/
def regAddr (addr : Byte) : BitVec 5 := addr.setWidth 5

/-- "`n` must be 1 to 5" (R139, R86). -/
def countOk (n : Nat) : Bool := decide (1 ≤ n ∧ n ≤ 5)

/-- "`len` must be at most 32 and equal to `len(data)`" (R139). -/
def payloadOk (data : List Byte) (len : Nat) : Bool := decide (len ≤ 32 ∧ len = data.length)

/-- "`pipe` must be at most 5" (R139): the pipe number, if it is one. -/
def pipeOf (pipe : Byte) : Option (Fin 6) :=
  if h : pipe.toNat < 6 then some ⟨pipe.toNat, h⟩ else none

/-- "`role` must be 0 or 1" (R139): `PTX` is 0 and `PRX` is 1 (R61). -/
def roleOf (role : Byte) : Option Role :=
  if role = 0 then some .ptx else if role = 1 then some .prx else none

/-- The encoding of a role (R61). -/
def roleCode : Role → Byte
  | .ptx => 0
  | .prx => 1

/-- A well-formed `Config`: channel at most 125, power at most 3, addresses of five bytes for the transmitter and pipes
0 and 1 and of one byte for pipes 2 to 5 (R62, R305). -/
def configOk (c : RadioConfig) : Bool :=
  decide (c.channel.toNat ≤ 125) && decide (c.power.toNat ≤ 3) && c.txAddr.length == 5
    && c.pipe0.addr.length == 5 && c.pipe1.addr.length == 5 && c.pipe2.addr.length == 1
    && c.pipe3.addr.length == 1 && c.pipe4.addr.length == 1 && c.pipe5.addr.length == 1

/-- The addresses a register table may hold: "the single-byte read/write registers (0x00 to 0x06, 0x11 to 0x16, 0x1C,
0x1D) or 0x07" (R65). -/
def tableAddrOk (addr : Byte) : Bool :=
  let a := addr.toNat
  decide (a ≤ 0x07) || (decide (0x11 ≤ a) && decide (a ≤ 0x16)) || a == 0x1C || a == 0x1D

/-- A well-formed register table (R65). -/
def tableOk (t : List (Byte × Byte)) : Bool := t.all fun p => tableAddrOk p.1

/-- What the document says of the default table, read through the layouts of R40 to R57: 13 pairs, and the values it
names (R65), `DYNPD` = 0x3F among them, "to make the features effective"; a register that is not in the list, or twice with
another value, fails the limit. -/
def defaultTableOk (t : List (Byte × Byte)) : Bool :=
  tableOk t && t.length == 13
    && [(0x00, 0x0C), (0x01, 0x3F), (0x03, 0x03), (0x04, 0x29), (0x05, 0x02), (0x1C, 0x3F), (0x1D, 0x07)].all
        fun (q : Byte × Byte) => t.contains q && t.all fun p => p.1 != q.1 || p.2 == q.2

/-- A table within the limits of R65 (the example of the test vectors), for a free choice outside them. -/
def exampleTable : List (Byte × Byte) :=
  [(0x00, 0x0C), (0x01, 0x3F), (0x02, 0x03), (0x03, 0x03), (0x04, 0x29), (0x05, 0x02), (0x06, 0x06),
   (0x07, 0x70), (0x11, 0x20), (0x12, 0x20), (0x13, 0x20), (0x1C, 0x3F), (0x1D, 0x07)]

/-- A well-formed configuration (the example of the test vectors), for a free choice that is not one. -/
def exampleConfig : RadioConfig where
  rate := .r2M
  power := 3
  channel := 0x4C
  txAddr := [1, 2, 3, 4, 5]
  pipe0 := ⟨true, true, [1, 2, 3, 4, 5]⟩
  pipe1 := ⟨true, true, [0xC2, 0xC2, 0xC2, 0xC2, 0xC2]⟩
  pipe2 := ⟨true, false, [0xC3]⟩
  pipe3 := ⟨false, false, [0xC4]⟩
  pipe4 := ⟨false, false, [0xC5]⟩
  pipe5 := ⟨false, false, [0xC6]⟩

/-- `DEFAULT_REG_TABLE`: the free table, kept within the limits the document puts on it (R65). -/
def defaultRegTable : List (Byte × Byte) :=
  if defaultTableOk Config.freeRegTable then Config.freeRegTable else exampleTable

/-- `DEFAULT_USER_CONFIG`: the free configuration, "well-formed by rule R62" (R66). -/
def defaultUserConfig : RadioConfig :=
  if configOk Config.freeUserConfig then Config.freeUserConfig else exampleConfig

end Sys2Proof.Machine

/-! ### Wire commands -/

namespace Sys2Proof

open Machine

/-- The length bounds of a wire command: the columns "data bytes sent" and "bytes received" of R134, and pipe 0 to 5. -/
def WireCmd.wf : WireCmd → Bool
  | .rRegister _ n => countOk n
  | .wRegister _ data => countOk data.length
  | .rRxPayload n => decide (1 ≤ n ∧ n ≤ 32)
  | .wTxPayload data => decide (data.length ≤ 32)
  | .flushTx => true
  | .flushRx => true
  | .reuseTxPl => true
  | .activate => true
  | .rRxPlWid => true
  | .wAckPayload pipe data => decide (pipe.toNat ≤ 5) && decide (data.length ≤ 32)
  | .wTxPayloadNoack data => decide (data.length ≤ 32)

end Sys2Proof
end

