-- ==== Sys2Proof/WellFormed.lean ====
section
/-! DEFINITION. Well-formed instructions: the operand conditions of R134 and R139, and the weaker condition that an
instruction fits the model's own layout of a request. -/

namespace Sys2Proof

open Machine

/-- A well-formed instruction: every operand meets R139. A host operation with an operand outside these bounds is
refused by its own rule (R305); it is not an encoding error. -/
def Instr.wf : Instr → Bool
  | .rRegister addr n => (WireCmd.rRegister addr n).wf
  | .wRegister addr data => (WireCmd.wRegister addr data).wf
  | .rRxPayload n => (WireCmd.rRxPayload n).wf
  | .wTxPayload data => (WireCmd.wTxPayload data).wf
  | .flushTx => true
  | .flushRx => true
  | .reuseTxPl => true
  | .wireActivate => true
  | .rRxPlWid => true
  | .wAckPayload pipe data => (WireCmd.wAckPayload pipe data).wf
  | .wTxPayloadNoack data => (WireCmd.wTxPayloadNoack data).wf
  | .getBits _ mask => contiguous mask
  | .setBits _ mask _ => contiguous mask
  | .readRegister addr => addrOk addr
  | .writeRegister addr _ => addrOk addr
  | .readRegisters addr n => addrOk addr && countOk n
  | .writeRegisters addr bytes => addrOk addr && countOk bytes.length
  | .modifyRegisterBits reg mask _ => addrOk reg && contiguous mask
  | .reuseTx => true
  | .activate => true
  | .txHasSpace => true
  | .txIsEmpty => true
  | .txWrite data len => payloadOk data len
  | .txWriteNoAck data len => payloadOk data len
  | .setAckPipe pipe => (pipeOf pipe).isSome
  | .getAckPipe => true
  | .rxHasData => true
  | .rxIsFull => true
  | .rxRead => true
  | .txFlush => true
  | .rxFlush => true
  | .statusRead => true
  | .statusClear _ => true
  | .statusClearAll => true
  | .clearTxFail => true
  | .decode _ => true
  | .switchRole role => (roleOf role).isSome
  | .switchRoleDirectly role => (roleOf role).isSome
  | .getRole => true
  | .cfgWriteDirectly config => configOk config
  | .cfgWriteDiff old new => old.all configOk && configOk new
  | .cfgRead => true
  | .cfgWrite config => configOk config
  | .init _ => true
  | .checkDevice => true
  | .setup role config table => (roleOf role).isSome && config.all configOk && table.all tableOk
  | .deinit => true
  | .powerUp => true
  | .powerDown => true
  | .radioOn => true
  | .radioOff => true

/-- A configuration whose addresses fit the layout's one-byte lengths. -/
def RadioConfig.packable (c : RadioConfig) : Bool :=
  [c.txAddr, c.pipe0.addr, c.pipe1.addr, c.pipe2.addr, c.pipe3.addr, c.pipe4.addr, c.pipe5.addr].all
    fun a => decide (a.length < 256)

/-- An instruction that a request can carry: a wire command within R134's bounds, or a host operation whose counts fit
the layout's bytes. It admits the ill-formed operands that a host operation refuses by R305. -/
def Instr.encodable (i : Instr) : Bool :=
  match i.wireCmd with
  | some c => c.wf
  | none =>
    match i with
    | .readRegisters _ n => decide (n < 256)
    | .txWrite _ len => decide (len < 256)
    | .txWriteNoAck _ len => decide (len < 256)
    | .cfgWriteDirectly config => config.packable
    | .cfgWriteDiff old new => old.all RadioConfig.packable && new.packable
    | .cfgWrite config => config.packable
    | .setup _ config _ => config.all RadioConfig.packable
    | _ => true

end Sys2Proof
end

