-- ==== Sys2Proof/Decode.lean ====
section
/-! DEFINITION. Decoding a request, total on any bytes, and after it the encoder. The wire patterns are those of R134 in
the order of R137. "The spec defines no packed layout" for a host operation's operands (R138): the layout below the
select code is the model's own (assumption 7). -/

namespace Sys2Proof

open Machine

/-- Why a request is no instruction. -/
inductive DecodeError where
  /-- A wire transaction with no byte to the chip. -/
  | emptyFrame
  /-- The first byte is none of the 11 opcodes (R136). -/
  | notACommand
  /-- The transport call is not the one the command's row names (R105, R135). -/
  | wrongShape
  /-- The data length is outside the command's row (R134). -/
  | badLength
  /-- The second byte of ACTIVATE is not the magic byte 0x73 (R133). -/
  | badMagic
  /-- "A select code not in the table" (R138). -/
  | unknownSelect
  deriving DecidableEq, Repr

/-- The outcome of decoding. -/
inductive Decoded (α : Type) where
  | ok (a : α)
  | error (e : DecodeError)
  deriving DecidableEq, Repr

/-- Decoding, then a total function of what was decoded. -/
def Decoded.map {α β : Type} (f : α → β) : Decoded α → Decoded β
  | .ok a => .ok (f a)
  | .error e => .error e

/-! ### The wire port -/

/-- The command an opcode byte names, with the field it carries (formats A, P and F: R131 to R133). -/
inductive WireOp where
  | rRegister (addr : BitVec 5)
  | wRegister (addr : BitVec 5)
  | rRxPayload
  | wTxPayload
  | flushTx
  | flushRx
  | reuseTxPl
  | activate
  | rRxPlWid
  | wAckPayload (pipe : BitVec 3)
  | wTxPayloadNoack
  deriving DecidableEq, Repr

/-- Classifying the opcode byte, in the order of R137. -/
def classify (b : Byte) : Option WireOp :=
  if b &&& 0xE0 = 0x00 then some (.rRegister (b.setWidth 5))
  else if b &&& 0xE0 = 0x20 then some (.wRegister (b.setWidth 5))
  else if b = 0x50 then some .activate
  else if b = 0x60 then some .rRxPlWid
  else if b = 0x61 then some .rRxPayload
  else if b = 0xA0 then some .wTxPayload
  else if b &&& 0xF8 = 0xA8 ∧ (b.setWidth 3).toNat ≤ 5 then some (.wAckPayload (b.setWidth 3))
  else if b = 0xB0 then some .wTxPayloadNoack
  else if b = 0xE1 then some .flushTx
  else if b = 0xE2 then some .flushRx
  else if b = 0xE3 then some .reuseTxPl
  else none

/-- The command, when its operands meet the length columns of R134. -/
def lengthChecked (c : WireCmd) : Decoded WireCmd := if c.wf then .ok c else .error .badLength

/-- A `T.send` frame: the flushes, reuse, and ACTIVATE with its magic byte (R135). -/
def decodeSend (op : WireOp) (rest : List Byte) : Decoded WireCmd :=
  match op, rest with
  | .flushTx, [] => .ok .flushTx
  | .flushRx, [] => .ok .flushRx
  | .reuseTxPl, [] => .ok .reuseTxPl
  | .activate, [m] => if m = 0x73 then .ok .activate else .error .badMagic
  | _, _ => .error .wrongShape

/-- A `T.send2` frame: a command with data to the chip (R135). -/
def decodeSend2 (op : WireOp) (data : List Byte) : Decoded WireCmd :=
  match op with
  | .wRegister addr => lengthChecked (.wRegister addr data)
  | .wTxPayload => lengthChecked (.wTxPayload data)
  | .wAckPayload pipe => lengthChecked (.wAckPayload pipe data)
  | .wTxPayloadNoack => lengthChecked (.wTxPayloadNoack data)
  | _ => .error .wrongShape

/-- A `T.xfer` frame: a command with data from the chip (R135). -/
def decodeXfer (op : WireOp) (n : Nat) : Decoded WireCmd :=
  match op with
  | .rRegister addr => lengthChecked (.rRegister addr n)
  | .rRxPayload => lengthChecked (.rRxPayload n)
  | .rRxPlWid => if n = 1 then .ok .rRxPlWid else .error .badLength
  | _ => .error .wrongShape

/-- Decoding a transport call: the opcode byte first, then the call's shape and lengths ("A decoder tells the length from
the opcode byte and the transport call's buffer lengths", R130). -/
def decodeWireCmd : Call → Decoded WireCmd
  | .send [] => .error .emptyFrame
  | .send (b :: rest) =>
    match classify b with
    | none => .error .notACommand
    | some op => decodeSend op rest
  | .send2 [b] data =>
    match classify b with
    | none => .error .notACommand
    | some op => decodeSend2 op data
  | .send2 [] _ => .error .emptyFrame
  | .send2 (_ :: _ :: _) _ => .error .wrongShape
  | .xfer [b] n =>
    match classify b with
    | none => .error .notACommand
    | some op => decodeXfer op n
  | .xfer [] _ => .error .emptyFrame
  | .xfer (_ :: _ :: _) _ => .error .wrongShape

/-! ### The host port: reading operand bytes

A missing byte reads as 0, so that every operand string of a known select code names an operation. -/

/-- The next operand byte and the rest. -/
def takeByte : List Byte → Byte × List Byte
  | [] => (0, [])
  | b :: w => (b, w)

/-- Operand byte `k`. -/
def byteAt (w : List Byte) (k : Nat) : Byte := w.getD k 0

/-- A byte sequence with its length in front. -/
def takeBytes (w : List Byte) : List Byte × List Byte :=
  let (n, w) := takeByte w
  (w.take n.toNat, w.drop n.toNat)

/-- A configuration: rate (bit 0), power, channel, the six enables, the six auto-acknowledgement bits, then the transmit
address and the six pipe addresses, each with its length. -/
def takeConfig (w : List Byte) : RadioConfig × List Byte :=
  let (rate, w) := takeByte w
  let (power, w) := takeByte w
  let (channel, w) := takeByte w
  let (en, w) := takeByte w
  let (aa, w) := takeByte w
  let (tx, w) := takeBytes w
  let (a0, w) := takeBytes w
  let (a1, w) := takeBytes w
  let (a2, w) := takeBytes w
  let (a3, w) := takeBytes w
  let (a4, w) := takeBytes w
  let (a5, w) := takeBytes w
  ({ rate := if rate.getLsbD 0 then .r2M else .r1M, power := power, channel := channel, txAddr := tx
     pipe0 := ⟨en.getLsbD 0, aa.getLsbD 0, a0⟩, pipe1 := ⟨en.getLsbD 1, aa.getLsbD 1, a1⟩
     pipe2 := ⟨en.getLsbD 2, aa.getLsbD 2, a2⟩, pipe3 := ⟨en.getLsbD 3, aa.getLsbD 3, a3⟩
     pipe4 := ⟨en.getLsbD 4, aa.getLsbD 4, a4⟩, pipe5 := ⟨en.getLsbD 5, aa.getLsbD 5, a5⟩ }, w)

/-- A configuration or its absence: a marker byte, bit 0 set when one follows. -/
def takeOptConfig (w : List Byte) : Option RadioConfig × List Byte :=
  let (marker, w) := takeByte w
  if marker.getLsbD 0 then
    let (c, w) := takeConfig w
    (some c, w)
  else (none, w)

/-- The address and value pairs of a register list, to the end of the operands. -/
def pairsOf : List Byte → List (Byte × Byte)
  | [] => []
  | [a] => [(a, 0)]
  | a :: v :: w => (a, v) :: pairsOf w

/-- A register list or its absence: a marker byte, bit 0 set when one follows. -/
def optTable (w : List Byte) : Option (List (Byte × Byte)) :=
  let (marker, w) := takeByte w
  if marker.getLsbD 0 then some (pairsOf w) else none

/-- The transport named by an operand byte. -/
def transportOf (b : Byte) : Transport :=
  match b.toNat % 4 with
  | 0 => .blackBox
  | 1 => .refChip
  | 2 => .absent0
  | _ => .absentF

/-- Decoding a host request by its select code (R138). -/
def decodeHost (op : Byte) (w : List Byte) : Decoded Instr :=
  match op.toNat with
  | 0x00 => .ok (.getBits (byteAt w 0) (byteAt w 1))
  | 0x01 => .ok (.setBits (byteAt w 0) (byteAt w 1) (byteAt w 2))
  | 0x02 => .ok (.readRegister (byteAt w 0))
  | 0x03 => .ok (.writeRegister (byteAt w 0) (byteAt w 1))
  | 0x04 => .ok (.readRegisters (byteAt w 0) (byteAt w 1).toNat)
  | 0x05 => .ok (.writeRegisters (byteAt w 0) (w.drop 1))
  | 0x06 => .ok (.modifyRegisterBits (byteAt w 0) (byteAt w 1) (byteAt w 2))
  | 0x10 => .ok .reuseTx
  | 0x11 => .ok .activate
  | 0x20 => .ok .txHasSpace
  | 0x21 => .ok .txIsEmpty
  | 0x22 => .ok (.txWrite (w.drop 1) (byteAt w 0).toNat)
  | 0x23 => .ok (.txWriteNoAck (w.drop 1) (byteAt w 0).toNat)
  | 0x24 => .ok (.setAckPipe (byteAt w 0))
  | 0x25 => .ok .getAckPipe
  | 0x26 => .ok .rxHasData
  | 0x27 => .ok .rxIsFull
  | 0x28 => .ok .rxRead
  | 0x29 => .ok .txFlush
  | 0x2A => .ok .rxFlush
  | 0x30 => .ok .statusRead
  | 0x31 => .ok (.statusClear (byteAt w 0))
  | 0x32 => .ok .statusClearAll
  | 0x33 => .ok .clearTxFail
  | 0x34 => .ok (.decode (byteAt w 0))
  | 0x40 => .ok (.switchRole (byteAt w 0))
  | 0x41 => .ok (.switchRoleDirectly (byteAt w 0))
  | 0x42 => .ok .getRole
  | 0x50 => .ok (.cfgWriteDirectly (takeConfig w).1)
  | 0x51 => .ok (.cfgWriteDiff (takeOptConfig w).1 (takeConfig (takeOptConfig w).2).1)
  | 0x52 => .ok .cfgRead
  | 0x53 => .ok (.cfgWrite (takeConfig w).1)
  | 0x60 => .ok (.init (transportOf (byteAt w 0)))
  | 0x61 => .ok .checkDevice
  | 0x62 => .ok (.setup (byteAt w 0) (takeOptConfig (w.drop 1)).1 (optTable (takeOptConfig (w.drop 1)).2))
  | 0x63 => .ok .deinit
  | 0x64 => .ok .powerUp
  | 0x65 => .ok .powerDown
  | 0x66 => .ok .radioOn
  | 0x67 => .ok .radioOff
  | _ => .error .unknownSelect

/-- Decoding a request: each space on its own port. -/
def decode : Request → Decoded Instr
  | .wire call => (decodeWireCmd call).map WireCmd.toInstr
  | .host op w => decodeHost op w

/-! ### The encoder, from the same tables -/

/-- The transport call of a wire command (R134): the opcode byte with its field, the shape of R135. -/
def WireCmd.call : WireCmd → Call
  | .rRegister addr n => .xfer [0x00 ||| addr.setWidth 8] n
  | .wRegister addr data => .send2 [0x20 ||| addr.setWidth 8] data
  | .rRxPayload n => .xfer [0x61] n
  | .wTxPayload data => .send2 [0xA0] data
  | .flushTx => .send [0xE1]
  | .flushRx => .send [0xE2]
  | .reuseTxPl => .send [0xE3]
  | .activate => .send [0x50, 0x73]
  | .rRxPlWid => .xfer [0x60] 1
  | .wAckPayload pipe data => .send2 [0xA8 ||| pipe.setWidth 8] data
  | .wTxPayloadNoack data => .send2 [0xB0] data

/-- The byte that holds a count. -/
def countByte (n : Nat) : Byte := BitVec.ofNat 8 n

/-- A byte sequence with its length in front. -/
def putBytes (bs : List Byte) : List Byte := countByte bs.length :: bs

/-- Six bits, bit `i` the `i`-th. -/
def sixBits (b0 b1 b2 b3 b4 b5 : Bool) : Byte :=
  BitVec.ofNat 8 (b0.toNat + 2 * b1.toNat + 4 * b2.toNat + 8 * b3.toNat + 16 * b4.toNat + 32 * b5.toNat)

/-- The layout that `takeConfig` reads. -/
def putConfig (c : RadioConfig) : List Byte :=
  [if c.rate = .r2M then 1 else 0, c.power, c.channel,
   sixBits c.pipe0.enabled c.pipe1.enabled c.pipe2.enabled c.pipe3.enabled c.pipe4.enabled c.pipe5.enabled,
   sixBits c.pipe0.autoAck c.pipe1.autoAck c.pipe2.autoAck c.pipe3.autoAck c.pipe4.autoAck c.pipe5.autoAck]
    ++ putBytes c.txAddr ++ putBytes c.pipe0.addr ++ putBytes c.pipe1.addr ++ putBytes c.pipe2.addr
    ++ putBytes c.pipe3.addr ++ putBytes c.pipe4.addr ++ putBytes c.pipe5.addr

/-- The layout that `takeOptConfig` reads. -/
def putOptConfig : Option RadioConfig → List Byte
  | none => [0]
  | some c => 1 :: putConfig c

/-- The pairs of a register list, flat. -/
def putPairs : List (Byte × Byte) → List Byte
  | [] => []
  | p :: t => p.1 :: p.2 :: putPairs t

/-- The layout that `optTable` reads. -/
def putOptTable : Option (List (Byte × Byte)) → List Byte
  | none => [0]
  | some t => 1 :: putPairs t

/-- The operand byte of a transport. -/
def transportByte : Transport → Byte
  | .blackBox => 0
  | .refChip => 1
  | .absent0 => 2
  | .absentF => 3

/-- The request that carries an instruction. -/
def encode : Instr → Request
  | .rRegister addr n => .wire (WireCmd.rRegister addr n).call
  | .wRegister addr data => .wire (WireCmd.wRegister addr data).call
  | .rRxPayload n => .wire (WireCmd.rRxPayload n).call
  | .wTxPayload data => .wire (WireCmd.wTxPayload data).call
  | .flushTx => .wire WireCmd.flushTx.call
  | .flushRx => .wire WireCmd.flushRx.call
  | .reuseTxPl => .wire WireCmd.reuseTxPl.call
  | .wireActivate => .wire WireCmd.activate.call
  | .rRxPlWid => .wire WireCmd.rRxPlWid.call
  | .wAckPayload pipe data => .wire (WireCmd.wAckPayload pipe data).call
  | .wTxPayloadNoack data => .wire (WireCmd.wTxPayloadNoack data).call
  | .getBits byte mask => .host 0x00 [byte, mask]
  | .setBits byte mask value => .host 0x01 [byte, mask, value]
  | .readRegister addr => .host 0x02 [addr]
  | .writeRegister addr byte => .host 0x03 [addr, byte]
  | .readRegisters addr n => .host 0x04 [addr, countByte n]
  | .writeRegisters addr bytes => .host 0x05 (addr :: bytes)
  | .modifyRegisterBits reg mask value => .host 0x06 [reg, mask, value]
  | .reuseTx => .host 0x10 []
  | .activate => .host 0x11 []
  | .txHasSpace => .host 0x20 []
  | .txIsEmpty => .host 0x21 []
  | .txWrite data len => .host 0x22 (countByte len :: data)
  | .txWriteNoAck data len => .host 0x23 (countByte len :: data)
  | .setAckPipe pipe => .host 0x24 [pipe]
  | .getAckPipe => .host 0x25 []
  | .rxHasData => .host 0x26 []
  | .rxIsFull => .host 0x27 []
  | .rxRead => .host 0x28 []
  | .txFlush => .host 0x29 []
  | .rxFlush => .host 0x2A []
  | .statusRead => .host 0x30 []
  | .statusClear sel => .host 0x31 [sel]
  | .statusClearAll => .host 0x32 []
  | .clearTxFail => .host 0x33 []
  | .decode rawStatus => .host 0x34 [rawStatus]
  | .switchRole role => .host 0x40 [role]
  | .switchRoleDirectly role => .host 0x41 [role]
  | .getRole => .host 0x42 []
  | .cfgWriteDirectly config => .host 0x50 (putConfig config)
  | .cfgWriteDiff old new => .host 0x51 (putOptConfig old ++ putConfig new)
  | .cfgRead => .host 0x52 []
  | .cfgWrite config => .host 0x53 (putConfig config)
  | .init transport => .host 0x60 [transportByte transport]
  | .checkDevice => .host 0x61 []
  | .setup role config table => .host 0x62 (role :: (putOptConfig config ++ putOptTable table))
  | .deinit => .host 0x63 []
  | .powerUp => .host 0x64 []
  | .powerDown => .host 0x65 []
  | .radioOn => .host 0x66 []
  | .radioOff => .host 0x67 []

/-! ### Words of the opcode table -/

/-- The bytes of a word above its first, `k` of them, the lowest first. -/
def bytesAbove : Nat → Nat → List Byte
  | 0, _ => []
  | k + 1, w => BitVec.ofNat 8 w :: bytesAbove k (w / 256)

/-- A wire transaction that begins with byte `op`, in the shape and with the shortest lengths of that command's row;
operand bytes the word does not give are 0. -/
def tableCall (op : Byte) (rest : List Byte) : Call :=
  match classify op with
  | some (.rRegister _) => .xfer [op] 1
  | some .rRxPayload => .xfer [op] 1
  | some .rRxPlWid => .xfer [op] 1
  | some (.wRegister _) => .send2 [op] (if rest.isEmpty then [0] else rest)
  | some .wTxPayload => .send2 [op] (if rest.isEmpty then [0] else rest)
  | some (.wAckPayload _) => .send2 [op] (if rest.isEmpty then [0] else rest)
  | some .wTxPayloadNoack => .send2 [op] (if rest.isEmpty then [0] else rest)
  | some .activate => .send [op, 0x73]
  | some .flushTx => .send [op]
  | some .flushRx => .send [op]
  | some .reuseTxPl => .send [op]
  | none => .send [op]

/-- The request a bare word of the opcode table stands for. The table's two spaces share byte values, and a byte does not
say its port: a byte that is a select code is put on the host port, any other on the wire port (assumption 8). -/
def tableRequest (nbits w : Nat) : Request :=
  let op : Byte := BitVec.ofNat 8 w
  let rest := bytesAbove (nbits / 8 - 1) (w / 256)
  match decodeHost op rest with
  | .ok _ => .host op rest
  | .error _ => .wire (tableCall op rest)

/-- The instruction the decoder reads from a word of the opcode table. -/
def decodeTableWord (nbits w : Nat) : Option Instr :=
  match decode (tableRequest nbits w) with
  | .ok i => some i
  | .error _ => none

end Sys2Proof
end

