-- ==== Sys2Proof/Machine/PowerOn.lean ====
section
/-! DEFINITION. The cells of the chip's register space and their power-on values (R40 to R57). -/

namespace Sys2Proof.Machine

/-- The key of byte `i` of the register at address `a`. -/
def regKey (a : BitVec 5) (i : Nat) : Nat := 8 * a.toNat + i

/-- What an unlisted cell reads as: the power-on value of the register map (R40 to R57), with the nRF24L01 value 0x0F of
`RF_SETUP` (assumption 3); 0x00 where there is no cell. -/
def powerOnByte (k : Nat) : Byte :=
  match k with
  | 0x00 => 0x08
  | 0x08 => 0x3F
  | 0x10 => 0x03
  | 0x18 => 0x03
  | 0x20 => 0x03
  | 0x28 => 0x02
  | 0x30 => 0x0F
  | 0x50 | 0x51 | 0x52 | 0x53 | 0x54 => 0xE7
  | 0x58 | 0x59 | 0x5A | 0x5B | 0x5C => 0xC2
  | 0x60 => 0xC3
  | 0x68 => 0xC4
  | 0x70 => 0xC5
  | 0x78 => 0xC6
  | 0x80 | 0x81 | 0x82 | 0x83 | 0x84 => 0xE7
  | _ => 0x00

end Sys2Proof.Machine
end

