-- ==== Sys2Proof/Machine/State.lean ====
section
/-! DEFINITION. The state: the four instance registers of the block (R30), the chip-enable pin (R38), the chip behind the
transport (R39 to R59, R97), the environment's pending inputs (R92, R107, R108), the history (R63), the two ports (R138,
R141) and the parameter `NOACK_IN_PRX` (R6). Plain data. -/

namespace Sys2Proof.Machine

/-! ### The chip -/

/-- The register space: cells in rising order, none equal to what an unlisted cell reads as. The key of byte `i` of the
register at address `a` is `8 * a + i`. -/
abbrev Memory := List Host.Cell

/-- The canonical form of the register space: keys strictly rising, no cell equal to what an unlisted one reads as. -/
def Memory.wf : Memory → Bool
  | [] => true
  | [c] => c.2 != powerOnByte c.1
  | c :: d :: m => c.2 != powerOnByte c.1 && decide (c.1 < d.1) && Memory.wf (d :: m)

/-- The kind of a transmit-FIFO entry (R97). -/
inductive TxKind where
  | plain
  | noack
  | ack (pipe : BitVec 3)
  deriving DecidableEq, Repr

/-- An entry of the transmit FIFO (R59, R97). -/
structure TxEntry where
  kind : TxKind
  data : List Byte
  deriving DecidableEq, Repr

/-- An entry of the receive FIFO, with the pipe it arrived on (R59, R97). -/
structure RxEntry where
  pipe : Fin 6
  data : List Byte
  deriving DecidableEq, Repr

/-- Which chip stands behind the transport: the model's parameter, since the variant is not in the source and RefChip "is not a
specification of the chip" (R96). The two others follow RefChip's rules but for what R197, R198 and R201 say of the chip
(assumption 17). -/
inductive ChipVariant where
  /-- RefChip, as R97 to R109 define it. -/
  | refChip
  /-- The nRF24L01, which has ACTIVATE. -/
  | nrf24l01
  /-- The nRF24L01+, which ignores ACTIVATE. -/
  | nrf24l01Plus
  deriving DecidableEq, Repr

/-- The state of the chip behind the transport (R97), but for its `ce`, which is the pin of R38. -/
structure RefChip where
  /-- The register space (R39 to R57). -/
  regs : Memory
  /-- `STATUS.RX_DR`, receive-data-ready (R47). -/
  rxDr : Bool
  /-- `STATUS.TX_DS`, transmit-data-sent (R47). -/
  txDs : Bool
  /-- `STATUS.MAX_RT`, max-retransmits-reached (R47). -/
  maxRt : Bool
  /-- `FIFO_STATUS.TX_REUSE` (R55). -/
  txReuse : Bool
  /-- The transmit FIFO, head first (R59). -/
  txq : List TxEntry
  /-- The receive FIFO, head first (R59). -/
  rxq : List RxEntry
  /-- RefChip's `faulted` bit, never cleared once set (R97). -/
  faulted : Bool
  /-- Which chip it is; no step changes it. -/
  variant : ChipVariant
  /-- On the nRF24L01, whether ACTIVATE has given access to `DYNPD`, `FEATURE` and three commands (R198). -/
  activated : Bool
  deriving DecidableEq, Repr

/-- RefChip's initial state `POR`: the power-on values, flags 0, queues empty (R97). -/
def RefChip.por : RefChip where
  regs := []
  rxDr := false
  txDs := false
  maxRt := false
  txReuse := false
  txq := []
  rxq := []
  faulted := false
  variant := .refChip
  activated := false

/-! ### The environment's inputs -/

/-- RefChip's environment events, standing for radio activity (R107). -/
inductive ChipEvent where
  | rxArrive (pipe : Fin 6) (data : List Byte)
  | txDone
  | txFail
  deriving DecidableEq, Repr

/-- What the environment does at one transaction: the radio events before it (R107), whether it fails (R92, R108), the
bytes it draws (R92), the override of the payload width (R101), and the level to which the transport or anything else moves
the chip-enable pin before it, if it does (R60 b, U13). -/
structure EnvInput where
  events : List ChipEvent
  rc : Rc
  bytes : List Byte
  width : Option Byte
  pin : Option Bool
  deriving DecidableEq, Repr

/-- No event, no failure, no override, no move of the pin. -/
def EnvInput.quiet : EnvInput := ⟨[], .ok, [], none, none⟩

/-! ### Results -/

/-- Why an operation is refused (R305). -/
inductive Reason where
  | notBound
  | alreadyBound
  | noValue
  | badOperand
  | badMask
  | badRole
  | badTable
  deriving DecidableEq, Repr

/-- `Result ::= OK | TRANSPORT(n) | NO_DATA | IDENTITY | REJECTED(reason)` (R10). -/
inductive Result where
  | ok
  | transport (n : Nat)
  | noData
  | identity
  | rejected (reason : Reason)
  deriving DecidableEq, Repr

/-- The outputs of an operation (R138, column "outputs"). -/
inductive Output where
  | none
  | byte (b : Byte)
  | bytes (bs : List Byte)
  | flag (b : Bool)
  | pipe (p : Fin 6)
  | role (r : Role)
  /-- `rxRead`: data, length, and the raw 3-bit pipe field (R218). -/
  | received (data : List Byte) (len : Nat) (pipe : BitVec 3)
  | config (c : RadioConfig)
  /-- An `EventSet` in the encoding of R235. -/
  | events (e : BitVec 3)
  deriving DecidableEq, Repr

/-- The response on the host port: "`(result : Result, outputs)`" (R138). -/
structure Response where
  result : Result
  out : Output
  deriving DecidableEq, Repr

/-- What stands on the machine's ports: a request, or a radio event that "a program ... optionally interleaved with
RefChip events" holds between operations (R141), or a move of the chip-enable pin by something else (R60 b, U13). -/
inductive PortItem where
  | request (r : Request)
  | radio (e : ChipEvent)
  | pin (level : Bool)
  deriving DecidableEq, Repr

/-- The machine. -/
structure State where
  /-- `S.bound`: the transport binding is held and initialised (R31). -/
  bound : Bool
  /-- `S.role`, or no value (R32, R64). -/
  role : Option Role
  /-- `S.ack_pipe`, the sticky acknowledgement pipe, or no value (R33, R64). -/
  ackPipe : Option (Fin 6)
  /-- `S.radio_enabled`, the block's mirror of the pin, or no value (R34, R64). -/
  radioEnabled : Option Bool
  /-- The transport the binding refers to (R30, R81). -/
  transport : Transport
  /-- The chip-enable pin, true for high (R38): environment state, driven by `T.ce(level)`, moved too by the environment's
  inputs and port items (R60 b, assumption 25). -/
  ce : Bool
  /-- The chip (R39 to R59, R97). -/
  chip : RefChip
  /-- The environment's pending inputs, one for each transaction to come; quiet, or a free draw, when empty (R92). -/
  inputs : List EnvInput
  /-- The event history `H`, oldest first (R63). -/
  history : List Event
  /-- The requests pending on the ports, the next first (R138, R141). -/
  pending : List PortItem
  /-- The response of the last operation, none before the first (R138). -/
  response : Option Response
  /-- The parameter `NOACK_IN_PRX` (R6, R213). -/
  noackInPrx : NoackPolicy
  deriving DecidableEq, Repr

/-- Why the machine stops. -/
inductive Fault where
  /-- Raised by `rxRead` when the chip returns a payload width above 32: "the model faults there" (R218, entry U8). Safe:
  the spec gives no behaviour. -/
  | payloadWidthAbove32
  deriving DecidableEq, Repr

/-- Why the model gives an instruction no meaning. -/
inductive Refusal where
  /-- Raised by an arm of `exec` whose instruction has no meaning yet. Safe. -/
  | notModelled (mnemonic : String)
  deriving DecidableEq, Repr

/-- The machine at power-on: the instance registers of R64 (`bound` false, the others without value), nothing issued and
nothing pending (R330); the pin, the chip and the transport at the values of assumptions 1 to 4. -/
def State.reset : State where
  bound := false
  role := none
  ackPipe := none
  radioEnabled := none
  transport := .blackBox
  ce := false
  chip := RefChip.por
  inputs := []
  history := []
  pending := []
  response := none
  noackInPrx := .reject

end Sys2Proof.Machine
end

