-- ==== Sys2Proof/Machine/Memory.lean ====
section
/-! DEFINITION. The register space as memory: the read and the write of one cell, and of a run of cells. -/

namespace Sys2Proof.Machine

/-- Reading one cell. -/
def Memory.read : Memory → Nat → Byte
  | [], k => powerOnByte k
  | c :: m, k => if c.1 = k then c.2 else Memory.read m k

/-- A cell in front of the cells above it, left out when it equals what an unlisted cell reads as. -/
def Memory.put (k : Nat) (v : Byte) (m : Memory) : Memory :=
  if v = powerOnByte k then m else (k, v) :: m

/-- Writing one cell, in the canonical form. -/
def Memory.write : Memory → Nat → Byte → Memory
  | [], k, v => Memory.put k v []
  | c :: m, k, v =>
    if k < c.1 then Memory.put k v (c :: m)
    else if k = c.1 then Memory.put k v m
    else c :: Memory.write m k v

/-- Writing consecutive cells from `k` up. -/
def Memory.writeBytes : Memory → Nat → List Byte → Memory
  | m, _, [] => m
  | m, k, b :: bs => Memory.writeBytes (Memory.write m k b) (k + 1) bs

/-- Reading `n` consecutive cells from `k` up. -/
def Memory.readBytes (m : Memory) (k n : Nat) : List Byte :=
  (List.range n).map fun i => Memory.read m (k + i)

end Sys2Proof.Machine
end

