-- ==== Sys2Proof/Machine/Flags.lean ====
section
/-! DEFINITION. The flag computations: the two derived status registers of the chip (R98), the write-one-to-clear of
`STATUS` (R100), the four FIFO queries (R210, R211, R216, R217) and the Status/Event Decoder (R235, R236). -/

namespace Sys2Proof.Machine

/-- A byte whose only bit, if `b`, is bit `i`. -/
def bitAt (i : Nat) (b : Bool) : Byte := if b then 1 <<< i else 0

/-- The pipe of the head of the receive FIFO, "or 7 when `rxq` is empty" (R98). -/
def RefChip.topPipe (c : RefChip) : Byte :=
  match c.rxq with
  | [] => 7
  | e :: _ => BitVec.ofNat 8 e.pipe.val

/-- `STATUS` (R98, layout R47). -/
def RefChip.status (c : RefChip) : Byte :=
  bitAt 6 c.rxDr ||| bitAt 5 c.txDs ||| bitAt 4 c.maxRt ||| (c.topPipe <<< 1) ||| bitAt 0 (c.txq.length == 3)

/-- `FIFO_STATUS` (R98, layout R55). -/
def RefChip.fifoStatus (c : RefChip) : Byte :=
  bitAt 6 c.txReuse ||| bitAt 5 (c.txq.length == 3) ||| bitAt 4 (c.txq.length == 0)
    ||| bitAt 1 (c.rxq.length == 3) ||| bitAt 0 (c.rxq.length == 0)

/-- A write to `STATUS`: the flags whose bits are 1 are cleared, "and nothing else" (R100). -/
def RefChip.clearFlags (c : RefChip) (d : Byte) : RefChip :=
  { c with
    rxDr := c.rxDr && !d.getLsbD 6
    txDs := c.txDs && !d.getLsbD 5
    maxRt := c.maxRt && !d.getLsbD 4 }

/-- `txHasSpace`: `TX_FULL`, bit 5, clear (R210). -/
def fifoTxHasSpace (b : Byte) : Bool := !b.getLsbD 5

/-- `txIsEmpty`: `TX_EMPTY`, bit 4, set (R211). -/
def fifoTxIsEmpty (b : Byte) : Bool := b.getLsbD 4

/-- `rxHasData`: `RX_EMPTY`, bit 0, clear (R216). -/
def fifoRxHasData (b : Byte) : Bool := !b.getLsbD 0

/-- `rxIsFull`: `RX_FULL`, bit 1, set (R217). -/
def fifoRxIsFull (b : Byte) : Bool := b.getLsbD 1

/-- `STATUS[3:1]`, `RX_P_NO` (R47). -/
def pipeField (s : Byte) : BitVec 3 := (s >>> 1).setWidth 3

/-- `NONE` (R235). -/
abbrev evNone : BitVec 3 := 0
/-- `TX_SENT`, bit 0 (R235). -/
abbrev evTxSent : BitVec 3 := 1
/-- `HAS_RXDATA`, bit 1 (R235). -/
abbrev evHasRxData : BitVec 3 := 2
/-- `TX_FAIL`, bit 2 alone (R235). -/
abbrev evTxFail : BitVec 3 := 4

/-- The decoder, in the four steps of R236. -/
def decodeStatus (s : Byte) : BitVec 3 :=
  if s &&& 0x7E = 0x0E then evNone
  else
    let ev := if s.getLsbD 5 then evNone ||| evTxSent else evNone
    let ev := if s.getLsbD 6 || decide ((pipeField s).toNat ≤ 5) then ev ||| evHasRxData else ev
    if s.getLsbD 4 then evTxFail else ev

end Sys2Proof.Machine
end

