-- ==== Sys2Proof/Machine/Chip.lean ====
section
/-! DEFINITION. RefChip, the reference environment: its reaction to every transport call (R99 to R105) and to the radio
events (R107). -/

namespace Sys2Proof.Machine

/-- RefChip's initial state `ZERO`: every register byte 0x00 (R97). -/
def RefChip.zero : RefChip :=
  { RefChip.por with
    regs :=
      [(0x00, 0), (0x08, 0), (0x10, 0), (0x18, 0), (0x20, 0), (0x28, 0), (0x30, 0),
       (0x50, 0), (0x51, 0), (0x52, 0), (0x53, 0), (0x54, 0)]
      ++ [(0x58, 0), (0x59, 0), (0x5A, 0), (0x5B, 0), (0x5C, 0), (0x60, 0), (0x68, 0), (0x70, 0), (0x78, 0),
          (0x80, 0), (0x81, 0), (0x82, 0), (0x83, 0), (0x84, 0)] }

/-- What stands at a register address (R39, R97, R98). -/
inductive RegKind where
  /-- A stored single-byte register. -/
  | one
  /-- A stored five-byte register. -/
  | five
  | status
  | fifoStatus
  /-- `OBSERVE_TX` and `RPD`, which read 0x00 (R98). -/
  | readOnlyZero
  | unmapped
  deriving DecidableEq, Repr

/-- The register map (R39 to R58). -/
def regKind (a : BitVec 5) : RegKind :=
  let n := a.toNat
  if n ≤ 0x06 then .one
  else if n = 0x07 then .status
  else if n ≤ 0x09 then .readOnlyZero
  else if n ≤ 0x0B then .five
  else if n ≤ 0x0F then .one
  else if n = 0x10 then .five
  else if n ≤ 0x16 then .one
  else if n = 0x17 then .fifoStatus
  else if n ≤ 0x1B then .unmapped
  else if n ≤ 0x1D then .one
  else .unmapped

/-- R_REGISTER (R99). -/
def RefChip.readReg (c : RefChip) (a : BitVec 5) (n : Nat) : List Byte :=
  match regKind a with
  | .one => List.replicate n (Memory.read c.regs (regKey a 0))
  | .five => Memory.readBytes c.regs (regKey a 0) n
  | .status => List.replicate n c.status
  | .fifoStatus => List.replicate n c.fifoStatus
  | .readOnlyZero => List.replicate n 0
  | .unmapped => List.replicate n 0

/-- W_REGISTER (R100). -/
def RefChip.writeReg (c : RefChip) (a : BitVec 5) (d : List Byte) : RefChip :=
  match regKind a with
  | .one => { c with regs := Memory.write c.regs (regKey a 0) (d.headD 0) }
  | .five => { c with regs := Memory.writeBytes c.regs (regKey a 0) d }
  | .status => c.clearFlags (d.headD 0)
  | .fifoStatus => c
  | .readOnlyZero => c
  | .unmapped => c

/-- R_RX_PL_WID: the length of the head of the receive FIFO, 0x00 when it is empty, unless a test overrides it (R101). -/
def RefChip.topWidth (c : RefChip) (override : Option Byte) : Byte :=
  match override with
  | some w => w
  | none =>
    match c.rxq with
    | [] => 0
    | e :: _ => BitVec.ofNat 8 e.data.length

/-- "the first n bytes ... (padded with 0x00 if n exceeds its length)" (R102). -/
def firstBytes (n : Nat) (bs : List Byte) : List Byte := (List.range n).map fun i => bs.getD i 0

/-- R_RX_PAYLOAD (R102). -/
def RefChip.popRx (c : RefChip) (n : Nat) : RefChip × List Byte :=
  match c.rxq with
  | [] => ({ c with faulted := true }, List.replicate n 0)
  | e :: q => ({ c with rxq := q }, firstBytes n e.data)

/-- A payload write: the queue and `faulted` (R103). -/
def RefChip.pushTx (c : RefChip) (kind : TxKind) (d : List Byte) : RefChip :=
  if c.txq.length < 3 ∧ 1 ≤ d.length ∧ d.length ≤ 32 then { c with txq := c.txq ++ [⟨kind, d⟩] }
  else { c with faulted := true }

/-- RefChip's reaction to a wire command: its next state and the bytes it returns (R99 to R104). A payload write leaves the
reuse as it is and ACTIVATE changes nothing (R103, R104); on the two other variants W_TX_PAYLOAD ends the reuse (R197), and on
the nRF24L01 ACTIVATE toggles the access (R198, assumption 17). -/
def RefChip.run (c : RefChip) (width : Option Byte) (cmd : WireCmd) : RefChip × List Byte :=
  match cmd with
  | .rRegister a n => (c, c.readReg a n)
  | .wRegister a d => (c.writeReg a d, [])
  | .rRxPayload n => c.popRx n
  | .wTxPayload d => ({ c.pushTx .plain d with txReuse := c.txReuse && c.variant == .refChip }, [])
  | .flushTx => ({ c with txq := [], txReuse := false }, [])
  | .flushRx => ({ c with rxq := [] }, [])
  | .reuseTxPl => ({ c with txReuse := true }, [])
  | .activate => ({ c with activated := c.activated != (c.variant == .nrf24l01) }, [])
  | .rRxPlWid => (c, [c.topWidth width])
  | .wAckPayload p d => (c.pushTx (.ack p) d, [])
  | .wTxPayloadNoack d => (c.pushTx .noack d, [])

/-- How many bytes a transport call asks for. -/
def readLen : Call → Nat
  | .send _ => 0
  | .send2 _ _ => 0
  | .xfer _ n => n

/-- The accesses that ACTIVATE toggles on the nRF24L01: "the `DYNPD` and `FEATURE` registers and ... the commands R_RX_PL_WID,
W_ACK_PAYLOAD, W_TX_PAYLOAD_NOACK" (R198). -/
def behindActivate (cmd : WireCmd) : Bool :=
  match cmd with
  | .rRegister a _ => a == 0x1C || a == 0x1D
  | .wRegister a _ => a == 0x1C || a == 0x1D
  | .rRxPlWid => true
  | .wAckPayload _ _ => true
  | .wTxPayloadNoack _ => true
  | .rRxPayload _ => false
  | .wTxPayload _ => false
  | .flushTx => false
  | .flushRx => false
  | .reuseTxPl => false
  | .activate => false

/-- Whether the chip gives access to a command: always, but on an nRF24L01 for what ACTIVATE has not turned on (R198). -/
def RefChip.allows (c : RefChip) (cmd : WireCmd) : Bool :=
  c.variant != .nrf24l01 || c.activated || !behindActivate cmd

/-- The chip's reaction to any transport call; a call that is none of the 11 commands "sets `faulted`, returns `ok`, reads
return 0x00 bytes" (R105). A command without access does nothing, and what it returns is drawn, since R198 does not say
(assumption 17). -/
def RefChip.react (c : RefChip) (width : Option Byte) (drawn : List Byte) (call : Call) : RefChip × List Byte :=
  match decodeWireCmd call with
  | .ok cmd => if c.allows cmd then c.run width cmd else (c, drawn)
  | .error _ => ({ c with faulted := true }, List.replicate (readLen call) 0)

/-- One radio event (R107). R107 lets a failed transmission set `max_rt` whatever the head of the queue; R201 says of the chip
that none can follow from a no-acknowledgement payload. RefChip follows R107, and on the two other variants the event does
nothing there: the model's choice (assumption 26). -/
def RefChip.radio (c : RefChip) (e : ChipEvent) : RefChip :=
  match e with
  | .rxArrive p d =>
    if c.rxq.length < 3 ∧ 1 ≤ d.length ∧ d.length ≤ 32 then { c with rxq := c.rxq ++ [⟨p, d⟩], rxDr := true } else c
  | .txDone =>
    match c.txq with
    | [] => c
    | _ :: q => { c with txq := if c.txReuse then c.txq else q, txDs := true }
  | .txFail =>
    match c.txq with
    | [] => c
    | e :: _ => { c with maxRt := c.maxRt || c.variant == .refChip || e.kind != .noack }

/-- Radio events in order. -/
def RefChip.radios (c : RefChip) (es : List ChipEvent) : RefChip := es.foldl RefChip.radio c

end Sys2Proof.Machine
end

