-- ==== Sys2Proof/Machine/Ops.lean ====
section
/-! DEFINITION. The shared operations of the block: one transaction on the transport and what the environment answers
(R9, R81, R92, R93), runs of transactions with their failures counted (R302), the micro-sequences several operations use
(R178, R234), the chip-enable pin (R286, R287), and the response, a refusal among them (R300, R305). -/

namespace Sys2Proof.Machine

/-! ### One transaction -/

/-- `cnt(rc)`: 0 for `ok` and 1 for `fail` (R10). -/
def cnt : Rc → Nat
  | .ok => 0
  | .fail => 1

/-- What the environment does with a call: the chip afterwards, the return code and the bytes delivered. -/
structure Reply where
  chip : RefChip
  rc : Rc
  bytes : List Byte
  deriving DecidableEq, Repr

/-- The bytes drawn for a call: those of the input, exactly as many as asked for, the missing ones free (R92, R93). -/
def drawnBytes (h : List Event) (i : EnvInput) (c : Call) : List Byte :=
  (List.range (readLen c)).map fun k => i.bytes.getD k (Config.oracleByte h c k)

/-- The black box's answer: the pending input's return code and bytes; wholly free when no input is pending. The data of a
failed read is any value (R92, R93). -/
def blackBoxReply (chip : RefChip) (h : List Event) (inputs : List EnvInput) (c : Call) : Reply :=
  match inputs with
  | [] => ⟨chip, Config.oracleRc h c, drawnBytes h EnvInput.quiet c⟩
  | i :: _ => ⟨chip, i.rc, drawnBytes h i c⟩

/-- RefChip's answer: the pending radio events first (R107); an injected failure "changes no RefChip state, and a read
returns bytes all 0x00" (R108). -/
def refChipReply (chip : RefChip) (h : List Event) (i : EnvInput) (c : Call) : Reply :=
  let chip := chip.radios i.events
  match i.rc with
  | .fail => ⟨chip, .fail, List.replicate (readLen c) 0⟩
  | .ok => 
    let r := chip.react i.width (drawnBytes h i c) c
    ⟨r.1, .ok, r.2⟩

/-- An absent device answers every read with one byte value and ignores every write (R109). -/
def absentReply (chip : RefChip) (b : Byte) (c : Call) : Reply := ⟨chip, .ok, List.replicate (readLen c) b⟩

/-- What the transport of a state answers to a call. -/
def reply (c : Call) (s : State) : Reply :=
  match s.transport with
  | .blackBox => blackBoxReply s.chip s.history s.inputs c
  | .refChip => refChipReply s.chip s.history (s.inputs.headD EnvInput.quiet) c
  | .absent0 => absentReply s.chip 0x00 c
  | .absentF => absentReply s.chip 0xFF c

/-- The history event of a call (R63). -/
def eventOf (c : Call) (rc : Rc) (received : List Byte) : Event :=
  match c with
  | .send bs => .send bs rc
  | .send2 b1 b2 => .send2 b1 b2 rc
  | .xfer ws n => .xfer ws n received rc

/-- The event a call leaves in the history of a state. -/
def eventIn (c : Call) (s : State) : Event := eventOf c (reply c s).rc (reply c s).bytes

/-- The level of the pin once the next pending input has moved it, if it does (R60 b, U13). -/
def movedPin (s : State) : Bool :=
  match s.inputs with
  | [] => s.ce
  | i :: _ => i.pin.getD s.ce

/-- The state after one transaction: the environment has reacted, its input is used up, and the call is "recorded in the
event history" (R9, R190). No instance register changes. -/
def transact (c : Call) (s : State) : State :=
  { s with
    ce := movedPin s
    chip := (reply c s).chip
    inputs := s.inputs.tail
    history := s.history ++ [eventIn c s] }

/-- Whether a call fails in a state, as a count. -/
def failed (c : Call) (s : State) : Nat := cnt (reply c s).rc

/-- The first byte a call delivers in a state. -/
def firstByte (c : Call) (s : State) : Byte := (reply c s).bytes.headD 0

/-! ### Runs of transactions -/

/-- Transactions one after another, each "issued whether or not an earlier one failed" (R302). -/
def issueAll : List Call → State → State
  | [], s => s
  | c :: cs, s => issueAll cs (transact c s)

/-- How many of a run of transactions fail (R302). -/
def failures : List Call → State → Nat
  | [], _ => 0
  | c :: cs, s => failed c s + failures cs (transact c s)

/-- The bytes that a run of transactions delivers, in order. -/
def delivered : List Call → State → List (List Byte)
  | [], _ => []
  | c :: cs, s => (reply c s).bytes :: delivered cs (transact c s)

/-- Reading one register byte, and writing one (R174, R175). -/
def readByteCall (a : BitVec 5) : Call := (WireCmd.rRegister a 1).call
def writeByteCall (a : BitVec 5) (b : Byte) : Call := (WireCmd.wRegister a [b]).call

/-- The write of `modifyRegisterBits`, from the byte its read delivered (R178). -/
def modifyCall (a : BitVec 5) (mask value : Byte) (s : State) : Call :=
  writeByteCall a (setBits (firstByte (readByteCall a) s) mask value)

/-- `modifyRegisterBits` on an admitted register and mask: "fails if the read fails, otherwise always attempts the write"
(R178). -/
def modifyBits (a : BitVec 5) (mask value : Byte) (s : State) : State :=
  match (reply (readByteCall a) s).rc with
  | .fail => transact (readByteCall a) s
  | .ok => transact (modifyCall a mask value s) (transact (readByteCall a) s)

/-- The failures of `modifyRegisterBits`: at most one (R178, R301). -/
def modifyFailures (a : BitVec 5) (mask value : Byte) (s : State) : Nat :=
  match (reply (readByteCall a) s).rc with
  | .fail => 1
  | .ok => failed (modifyCall a mask value s) (transact (readByteCall a) s)

/-- The register addresses the block's own operations use (R40, R47, R50, R55). -/
abbrev regConfig : BitVec 5 := 0x00
abbrev regStatus : BitVec 5 := 0x07
abbrev regRxAddrP0 : BitVec 5 := 0x0A
abbrev regFifoStatus : BitVec 5 := 0x17

/-- `CONFIG.PRIM_RX`, the on-chip role bit, and `CONFIG.PWR_UP` (R40). -/
abbrev maskPrimRx : Byte := 0x01
abbrev maskPwrUp : Byte := 0x02

/-- `softClear`: FLUSH_TX, FLUSH_RX, then all three status flags (R234). -/
def softClearCalls : List Call :=
  [WireCmd.flushTx.call, WireCmd.flushRx.call, (WireCmd.wRegister regStatus [0x70]).call]

/-! ### The chip-enable pin -/

/-- `T.ce(level)`, with the block's mirror: `radioOn` and `radioOff` on a bound instance (R286, R287). It "cannot fail"
(R92). -/
def driveCe (level : Bool) (s : State) : State :=
  { s with ce := level, radioEnabled := some level, history := s.history ++ [.ce level] }

/-! ### The response -/

/-- `mk(n)`: `OK` when n = 0 and `TRANSPORT(n)` otherwise (R10). -/
def mk (n : Nat) : Result := if n = 0 then .ok else .transport n

/-- `count(r)`: 0 for `OK`, k for `TRANSPORT(k)` (46_device_lifecycle.md). -/
def count : Result → Nat
  | .transport n => n
  | _ => 0

/-- `int(r)`, the integer view of a result (R10). -/
def resultInt : Result → Int
  | .ok => 0
  | .transport n => n
  | .noData => -1
  | .identity => -2
  | .rejected _ => -3

/-- `return r` with output data (R8). -/
def respond (r : Result) (o : Output) (s : State) : State := { s with response := some ⟨r, o⟩ }

/-- The operation returns. -/
def answer (r : Result) (o : Output) (s : State) : Host.Outcome State Fault Refusal := .next (respond r o s)

/-- The operation "was refused before any transaction and before any instance register was written" (R305): the block's
whole exception model, since no failure transfers control or saves state (R300, R312). -/
def reject (reason : Reason) (s : State) : Host.Outcome State Fault Refusal := answer (.rejected reason) .none s

/-- `require S.bound else REJECTED(not_bound)` (R31, R305). -/
def whenBound (s : State) (k : Host.Outcome State Fault Refusal) : Host.Outcome State Fault Refusal :=
  if s.bound then k else reject .notBound s

/-- An operation of one transaction: its result is the transport's (R301). -/
def single (c : Call) (s : State) : Host.Outcome State Fault Refusal := answer (mk (failed c s)) .none (transact c s)

/-- A wire command on its port: exactly one transport call, returning the transport's `rc` and bytes (R190). -/
def wireStep (c : WireCmd) (s : State) : Host.Outcome State Fault Refusal :=
  answer (mk (failed c.call s)) (.bytes (reply c.call s).bytes) (transact c.call s)

end Sys2Proof.Machine
end

