-- ==== Sys2Proof/Machine/CommandLayer.lean ====
section
/-! DEFINITION. The meanings of the two host operations of the Command Protocol Layer (R202, R203). -/

namespace Sys2Proof.Machine

/-- `reuseTx()` (R202). -/
def execReuseTx (s : State) : Host.Outcome State Fault Refusal := whenBound s (single WireCmd.reuseTxPl.call s)

/-- `activate()` (R203): "The block keeps no record of whether features are active." -/
def execActivate (s : State) : Host.Outcome State Fault Refusal := whenBound s (single WireCmd.activate.call s)

end Sys2Proof.Machine
end

