-- ==== Sys2Proof/Machine/ConfigMap.lean ====
section
/-! DEFINITION. The mapping between a Logical Configuration and the 11 governed registers, both ways (R260 to R266,
R270). -/

namespace Sys2Proof.Machine

/-- `enc_rf_setup(c) = (c.rate << 3) | (c.power << 1)` (R260). -/
def encRfSetup (c : RadioConfig) : Byte := bitAt 3 (c.rate == .r2M) ||| (c.power <<< 1)

/-- `enc_rf_ch(c) = c.channel` (R261). -/
def encRfCh (c : RadioConfig) : Byte := c.channel

/-- `enc_en_rxaddr`: bit `i` is pipe `i`'s enable (R262). -/
def encEnRxaddr (c : RadioConfig) : Byte :=
  bitAt 0 c.pipe0.enabled ||| bitAt 1 c.pipe1.enabled ||| bitAt 2 c.pipe2.enabled
    ||| bitAt 3 c.pipe3.enabled ||| bitAt 4 c.pipe4.enabled ||| bitAt 5 c.pipe5.enabled

/-- `enc_en_aa`: bit `i` is pipe `i`'s auto-acknowledgement (R263). -/
def encEnAa (c : RadioConfig) : Byte :=
  bitAt 0 c.pipe0.autoAck ||| bitAt 1 c.pipe1.autoAck ||| bitAt 2 c.pipe2.autoAck
    ||| bitAt 3 c.pipe3.autoAck ||| bitAt 4 c.pipe4.autoAck ||| bitAt 5 c.pipe5.autoAck

/-- The 11 governed registers (R266). -/
inductive Governed where
  | rfSetup
  | rfCh
  | enRxaddr
  | enAa
  | txAddr
  | rxAddrP0
  | rxAddrP1
  | rxAddrP2
  | rxAddrP3
  | rxAddrP4
  | rxAddrP5
  deriving DecidableEq, Repr

/-- The order in which every configuration operation visits them (R266). -/
def governedOrder : List Governed :=
  [.rfSetup, .rfCh, .enRxaddr, .enAa, .txAddr, .rxAddrP0, .rxAddrP1, .rxAddrP2, .rxAddrP3, .rxAddrP4, .rxAddrP5]

/-- The register address of a governed register (R266). -/
def Governed.addr : Governed → BitVec 5
  | .rfSetup => 0x06
  | .rfCh => 0x05
  | .enRxaddr => 0x02
  | .enAa => 0x01
  | .txAddr => 0x10
  | .rxAddrP0 => 0x0A
  | .rxAddrP1 => 0x0B
  | .rxAddrP2 => 0x0C
  | .rxAddrP3 => 0x0D
  | .rxAddrP4 => 0x0E
  | .rxAddrP5 => 0x0F

/-- The bytes a configuration gives a governed register: five for the 5-byte registers, one elsewhere (R260 to R265). -/
def Governed.bytes (g : Governed) (c : RadioConfig) : List Byte :=
  match g with
  | .rfSetup => [encRfSetup c]
  | .rfCh => [encRfCh c]
  | .enRxaddr => [encEnRxaddr c]
  | .enAa => [encEnAa c]
  | .txAddr => c.txAddr
  | .rxAddrP0 => c.pipe0.addr
  | .rxAddrP1 => c.pipe1.addr
  | .rxAddrP2 => [c.pipe2.addr.headD 0]
  | .rxAddrP3 => [c.pipe3.addr.headD 0]
  | .rxAddrP4 => [c.pipe4.addr.headD 0]
  | .rxAddrP5 => [c.pipe5.addr.headD 0]

/-- How many bytes a read of a governed register moves (R271). -/
def Governed.width : Governed → Nat
  | .txAddr => 5
  | .rxAddrP0 => 5
  | .rxAddrP1 => 5
  | .rfSetup => 1
  | .rfCh => 1
  | .enRxaddr => 1
  | .enAa => 1
  | .rxAddrP2 => 1
  | .rxAddrP3 => 1
  | .rxAddrP4 => 1
  | .rxAddrP5 => 1

/-- `write(g, c)`, one W_REGISTER transaction (R266). -/
def Governed.writeCall (g : Governed) (c : RadioConfig) : Call := (WireCmd.wRegister g.addr (g.bytes c)).call

/-- `read(g)`, one R_REGISTER transaction (R271). -/
def Governed.readCall (g : Governed) : Call := (WireCmd.rRegister g.addr g.width).call

/-- Whether a contributing field of a governed register differs between two configurations (R268; the governing fields
of R260 to R265). -/
def Governed.differs (g : Governed) (old new : RadioConfig) : Bool :=
  match g with
  | .rfSetup => old.rate != new.rate || old.power != new.power
  | .rfCh => old.channel != new.channel
  | .enRxaddr =>
    old.pipe0.enabled != new.pipe0.enabled || old.pipe1.enabled != new.pipe1.enabled
      || old.pipe2.enabled != new.pipe2.enabled || old.pipe3.enabled != new.pipe3.enabled
      || old.pipe4.enabled != new.pipe4.enabled || old.pipe5.enabled != new.pipe5.enabled
  | .enAa =>
    old.pipe0.autoAck != new.pipe0.autoAck || old.pipe1.autoAck != new.pipe1.autoAck
      || old.pipe2.autoAck != new.pipe2.autoAck || old.pipe3.autoAck != new.pipe3.autoAck
      || old.pipe4.autoAck != new.pipe4.autoAck || old.pipe5.autoAck != new.pipe5.autoAck
  | .txAddr => old.txAddr != new.txAddr
  | .rxAddrP0 => old.pipe0.addr != new.pipe0.addr
  | .rxAddrP1 => old.pipe1.addr != new.pipe1.addr
  | .rxAddrP2 => old.pipe2.addr != new.pipe2.addr
  | .rxAddrP3 => old.pipe3.addr != new.pipe3.addr
  | .rxAddrP4 => old.pipe4.addr != new.pipe4.addr
  | .rxAddrP5 => old.pipe5.addr != new.pipe5.addr

/-- The transactions of `cfgWriteDirectly` (R267). -/
def configCalls (c : RadioConfig) : List Call := governedOrder.map fun g => g.writeCall c

/-- The transactions of `cfgWriteDiff` (R268). -/
def diffCalls (old : Option RadioConfig) (new : RadioConfig) : List Call :=
  match old with
  | none => configCalls new
  | some o => (governedOrder.filter fun g => g.differs o new).map fun g => g.writeCall new

/-- The transactions of `cfgRead` (R271). -/
def readConfigCalls : List Call := governedOrder.map Governed.readCall

/-- `dec`: the inverse mapping, from the values read in the order of R266 (R270). -/
def decodeConfig (vs : List (List Byte)) : RadioConfig :=
  let v (k : Nat) : List Byte := vs.getD k []
  let rf := (v 0).headD 0
  let en := (v 2).headD 0
  let aa := (v 3).headD 0
  { rate := if rf.getLsbD 3 then .r2M else .r1M
    power := (rf >>> 1) &&& 0x03
    channel := (v 1).headD 0 &&& 0x7F
    txAddr := v 4
    pipe0 := ⟨en.getLsbD 0, aa.getLsbD 0, v 5⟩
    pipe1 := ⟨en.getLsbD 1, aa.getLsbD 1, v 6⟩
    pipe2 := ⟨en.getLsbD 2, aa.getLsbD 2, v 7⟩
    pipe3 := ⟨en.getLsbD 3, aa.getLsbD 3, v 8⟩
    pipe4 := ⟨en.getLsbD 4, aa.getLsbD 4, v 9⟩
    pipe5 := ⟨en.getLsbD 5, aa.getLsbD 5, v 10⟩ }

end Sys2Proof.Machine
end

