-- ==== Sys2Proof/Machine/ConfigOps.lean ====
section
/-! DEFINITION. The meanings of the User Configuration Model (45_configuration_model.md). -/

namespace Sys2Proof.Machine

/-- `cfgWriteDirectly(config)`: exactly 11 transactions, "whatever fails" (R267). -/
def execCfgWriteDirectly (config : RadioConfig) (s : State) : Host.Outcome State Fault Refusal :=
  whenBound s <|
    if configOk config then answer (mk (failures (configCalls config) s)) .none (issueAll (configCalls config) s)
    else reject .badOperand s

/-- `cfgWriteDiff(old, new)` (R268). -/
def execCfgWriteDiff (old : Option RadioConfig) (new : RadioConfig) (s : State) : Host.Outcome State Fault Refusal :=
  whenBound s <|
    if old.all configOk && configOk new then
      answer (mk (failures (diffCalls old new) s)) .none (issueAll (diffCalls old new) s)
    else reject .badOperand s

/-- `cfgRead() -> config`: exactly 11 reads (R271). -/
def execCfgRead (s : State) : Host.Outcome State Fault Refusal :=
  whenBound s <|
    answer (mk (failures readConfigCalls s)) (.config (decodeConfig (delivered readConfigCalls s)))
      (issueAll readConfigCalls s)

/-- `cfgWrite(config)`: `cfgWriteDirectly` with the radio off around it, "if currently enabled" (R273). -/
def execCfgWrite (config : RadioConfig) (s : State) : Host.Outcome State Fault Refusal :=
  whenBound s <|
    if configOk config then
      match s.radioEnabled with
      | none => reject .noValue s
      | some false => answer (mk (failures (configCalls config) s)) .none (issueAll (configCalls config) s)
      | some true =>
        let s1 := driveCe false s
        answer (mk (failures (configCalls config) s1)) .none (driveCe true (issueAll (configCalls config) s1))
    else reject .badOperand s

end Sys2Proof.Machine
end

