-- ==== Sys2Proof/Machine/FifoManager.lean ====
section
/-! DEFINITION. The meanings of the FIFO Manager (42_fifo_manager.md). -/

namespace Sys2Proof.Machine

/-- A query on `FIFO_STATUS`: one read, "always OK on a bound instance", answered from whatever byte came (R210, R306). -/
def fifoQuery (q : Byte → Bool) (s : State) : Host.Outcome State Fault Refusal :=
  whenBound s <|
    answer .ok (.flag (q (firstByte (readByteCall regFifoStatus) s))) (transact (readByteCall regFifoStatus) s)

/-- `txHasSpace() -> Bool` (R210). -/
def execTxHasSpace (s : State) : Host.Outcome State Fault Refusal := fifoQuery fifoTxHasSpace s

/-- `txIsEmpty() -> Bool` (R211). -/
def execTxIsEmpty (s : State) : Host.Outcome State Fault Refusal := fifoQuery fifoTxIsEmpty s

/-- `txWrite(data, len)`: the role chooses the opcode, the sticky pipe its field (R212). -/
def execTxWrite (data : List Byte) (len : Nat) (s : State) : Host.Outcome State Fault Refusal :=
  whenBound s <|
    if payloadOk data len then
      match s.role, s.ackPipe with
      | none, _ => reject .noValue s
      | some .prx, none => reject .noValue s
      | some .prx, some p => single (WireCmd.wAckPayload (BitVec.ofNat 3 p.val) data).call s
      | some .ptx, _ => single (WireCmd.wTxPayload data).call s
    else reject .badOperand s

/-- `txWriteNoAck(data, len)`, with the parameter `NOACK_IN_PRX` (R213). -/
def execTxWriteNoAck (data : List Byte) (len : Nat) (s : State) : Host.Outcome State Fault Refusal :=
  whenBound s <|
    if payloadOk data len then
      match s.role, s.noackInPrx with
      | none, _ => reject .noValue s
      | some .prx, .reject => reject .badRole s
      | some .prx, .legacy => single (WireCmd.wTxPayloadNoack data).call s
      | some .ptx, _ => single (WireCmd.wTxPayloadNoack data).call s
    else reject .badOperand s

/-- `setAckPipe(pipe)` (R214). -/
def execSetAckPipe (pipe : Byte) (s : State) : Host.Outcome State Fault Refusal :=
  whenBound s <|
    match pipeOf pipe with
    | some p => answer .ok .none { s with ackPipe := some p }
    | none => reject .badOperand s

/-- `getAckPipe() -> pipe` (R215). -/
def execGetAckPipe (s : State) : Host.Outcome State Fault Refusal :=
  whenBound s <|
    match s.ackPipe with
    | some p => answer .ok (.pipe p) s
    | none => reject .noValue s

/-- `rxHasData() -> Bool` (R216). -/
def execRxHasData (s : State) : Host.Outcome State Fault Refusal := fifoQuery fifoRxHasData s

/-- `rxIsFull() -> Bool` (R217). -/
def execRxIsFull (s : State) : Host.Outcome State Fault Refusal := fifoQuery fifoRxIsFull s

/-- The transactions of `rxRead` once the width is known (R218). -/
def rxReadCalls (width : Nat) : List Call :=
  [WireCmd.rRxPlWid.call, readByteCall regStatus, (WireCmd.rRxPayload width).call]

/-- `rxRead() -> (data, len, pipe)` (R218): the width decides, "also when `rc1 = fail`". -/
def execRxRead (s : State) : Host.Outcome State Fault Refusal :=
  whenBound s <|
    let width := (firstByte WireCmd.rRxPlWid.call s).toNat
    let s1 := transact WireCmd.rRxPlWid.call s
    if width = 0 then answer .noData .none s1
    else if width > 32 then .fault .payloadWidthAbove32
    else
      let s2 := transact (readByteCall regStatus) s1
      let pipe := pipeField (firstByte (readByteCall regStatus) s1)
      let data := (reply (WireCmd.rRxPayload width).call s2).bytes
      answer (mk (failures (rxReadCalls width) s)) (.received data width pipe)
        (issueAll (rxReadCalls width) s)

/-- `txFlush()` (R219). -/
def execTxFlush (s : State) : Host.Outcome State Fault Refusal := whenBound s (single WireCmd.flushTx.call s)

/-- `rxFlush()` (R220). -/
def execRxFlush (s : State) : Host.Outcome State Fault Refusal := whenBound s (single WireCmd.flushRx.call s)

end Sys2Proof.Machine
end

