-- ==== Sys2Proof/Machine/RoleMachine.lean ====
section
/-! DEFINITION. The meanings of the Role State Machine (44_role_state_machine.md). -/

namespace Sys2Proof.Machine

/-- The update of the on-chip role bit, `CONFIG.PRIM_RX` (R251, R252). -/
def writeRoleBit (r : Role) (s : State) : State := modifyBits regConfig maskPrimRx (roleCode r) s

/-- Its failures. -/
def roleBitFailures (r : Role) (s : State) : Nat := modifyFailures regConfig maskPrimRx (roleCode r) s

/-- `switchRole(newRole)`: nothing for the same role; else the instance register, `softClear`, the role bit (R251). -/
def execSwitchRole (role : Byte) (s : State) : Host.Outcome State Fault Refusal :=
  whenBound s <|
    match roleOf role, s.role with
    | none, _ => reject .badOperand s
    | some _, none => reject .noValue s
    | some r, some current =>
      if r = current then answer .ok .none s
      else
        let s1 : State := { s with role := some r }
        let s2 := issueAll softClearCalls s1
        answer (mk (failures softClearCalls s1 + roleBitFailures r s2)) .none (writeRoleBit r s2)

/-- `switchRoleDirectly(newRole)`: the register update alone, "also when `newRole = S.role`" (R252). -/
def execSwitchRoleDirectly (role : Byte) (s : State) : Host.Outcome State Fault Refusal :=
  whenBound s <|
    match roleOf role, s.role with
    | none, _ => reject .badOperand s
    | some _, none => reject .noValue s
    | some r, some _ =>
      let s1 : State := { s with role := some r }
      answer (mk (roleBitFailures r s1)) .none (writeRoleBit r s1)

/-- `getRole() -> role`: "the instance copy, not the chip bit" (R253). -/
def execGetRole (s : State) : Host.Outcome State Fault Refusal :=
  whenBound s <|
    match s.role with
    | some r => answer .ok (.role r) s
    | none => reject .noValue s

end Sys2Proof.Machine
end

