-- ==== Sys2Proof/Machine/Lifecycle.lean ====
section
/-! DEFINITION. The meanings of the Device Lifecycle, power and radio control (46_device_lifecycle.md). -/

namespace Sys2Proof.Machine

/-- What `T.init()` returns on a transport: a free value on the black box (R92), `ok` on RefChip unless a failure is
injected (R106, R108), `ok` on an absent device (R109). -/
def initRc (t : Transport) (s : State) : Rc :=
  match t with
  | .blackBox =>
    match s.inputs with
    | [] => Config.oracleInitRc s.history
    | i :: _ => i.rc
  | .refChip => (s.inputs.headD EnvInput.quiet).rc
  | .absent0 => .ok
  | .absentF => .ok

/-- The chip after `T.init()`: "no state change" (R106), but for the radio events pending before the call (R107). -/
def initChip (t : Transport) (s : State) : RefChip :=
  match t with
  | .refChip => s.chip.radios (s.inputs.headD EnvInput.quiet).events
  | .blackBox => s.chip
  | .absent0 => s.chip
  | .absentF => s.chip

/-- The pin after `T.init()`: where the pending input moves it (R60 b); with none, free on the black box, since the level after
`T.init()` is "unspecified" (R38), and as it was on RefChip and its variants, whose `T.init()` is "no state change"
(R106). -/
def initPin (t : Transport) (s : State) : Bool :=
  match s.inputs with
  | i :: _ => i.pin.getD s.ce
  | [] =>
    match t with
    | .blackBox => Config.oracleInitPin s.history
    | .refChip => s.ce
    | .absent0 => s.ce
    | .absentF => s.ce

/-- `T.init()` on a transport: one `tinit` event. -/
def transportInit (t : Transport) (s : State) : State :=
  { s with
    ce := initPin t s
    chip := initChip t s
    inputs := s.inputs.tail
    history := s.history ++ [.tinit (initRc t s)] }

/-- `init(transport)` (R280): it "performs **no** chip register I/O"; a failed one leaves the instance unbound. -/
def execInit (transport : Transport) (s : State) : Host.Outcome State Fault Refusal :=
  if s.bound then reject .alreadyBound s
  else
    match initRc transport s with
    | .fail => answer (.transport 1) .none (transportInit transport s)
    | .ok =>
      answer .ok .none
        { transportInit transport s with bound := true, ackPipe := some 0, transport := transport }

/-- The backup of the pipe-0 address, the first transaction of `checkDevice` (R281). -/
def backupCall : Call := (WireCmd.rRegister regRxAddrP0 5).call

/-- "each byte incremented by its index", modulo 256 (R281). -/
def perturb (bk : List Byte) : List Byte := bk.zipIdx.map fun p => p.1 + BitVec.ofNat 8 p.2

/-- A write of the pipe-0 address. -/
def writeP0Call (bs : List Byte) : Call := (WireCmd.wRegister regRxAddrP0 bs).call

/-- The bytes the backup delivers. -/
def backup (s : State) : List Byte := (reply backupCall s).bytes

/-- The four transactions of `checkDevice`: back up, write the perturbed value, read it back, restore (R281). -/
def checkCalls (s : State) : List Call :=
  [backupCall, writeP0Call (perturb (backup s)), backupCall, writeP0Call (backup s)]

/-- The bytes the read-back delivers. -/
def readBack (s : State) : List Byte :=
  (reply backupCall (issueAll [backupCall, writeP0Call (perturb (backup s))] s)).bytes

/-- The state after `checkDevice` (R281). -/
def checkState (s : State) : State := issueAll (checkCalls s) s

/-- The result of `checkDevice`: `IDENTITY` on any difference, before `TRANSPORT(n)` (R281, R304). -/
def checkResult (s : State) : Result :=
  if readBack s ≠ perturb (backup s) then .identity else mk (failures (checkCalls s) s)

/-- `checkDevice()` (R281). -/
def execCheckDevice (s : State) : Host.Outcome State Fault Refusal :=
  whenBound s (answer (checkResult s) .none (checkState s))

/-- `CONFIG.PWR_UP <- value` (R284, R285). -/
def writePower (value : Byte) (s : State) : State := modifyBits regConfig maskPwrUp value s

/-- Its failures. -/
def powerFailures (value : Byte) (s : State) : Nat := modifyFailures regConfig maskPwrUp value s

/-- The single-byte writes of a register table, in list order (R282, step 5). -/
def tableCalls (t : List (Byte × Byte)) : List Call := t.map fun p => writeByteCall (regAddr p.1) p.2

/-- Steps 4 to 6 of `setup`: `softClear`, the register table, the configuration (R282). -/
def setupWrites (cfg : RadioConfig) (tbl : List (Byte × Byte)) : List Call :=
  softClearCalls ++ tableCalls tbl ++ configCalls cfg

/-- The states between the steps of `setup` after its identity check (R282): after step 3, after step 6, after the role
bit of step 7, and at the end. -/
def setupOff (s : State) : State := driveCe false (writePower 0 s)
def setupWritten (cfg : RadioConfig) (tbl : List (Byte × Byte)) (s : State) : State :=
  issueAll (setupWrites cfg tbl) (setupOff s)
def setupNamed (r : Role) (cfg : RadioConfig) (tbl : List (Byte × Byte)) (s : State) : State :=
  { setupWritten cfg tbl s with role := some r }
def setupRoled (r : Role) (cfg : RadioConfig) (tbl : List (Byte × Byte)) (s : State) : State :=
  writeRoleBit r (setupNamed r cfg tbl s)
def setupEnd (r : Role) (cfg : RadioConfig) (tbl : List (Byte × Byte)) (s : State) : State :=
  driveCe true (writePower 1 (setupRoled r cfg tbl s))

/-- The failures of steps 2 to 9, summed: "a failed transaction is counted and the next step runs" (R282). -/
def setupFailures (r : Role) (cfg : RadioConfig) (tbl : List (Byte × Byte)) (s : State) : Nat :=
  powerFailures 0 s + failures (setupWrites cfg tbl) (setupOff s)
    + roleBitFailures r (setupNamed r cfg tbl s)
    + powerFailures 1 (setupRoled r cfg tbl s)

/-- `setup(role[, config, registerList])` (R282); operands are checked in their order (R307). -/
def execSetup (role : Byte) (config : Option RadioConfig) (registerList : Option (List (Byte × Byte))) (s : State) :
    Host.Outcome State Fault Refusal :=
  whenBound s <|
    match roleOf role with
    | none => reject .badOperand s
    | some r =>
      if !config.all configOk then reject .badOperand s
      else if !registerList.all tableOk then reject .badTable s
      else
        let cfg := config.getD defaultUserConfig
        let tbl := registerList.getD defaultRegTable
        if checkResult s = .ok then
          answer (mk (setupFailures r cfg tbl (checkState s))) .none (setupEnd r cfg tbl (checkState s))
        else answer (checkResult s) .none (checkState s)

/-- `T.deinit()` and the release of the binding: `S.role` and `S.ack_pipe` hold no value afterwards (R283). -/
def release (s : State) : State :=
  { s with bound := false, role := none, ackPipe := none, history := s.history ++ [.tdeinit] }

/-- `deinit()`: a no-op when unbound; else power-down, radio off, release, "whatever `r` is" (R283). -/
def execDeinit (s : State) : Host.Outcome State Fault Refusal :=
  if s.bound then answer (mk (powerFailures 0 s)) .none (release (driveCe false (writePower 0 s)))
  else answer .ok .none s

/-- `powerUp()` (R284). -/
def execPowerUp (s : State) : Host.Outcome State Fault Refusal :=
  whenBound s (answer (mk (powerFailures 1 s)) .none (writePower 1 s))

/-- `powerDown()` (R285). -/
def execPowerDown (s : State) : Host.Outcome State Fault Refusal :=
  whenBound s (answer (mk (powerFailures 0 s)) .none (writePower 0 s))

/-- `radioOn()` (R286). -/
def execRadioOn (s : State) : Host.Outcome State Fault Refusal := whenBound s (answer .ok .none (driveCe true s))

/-- `radioOff()` (R287). -/
def execRadioOff (s : State) : Host.Outcome State Fault Refusal := whenBound s (answer .ok .none (driveCe false s))

end Sys2Proof.Machine
end

