-- ==== Sys2Proof/Machine/RegisterAccess.lean ====
section
/-! DEFINITION. The meanings of the Register Access Layer (40_register_access.md). -/

namespace Sys2Proof.Machine

/-- `getBits(byte, mask) -> value` (R171): pure, independent of `S.bound`. -/
def execGetBits (byte mask : Byte) (s : State) : Host.Outcome State Fault Refusal :=
  if contiguous mask then answer .ok (.byte (getBits byte mask)) s else reject .badMask s

/-- `setBits(byte, mask, value) -> byte` (R172): pure, independent of `S.bound`. -/
def execSetBits (byte mask value : Byte) (s : State) : Host.Outcome State Fault Refusal :=
  if contiguous mask then answer .ok (.byte (setBits byte mask value)) s else reject .badMask s

/-- `readRegister(addr) -> byte` (R174). -/
def execReadRegister (addr : Byte) (s : State) : Host.Outcome State Fault Refusal :=
  whenBound s <|
    if addrOk addr then
      let c := readByteCall (regAddr addr)
      answer (mk (failed c s)) (.byte (firstByte c s)) (transact c s)
    else reject .badOperand s

/-- `writeRegister(addr, byte)` (R175). -/
def execWriteRegister (addr byte : Byte) (s : State) : Host.Outcome State Fault Refusal :=
  whenBound s <|
    if addrOk addr then single (writeByteCall (regAddr addr) byte) s else reject .badOperand s

/-- `readRegisters(addr, n) -> bytes[n]` (R176). -/
def execReadRegisters (addr : Byte) (n : Nat) (s : State) : Host.Outcome State Fault Refusal :=
  whenBound s <|
    if addrOk addr && countOk n then
      let c := (WireCmd.rRegister (regAddr addr) n).call
      answer (mk (failed c s)) (.bytes (reply c s).bytes) (transact c s)
    else reject .badOperand s

/-- `writeRegisters(addr, bytes)` (R177). -/
def execWriteRegisters (addr : Byte) (bytes : List Byte) (s : State) : Host.Outcome State Fault Refusal :=
  whenBound s <|
    if addrOk addr && countOk bytes.length then single (WireCmd.wRegister (regAddr addr) bytes).call s
    else reject .badOperand s

/-- `modifyRegisterBits(reg, mask, value)` (R178); the register is checked before the mask (R307). -/
def execModifyRegisterBits (reg mask value : Byte) (s : State) : Host.Outcome State Fault Refusal :=
  whenBound s <|
    if !addrOk reg then reject .badOperand s
    else if !contiguous mask then reject .badMask s
    else
      answer (mk (modifyFailures (regAddr reg) mask value s)) .none (modifyBits (regAddr reg) mask value s)

end Sys2Proof.Machine
end

