-- ==== Sys2Proof/Machine/StatusOps.lean ====
section
/-! DEFINITION. The meanings of the status operations and of the Status/Event Decoder (43_status_decoder.md). -/

namespace Sys2Proof.Machine

/-- `statusRead() -> byte`: "always OK on a bound instance" (R230). -/
def execStatusRead (s : State) : Host.Outcome State Fault Refusal :=
  whenBound s <| answer .ok (.byte (firstByte (readByteCall regStatus) s)) (transact (readByteCall regStatus) s)

/-- `statusClear(sel)`: one write of `sel & 0x60`, no read (R231). -/
def execStatusClear (sel : Byte) (s : State) : Host.Outcome State Fault Refusal :=
  whenBound s (single (writeByteCall regStatus (sel &&& 0x60)) s)

/-- `statusClearAll()`: `RX_DR` and `TX_DS`, "never `MAX_RT`" (R232). -/
def execStatusClearAll (s : State) : Host.Outcome State Fault Refusal :=
  whenBound s (single (writeByteCall regStatus 0x60) s)

/-- `clearTxFail()`: `MAX_RT` only (R233). -/
def execClearTxFail (s : State) : Host.Outcome State Fault Refusal :=
  whenBound s (single (writeByteCall regStatus 0x10) s)

/-- `decode(rawStatus) -> EventSet` (R236): pure, "reads no instance register". -/
def execDecode (rawStatus : Byte) (s : State) : Host.Outcome State Fault Refusal :=
  answer .ok (.events (decodeStatus rawStatus)) s

end Sys2Proof.Machine
end

