-- ==== Sys2Proof/Machine/WireCommands.lean ====
section
/-! DEFINITION. The meanings of the 11 wire commands (41_command_protocol.md): each is exactly one transport call, and the
chip behind the transport reacts to it (R190). The wire port makes no check of the instance: "A `cmd` has no operand checks
of its own". -/

namespace Sys2Proof.Machine

/-- R_REGISTER (R191). -/
def execRRegister (addr : BitVec 5) (n : Nat) (s : State) : Host.Outcome State Fault Refusal :=
  wireStep (.rRegister addr n) s

/-- W_REGISTER (R192). -/
def execWRegister (addr : BitVec 5) (data : List Byte) (s : State) : Host.Outcome State Fault Refusal :=
  wireStep (.wRegister addr data) s

/-- R_RX_PAYLOAD (R193). -/
def execRRxPayload (n : Nat) (s : State) : Host.Outcome State Fault Refusal :=
  wireStep (.rRxPayload n) s

/-- W_TX_PAYLOAD (R194). -/
def execWTxPayload (data : List Byte) (s : State) : Host.Outcome State Fault Refusal :=
  wireStep (.wTxPayload data) s

/-- FLUSH_TX (R195). -/
def execFlushTx (s : State) : Host.Outcome State Fault Refusal :=
  wireStep .flushTx s

/-- FLUSH_RX (R196). -/
def execFlushRx (s : State) : Host.Outcome State Fault Refusal :=
  wireStep .flushRx s

/-- REUSE_TX_PL (R197). -/
def execReuseTxPl (s : State) : Host.Outcome State Fault Refusal :=
  wireStep .reuseTxPl s

/-- ACTIVATE (R198). -/
def execWireActivate (s : State) : Host.Outcome State Fault Refusal :=
  wireStep .activate s

/-- R_RX_PL_WID (R199). -/
def execRRxPlWid (s : State) : Host.Outcome State Fault Refusal :=
  wireStep .rRxPlWid s

/-- W_ACK_PAYLOAD (R200). -/
def execWAckPayload (pipe : BitVec 3) (data : List Byte) (s : State) : Host.Outcome State Fault Refusal :=
  wireStep (.wAckPayload pipe data) s

/-- W_TX_PAYLOAD_NOACK (R201). -/
def execWTxPayloadNoack (data : List Byte) (s : State) : Host.Outcome State Fault Refusal :=
  wireStep (.wTxPayloadNoack data) s

end Sys2Proof.Machine
end

