-- ==== Sys2Proof/Machine/Dispatch.lean ====
section
/-! DEFINITION. One arm per instruction: each calls its meaning. -/

namespace Sys2Proof.Machine

def exec (i : Instr) (s : State) : Host.Outcome State Fault Refusal :=
  match i with
  -- the wire space (R134)
  | .rRegister addr n => Sys2Proof.Machine.execRRegister addr n s
  | .wRegister addr data => Sys2Proof.Machine.execWRegister addr data s
  | .rRxPayload n => Sys2Proof.Machine.execRRxPayload n s
  | .wTxPayload data => Sys2Proof.Machine.execWTxPayload data s
  | .flushTx => Sys2Proof.Machine.execFlushTx s
  | .flushRx => Sys2Proof.Machine.execFlushRx s
  | .reuseTxPl => Sys2Proof.Machine.execReuseTxPl s
  | .wireActivate => Sys2Proof.Machine.execWireActivate s
  | .rRxPlWid => Sys2Proof.Machine.execRRxPlWid s
  | .wAckPayload pipe data => Sys2Proof.Machine.execWAckPayload pipe data s
  | .wTxPayloadNoack data => Sys2Proof.Machine.execWTxPayloadNoack data s
  -- the host space (R138)
  | .getBits byte mask => Sys2Proof.Machine.execGetBits byte mask s
  | .setBits byte mask value => Sys2Proof.Machine.execSetBits byte mask value s
  | .readRegister addr => Sys2Proof.Machine.execReadRegister addr s
  | .writeRegister addr byte => Sys2Proof.Machine.execWriteRegister addr byte s
  | .readRegisters addr n => Sys2Proof.Machine.execReadRegisters addr n s
  | .writeRegisters addr bytes => Sys2Proof.Machine.execWriteRegisters addr bytes s
  | .modifyRegisterBits reg mask value => Sys2Proof.Machine.execModifyRegisterBits reg mask value s
  | .reuseTx => Sys2Proof.Machine.execReuseTx s
  | .activate => Sys2Proof.Machine.execActivate s
  | .txHasSpace => Sys2Proof.Machine.execTxHasSpace s
  | .txIsEmpty => Sys2Proof.Machine.execTxIsEmpty s
  | .txWrite data len => Sys2Proof.Machine.execTxWrite data len s
  | .txWriteNoAck data len => Sys2Proof.Machine.execTxWriteNoAck data len s
  | .setAckPipe pipe => Sys2Proof.Machine.execSetAckPipe pipe s
  | .getAckPipe => Sys2Proof.Machine.execGetAckPipe s
  | .rxHasData => Sys2Proof.Machine.execRxHasData s
  | .rxIsFull => Sys2Proof.Machine.execRxIsFull s
  | .rxRead => Sys2Proof.Machine.execRxRead s
  | .txFlush => Sys2Proof.Machine.execTxFlush s
  | .rxFlush => Sys2Proof.Machine.execRxFlush s
  | .statusRead => Sys2Proof.Machine.execStatusRead s
  | .statusClear sel => Sys2Proof.Machine.execStatusClear sel s
  | .statusClearAll => Sys2Proof.Machine.execStatusClearAll s
  | .clearTxFail => Sys2Proof.Machine.execClearTxFail s
  | .decode rawStatus => Sys2Proof.Machine.execDecode rawStatus s
  | .switchRole role => Sys2Proof.Machine.execSwitchRole role s
  | .switchRoleDirectly role => Sys2Proof.Machine.execSwitchRoleDirectly role s
  | .getRole => Sys2Proof.Machine.execGetRole s
  | .cfgWriteDirectly config => Sys2Proof.Machine.execCfgWriteDirectly config s
  | .cfgWriteDiff old new => Sys2Proof.Machine.execCfgWriteDiff old new s
  | .cfgRead => Sys2Proof.Machine.execCfgRead s
  | .cfgWrite config => Sys2Proof.Machine.execCfgWrite config s
  | .init transport => Sys2Proof.Machine.execInit transport s
  | .checkDevice => Sys2Proof.Machine.execCheckDevice s
  | .setup role config registerList => Sys2Proof.Machine.execSetup role config registerList s
  | .deinit => Sys2Proof.Machine.execDeinit s
  | .powerUp => Sys2Proof.Machine.execPowerUp s
  | .powerDown => Sys2Proof.Machine.execPowerDown s
  | .radioOn => Sys2Proof.Machine.execRadioOn s
  | .radioOff => Sys2Proof.Machine.execRadioOff s

end Sys2Proof.Machine
end

