-- ==== Sys2Proof/Machine/Port.lean ====
section
/-! DEFINITION. What happens on the ports to an item that is no instruction: a request that does not decode, and between
operations a radio event or a move of the chip-enable pin (R60, R105, R107, R138). -/

namespace Sys2Proof.Machine

/-- A request that is no instruction. On the host port "a select code not in the table is refused with
`REJECTED(bad_operand)`" (R138). On the wire port the bytes go to the chip all the same, and "a model of the chip side must
be total on bytes" (R136): RefChip marks them as a fault of its own (R105). -/
def undecoded (r : Request) (s : State) : Host.Outcome State Fault Refusal :=
  match r with
  | .host _ _ => reject .badOperand s
  | .wire c => answer (mk (failed c s)) (.bytes (reply c s).bytes) (transact c s)

/-- A radio event between operations: the chip changes, the block does not see it (R11, R107). -/
def radioEvent (e : ChipEvent) (s : State) : State := { s with chip := s.chip.radio e }

/-- The transport or anything else moves the chip-enable pin; the block "trusts its mirror" (R60 b, U13). -/
def pinMove (level : Bool) (s : State) : State := { s with ce := level }

/-- The item taken off the ports. -/
def takeItem (rest : List PortItem) (s : State) : State := { s with pending := rest }

/-- A request put in front of the pending ones. -/
def putItem (p : PortItem) (s : State) : State := { s with pending := p :: s.pending }

end Sys2Proof.Machine
end

