-- ==== Sys2Proof/Machine/Step.lean ====
section
/-! DEFINITION. One step: the next item of the ports, taken off and run to its end. "Operations never nest on the host port
and never interleave" (R36); with nothing pending "the block does nothing until the host issues an operation" (R330). -/

namespace Sys2Proof.Machine

/-- One step. -/
def step (s : State) : Host.Outcome State Fault Refusal :=
  match s.pending with
  | [] => .next s
  | .radio e :: rest => .next (radioEvent e (takeItem rest s))
  | .pin level :: rest => .next (pinMove level (takeItem rest s))
  | .request r :: rest =>
    match decode r with
    | .ok i => exec i (takeItem rest s)
    | .error _ => undecoded r (takeItem rest s)

/-- `s` with the instruction of an opcode-table word as its next request. The block fetches no instructions (R36): a program
is the list of requests that the host puts on the ports, and this puts one in front (assumption 9). -/
def State.withFetchWord (s : State) (nbits w : Nat) : State := putItem (.request (tableRequest nbits w)) s

end Sys2Proof.Machine
end

