-- ==== Sys2Proof/Safety.lean ====
section
/-! DEFINITION. What holds of every state of a run: the canonical form of the register space, the bounds of the FIFOs, and
how the instance registers hang together over the device lifecycle (R59, R64, R315, R316). -/

namespace Sys2Proof.Machine

/-- A transmit-FIFO entry that a slot can hold: 1 to 32 bytes, pipe 0 to 5 (R59, R97). -/
def TxEntry.Fits (e : TxEntry) : Prop :=
  1 ≤ e.data.length ∧ e.data.length ≤ 32 ∧ ∀ p, e.kind = .ack p → p.toNat ≤ 5

/-- A receive-FIFO entry that a slot can hold: 1 to 32 bytes (R59, R97). -/
def RxEntry.Fits (e : RxEntry) : Prop := 1 ≤ e.data.length ∧ e.data.length ≤ 32

/-- A chip whose register space is in the canonical form and whose queues hold "at most 3 entries", each one that a slot
can hold (R97). -/
structure RefChip.Sound (c : RefChip) : Prop where
  regs_wf : Memory.wf c.regs = true
  txq_depth : c.txq.length ≤ 3
  rxq_depth : c.rxq.length ≤ 3
  txq_fits : ∀ e ∈ c.txq, e.Fits
  rxq_fits : ∀ e ∈ c.rxq, e.Fits

/-- The last level the block drove on the chip-enable pin, from the event history; none before the first (R34, R63). -/
def lastDriven (h : List Event) : Option Bool :=
  h.foldl (fun level e =>
    match e with
    | .ce b => some b
    | .send _ _ => level
    | .send2 _ _ _ => level
    | .xfer _ _ _ _ => level
    | .tinit _ => level
    | .tdeinit => level) none

/-- The instance registers as the lifecycle leaves them (R64, R315): unbound, no role and no acknowledgement pipe; bound, an
acknowledgement pipe; a role only together with a radio flag; the radio flag "the last level the block drove on the chip-enable
pin" (R34), which need not be the pin's (R60 b). -/
structure State.Lifecycle (s : State) : Prop where
  unbound : s.bound = false → s.role = none ∧ s.ackPipe = none
  bound : s.bound = true → s.ackPipe ≠ none
  ready : s.role ≠ none → s.radioEnabled ≠ none
  mirror : s.radioEnabled = lastDriven s.history

/-- The result class `TRANSPORT(n)` has n >= 1 (R10). -/
def Response.Counted (r : Response) : Prop := ∀ n, r.result = .transport n → 1 ≤ n

/-- The invariant of the machine. -/
structure State.Inv (s : State) : Prop where
  chip : s.chip.Sound
  lifecycle : s.Lifecycle
  counted : ∀ r, s.response = some r → r.Counted

end Sys2Proof.Machine
end

