-- ==== Sys2Proof/Certificates/Slice0/Obligations.lean ====
section
/-! DEFINITION. The statements for the provers. Frames are written out in bytes, as the rules write them; `reply`,
`transact`, `issueAll`, `failures`, `delivered`, `modifyBits` and `driveCe` are the model's shared operations, and
`TransactionLeavesOneEvent`, `RunsGoOnAndModifyReadsThenWrites` and `PowerAndRadioControl` say what those do. -/

namespace Sys2Proof.Claims

open Sys2Proof Sys2Proof.Machine

/-! ### Words the statements share -/

/-- The operation is refused for a reason, and nothing but the response changes (R305). -/
def Refuses (i : Instr) (s : State) (r : Reason) : Prop := exec i s = .next (respond (.rejected r) .none s)

/-- The operation is refused while the instance is unbound (R31). -/
def NeedsBinding (i : Instr) : Prop := ∀ s : State, s.bound = false → Refuses i s .notBound

/-- The return code, and the first byte, of a call in a state. -/
def rcOf (c : Call) (s : State) : Rc := (reply c s).rc
def byteOf (c : Call) (s : State) : Byte := (reply c s).bytes.headD 0

/-- On a bound instance the operation is one call, and its result is the call's. -/
def IsOneCall (i : Instr) (c : Call) (s : State) : Prop :=
  exec i s = .next (respond (mk (cnt (rcOf c s))) .none (transact c s))

/-- The transport is RefChip, as R97 to R109 define it, with nothing pending from the environment: no radio event, no injected
failure (R96). -/
def QuietRefChip (s : State) : Prop :=
  s.transport = .refChip ∧ s.inputs = [] ∧ s.chip.Sound ∧ s.chip.variant = .refChip

/-- What an nRF24L01 gives access to only after ACTIVATE: two registers and three commands (R198). -/
def needsActivate : WireCmd → Bool
  | .rRegister a _ => a == 0x1C || a == 0x1D
  | .wRegister a _ => a == 0x1C || a == 0x1D
  | .rRxPlWid => true
  | .wAckPayload _ _ => true
  | .wTxPayloadNoack _ => true
  | _ => false

/-- Whether a chip gives access to a command (R198). -/
abbrev Accessible (c : RefChip) (d : WireCmd) : Prop :=
  c.variant = .nrf24l01 → needsActivate d = true → c.activated = true

/-- A well-formed configuration (R62, R305), and a well-formed register table (R65). -/
abbrev ConfigWellFormed (c : RadioConfig) : Prop :=
  c.channel.toNat ≤ 125 ∧ c.power.toNat ≤ 3 ∧ c.txAddr.length = 5 ∧ c.pipe0.addr.length = 5 ∧ c.pipe1.addr.length = 5 ∧
    c.pipe2.addr.length = 1 ∧ c.pipe3.addr.length = 1 ∧ c.pipe4.addr.length = 1 ∧ c.pipe5.addr.length = 1
abbrev TableWellFormed (t : List (Byte × Byte)) : Prop :=
  ∀ p ∈ t, p.1.toNat ≤ 0x07 ∨ (0x11 ≤ p.1.toNat ∧ p.1.toNat ≤ 0x16) ∨ p.1.toNat = 0x1C ∨ p.1.toNat = 0x1D

/-- RefChip's registers by address (R97): stored single bytes, stored five bytes, derived or constant (R98), unmapped. -/
def singleAddrs : List (BitVec 5) :=
  [0x00, 0x01, 0x02, 0x03, 0x04, 0x05, 0x06, 0x0C, 0x0D, 0x0E, 0x0F, 0x11, 0x12, 0x13, 0x14, 0x15, 0x16, 0x1C, 0x1D]
def fiveAddrs : List (BitVec 5) := [0x0A, 0x0B, 0x10]
def derivedAddrs : List (BitVec 5) := [0x07, 0x08, 0x09, 0x17]
def unmappedAddrs : List (BitVec 5) := [0x18, 0x19, 0x1A, 0x1B, 0x1E, 0x1F]

/-- The lifecycle states of R315. -/
inductive Phase where
  | unbound
  | bound
  | ready
  deriving DecidableEq, Repr
def phase (s : State) : Phase := if s.bound then (if s.role = none then .bound else .ready) else .unbound

/-- The 40 select codes of R138. -/
def selectCodes : List Nat :=
  [0x00, 0x01, 0x02, 0x03, 0x04, 0x05, 0x06, 0x10, 0x11, 0x20, 0x21, 0x22, 0x23, 0x24, 0x25, 0x26, 0x27, 0x28, 0x29, 0x2A]
  ++ [0x30, 0x31, 0x32, 0x33, 0x34, 0x40, 0x41, 0x42, 0x50, 0x51, 0x52, 0x53, 0x60, 0x61, 0x62, 0x63, 0x64, 0x65, 0x66, 0x67]

/-- The pin events and the transport's own `init` and `deinit` (R63): no bus transaction. -/
def isPinEvent : Event → Bool
  | .ce _ => true
  | .tinit _ => true
  | .tdeinit => true
  | .send _ _ => false
  | .send2 _ _ _ => false
  | .xfer _ _ _ _ => false

/-- A W_REGISTER frame to a register address. -/
def WritesRegister (e : Event) (a : Nat) : Prop := ∃ d rc, e = .send2 [BitVec.ofNat 8 (0x20 + a)] d rc

/-- What the outside sees of an outcome: the history and the response of a next state. -/
def seen : Host.Outcome State Fault Refusal → Option (List Event × Option Response)
  | .next t => some (t.history, t.response)
  | .fault _ => none
  | .refused _ => none

/-- The four pure or lifecycle operations and `decode`, which R31 exempts from the binding check. -/
def exemptFromBinding : Instr → Bool
  | .getBits _ _ => true
  | .setBits _ _ _ => true
  | .decode _ => true
  | .init _ => true
  | .deinit => true
  | _ => false

/-- The largest failure count of an operation (R301). -/
def maxFailures : Instr → Nat
  | .getBits _ _ => 0
  | .setBits _ _ _ => 0
  | .decode _ => 0
  | .setAckPipe _ => 0
  | .getAckPipe => 0
  | .getRole => 0
  | .radioOn => 0
  | .radioOff => 0
  | .txHasSpace => 0
  | .txIsEmpty => 0
  | .rxHasData => 0
  | .rxIsFull => 0
  | .statusRead => 0
  | .rxRead => 3
  | .switchRole _ => 4
  | .checkDevice => 4
  | .cfgWriteDirectly _ => 11
  | .cfgWriteDiff _ _ => 11
  | .cfgRead => 11
  | .cfgWrite _ => 11
  | .setup _ _ table => 17 + (table.getD defaultRegTable).length
  | _ => 1

/-- The transactions of an operation when all succeed, the most it ever issues (R350). -/
def maxTransactions : Instr → Nat
  | .getBits _ _ => 0
  | .setBits _ _ _ => 0
  | .decode _ => 0
  | .setAckPipe _ => 0
  | .getAckPipe => 0
  | .getRole => 0
  | .init _ => 0
  | .radioOn => 0
  | .radioOff => 0
  | .modifyRegisterBits _ _ _ => 2
  | .powerUp => 2
  | .powerDown => 2
  | .switchRoleDirectly _ => 2
  | .deinit => 2
  | .rxRead => 3
  | .checkDevice => 4
  | .switchRole _ => 5
  | .cfgWriteDirectly _ => 11
  | .cfgWriteDiff _ _ => 11
  | .cfgRead => 11
  | .cfgWrite _ => 11
  | .setup _ _ table => 24 + (table.getD defaultRegTable).length
  | _ => 1

/-- The register bytes a configuration is written as (R260, R262, R263). -/
def rfSetupByte (c : RadioConfig) : Byte := (if c.rate = .r2M then 0x08 else 0x00) ||| (c.power <<< 1)
def pipeFlags (f : PipeConfig → Bool) (c : RadioConfig) : Byte :=
  (if f c.pipe0 then 0x01 else 0) ||| (if f c.pipe1 then 0x02 else 0) ||| (if f c.pipe2 then 0x04 else 0)
    ||| (if f c.pipe3 then 0x08 else 0) ||| (if f c.pipe4 then 0x10 else 0) ||| (if f c.pipe5 then 0x20 else 0)

/-- The 11 writes of `cfgWriteDirectly`, in the order of R266. -/
def configFrames (c : RadioConfig) : List Call :=
  [.send2 [0x26] [rfSetupByte c], .send2 [0x25] [c.channel], .send2 [0x22] [pipeFlags PipeConfig.enabled c],
   .send2 [0x21] [pipeFlags PipeConfig.autoAck c], .send2 [0x30] c.txAddr, .send2 [0x2A] c.pipe0.addr,
   .send2 [0x2B] c.pipe1.addr, .send2 [0x2C] c.pipe2.addr, .send2 [0x2D] c.pipe3.addr, .send2 [0x2E] c.pipe4.addr,
   .send2 [0x2F] c.pipe5.addr]

/-- A frame, if a contributing field differs (R268). -/
def whenDiffers (p : Bool) (c : Call) : List Call := if p then [c] else []

/-- The writes of `cfgWriteDiff` from one configuration to another (R268). -/
def diffFrames (o c : RadioConfig) : List Call :=
  whenDiffers (o.rate != c.rate || o.power != c.power) (.send2 [0x26] [rfSetupByte c])
    ++ whenDiffers (o.channel != c.channel) (.send2 [0x25] [c.channel])
    ++ whenDiffers (pipeFlags PipeConfig.enabled o != pipeFlags PipeConfig.enabled c)
        (.send2 [0x22] [pipeFlags PipeConfig.enabled c])
    ++ whenDiffers (pipeFlags PipeConfig.autoAck o != pipeFlags PipeConfig.autoAck c)
        (.send2 [0x21] [pipeFlags PipeConfig.autoAck c])
    ++ whenDiffers (o.txAddr != c.txAddr) (.send2 [0x30] c.txAddr)
    ++ whenDiffers (o.pipe0.addr != c.pipe0.addr) (.send2 [0x2A] c.pipe0.addr)
    ++ whenDiffers (o.pipe1.addr != c.pipe1.addr) (.send2 [0x2B] c.pipe1.addr)
    ++ whenDiffers (o.pipe2.addr != c.pipe2.addr) (.send2 [0x2C] c.pipe2.addr)
    ++ whenDiffers (o.pipe3.addr != c.pipe3.addr) (.send2 [0x2D] c.pipe3.addr)
    ++ whenDiffers (o.pipe4.addr != c.pipe4.addr) (.send2 [0x2E] c.pipe4.addr)
    ++ whenDiffers (o.pipe5.addr != c.pipe5.addr) (.send2 [0x2F] c.pipe5.addr)

/-- The 11 reads of `cfgRead` (R271). -/
def configReads : List Call :=
  [.xfer [0x06] 1, .xfer [0x05] 1, .xfer [0x02] 1, .xfer [0x01] 1, .xfer [0x10] 5, .xfer [0x0A] 5, .xfer [0x0B] 5,
   .xfer [0x0C] 1, .xfer [0x0D] 1, .xfer [0x0E] 1, .xfer [0x0F] 1]

/-- The three frames of `softClear` (R234). -/
def softClearFrames : List Call := [.send [0xE1], .send [0xE2], .send2 [0x27] [0x70]]

/-- The backup of the pipe-0 address and the perturbed value of `checkDevice` (R281). -/
def backupOf (s : State) : List Byte := (reply (.xfer [0x0A] 5) s).bytes
def perturbed (s : State) : List Byte := (List.range 5).map fun k => (backupOf s).getD k 0 + BitVec.ofNat 8 k

/-- The four frames of `checkDevice`, and the bytes its read-back delivers (R281). -/
def checkFrames (s : State) : List Call :=
  [.xfer [0x0A] 5, .send2 [0x2A] (perturbed s), .xfer [0x0A] 5, .send2 [0x2A] (backupOf s)]
def readBackOf (s : State) : List Byte :=
  (reply (.xfer [0x0A] 5) (transact (.send2 [0x2A] (perturbed s)) (transact (.xfer [0x0A] 5) s))).bytes

/-- What `checkDevice` returns (R281). -/
def checkOutcome (s : State) : Result :=
  if readBackOf s ≠ perturbed s then .identity else mk (failures (checkFrames s) s)

/-- The value of a register after a table has been written: the last pair for it, or the old value (R67). -/
def lastWritten (tbl : List (Byte × Byte)) (a old : Byte) : Byte :=
  match (tbl.filter fun p => p.1 = a).getLast? with
  | some p => p.2
  | none => old

/-- One byte of a chip's register space. -/
def regByte (c : RefChip) (a : BitVec 5) (i : Nat) : Byte := Memory.read c.regs (regKey a i)

/-- The bytes of a five-byte register. -/
def regFive (c : RefChip) (a : BitVec 5) : List Byte := (List.range 5).map fun i => regByte c a i

/-- The single-byte registers that the configuration does not govern and that a table may write, but for `CONFIG` (R65). -/
def ungovernedSingles : List (BitVec 5) := [0x03, 0x04, 0x11, 0x12, 0x13, 0x14, 0x15, 0x16, 0x1C, 0x1D]

end Sys2Proof.Claims

open Sys2Proof Sys2Proof.Machine Sys2Proof.Claims

/-! ### Encoding and stepping -/

/-- One word of each wire format and one host request of each family, as R131 to R134 and R138 write them, decode to the
instruction they stand for; and the opcode bytes that are commands are those of the 11, and no others (R136, R137). The
operand bytes of the host requests are the model's own layout (assumption 7). -/
def Obligations.WrittenOutWordsDecode : Prop :=
  decode (.wire (.xfer [0b00010111] 1)) = .ok (.rRegister 0x17 1) ∧
  decode (.wire (.send2 [0b00110000] [1, 2, 3, 4, 5])) = .ok (.wRegister 0x10 [1, 2, 3, 4, 5]) ∧
  decode (.wire (.send2 [0b10101010] [0x10, 0x20])) = .ok (.wAckPayload 2 [0x10, 0x20]) ∧
  decode (.wire (.send [0b01010000, 0x73])) = .ok .wireActivate ∧
  decode (.wire (.send2 [0b10101110] [1])) = .error .notACommand ∧
  decode (.host 0x06 [0x00, 0x02, 0x01]) = .ok (.modifyRegisterBits 0x00 0x02 0x01) ∧
  decode (.host 0x11 []) = .ok .activate ∧
  decode (.host 0x22 [2, 0x48, 0x49]) = .ok (.txWrite [0x48, 0x49] 2) ∧
  decode (.host 0x34 [0x42]) = .ok (.decode 0x42) ∧
  decode (.host 0x40 [1]) = .ok (.switchRole 1) ∧
  decode (.host 0x52 []) = .ok .cfgRead ∧
  decode (.host 0x62 [0, 0, 1, 0x1D, 0x07]) = .ok (.setup 0 none (some [(0x1D, 0x07)])) ∧
  (∀ b : Byte, (classify b).isSome = true ↔
    b.toNat < 0x40 ∨ b.toNat ∈ [0x50, 0x60, 0x61, 0xA0, 0xA8, 0xA9, 0xAA, 0xAB, 0xAC, 0xAD, 0xB0, 0xE1, 0xE2, 0xE3])

/-- Decoding the request that carries an instruction gives the instruction back, for every instruction a request can
carry. The host operands' layout is the model's own (assumption 7). -/
def Obligations.DecodeOfEncodeIsTheInstruction : Prop :=
  ∀ i : Instr, i.encodable = true → decode (encode i) = .ok i

/-- A wire call has one meaning: the command it decodes to is carried by that very call, within the lengths of R134, which the
model reads as part of what a command is (assumption 22). -/
def Obligations.AWireCallMeansOneCommand : Prop :=
  ∀ (c : Call) (d : WireCmd), decodeWireCmd c = .ok d → d.call = c ∧ d.wf = true

/-- A step takes the next item off the ports; a request that decodes is executed, a radio event changes the chip alone, and
with nothing pending nothing happens (R107, R138, R141, R330). The model's form: a program is the list of pending items
(assumption 9), one step is one whole operation (assumption 19), a radio event between operations changes the chip whatever
the transport, where R107 speaks of RefChip (assumption 14), and the transport or anything else moves the pin, as R60 (b)
and U13 let it, by an item of its own (assumption 25). -/
def Obligations.StepRunsTheDecodedRequest : Prop :=
  (∀ (s : State) (r : Request) (rest : List PortItem) (i : Instr),
    s.pending = .request r :: rest → decode r = .ok i → step s = exec i { s with pending := rest }) ∧
  (∀ (s : State) (e : ChipEvent) (rest : List PortItem),
    s.pending = .radio e :: rest → step s = .next { s with pending := rest, chip := s.chip.radio e }) ∧
  (∀ (s : State) (b : Bool) (rest : List PortItem),
    s.pending = .pin b :: rest → step s = .next { s with pending := rest, ce := b }) ∧
  (∀ s : State, s.pending = [] → step s = .next s)

/-- A select code that is not in the table is refused with `REJECTED(bad_operand)` (R138, R305). That it is so on an unbound
instance too, and not `not_bound`, is the model's reading (assumption 15). -/
def Obligations.UnknownSelectCodeIsRefused : Prop :=
  ∀ (s : State) (op : Byte) (w : List Byte) (rest : List PortItem),
    s.pending = .request (.host op w) :: rest → op.toNat ∉ selectCodes →
    step s = .next { s with pending := rest, response := some ⟨.rejected .badOperand, .none⟩ }

/-- Bytes on the wire port that are no command: on RefChip they set `faulted`, return `ok` and zeros (R105, R136). That the
port passes them on as one transaction (assumption 15), and that a call with lengths outside its row is no command
(assumption 22), are the model's readings. -/
def Obligations.UnknownWireCallFaultsRefChip : Prop :=
  ∀ (s : State) (c : Call) (rest : List PortItem) (e : DecodeError),
    s.pending = .request (.wire c) :: rest → decodeWireCmd c = .error e → QuietRefChip s →
    step s = .next { s with
      pending := rest
      chip := { s.chip with faulted := true }
      history := s.history ++ [eventOf c .ok (List.replicate (readLen c) 0)]
      response := some ⟨.ok, .bytes (List.replicate (readLen c) 0)⟩ }

/-! ### Reset and the invariant -/

/-- Power-on of the block (R330): unbound, the other registers without value, no event issued, and nothing happens until
the host issues an operation. -/
def Obligations.PowerOnHoldsNoValues : Prop :=
  State.reset.bound = false ∧ State.reset.role = none ∧ State.reset.ackPipe = none ∧ State.reset.radioEnabled = none
    ∧ State.reset.history = [] ∧ step State.reset = .next State.reset

/-- The power-on state meets the invariant. Its chip and pin values are the model's choice (assumptions 2 to 4). -/
def Obligations.PowerOnMeetsTheInvariant : Prop := State.reset.Inv

/-- Every step keeps the invariant: canonical register space, FIFOs within their depth and slot sizes, the instance
registers of the lifecycle, the radio flag the last level that the block drove on the pin (R34), wherever the pin itself is
(R60 b). That an `init` after a `deinit` keeps the flag is the model's reading (assumption 21). -/
def Obligations.EveryStepKeepsTheInvariant : Prop :=
  ∀ s t : State, s.Inv → step s = .next t → t.Inv

/-- "never cleared once set" (R97): no step of the machine, whatever it runs, clears RefChip's `faulted`. -/
def Obligations.FaultedIsNeverCleared : Prop :=
  ∀ s t : State, step s = .next t → s.chip.faulted = true → t.chip.faulted = true

/-- "There is no way from `READY` back to `BOUND`" (R315): no step goes there, from any state; and where an unbound instance
holds no role, an operation changes the lifecycle state in three ways only: a successful `init` binds, a `setup` that passes
its identity check makes ready, `deinit` unbinds. -/
def Obligations.NoWayFromReadyBackToBound : Prop :=
  (∀ s t : State, step s = .next t → phase s = .ready → phase t ≠ .bound) ∧
  (∀ (i : Instr) (s t : State), (s.bound = false → s.role = none) → exec i s = .next t →
    phase t = phase s ∨
    (phase s = .unbound ∧ phase t = .bound ∧ ∃ x, i = .init x ∧ initRc x s = .ok) ∨
    (phase s = .bound ∧ phase t = .ready ∧ checkOutcome s = .ok ∧ ∃ r c l, i = .setup r c l) ∨
    (phase s ≠ .unbound ∧ phase t = .unbound ∧ i = .deinit))

/-! ### Whole-machine rules -/

/-- While the instance is unbound every operation but `init`, `deinit` and the pure ones is refused with no transaction
(R31). -/
def Obligations.UnboundInstanceRefusesOperations : Prop :=
  ∀ (i : Instr) (s : State), i.isHost = true → exemptFromBinding i = false → s.bound = false → Refuses i s .notBound

/-- An operation that answers `REJECTED` has issued no transaction and written no register (R305). -/
def Obligations.RefusedOperationsChangeNothing : Prop :=
  ∀ (i : Instr) (s t : State) (r : Reason) (o : Output),
    i.isHost = true → exec i s = .next t → t.response = some ⟨.rejected r, o⟩ → t = respond (.rejected r) .none s

/-- Only `rxRead` ever stops, exactly when a width above 32 came back on a bound instance (R218); no instruction is refused
by the model. -/
def Obligations.OnlyAWidthAbove32Stops : Prop :=
  (∀ (i : Instr) (s : State) (f : Fault), exec i s = .fault f ↔
    i = .rxRead ∧ f = .payloadWidthAbove32 ∧ s.bound = true ∧ 32 < (byteOf (.xfer [0x60] 1) s).toNat) ∧
  (∀ (i : Instr) (s : State) (r : Refusal), exec i s ≠ .refused r)

/-- The history only grows, and a host operation adds pin events and the frames of the 11 commands, within their lengths
(R63, R136, R190). -/
def Obligations.HostOperationsIssueOnlyTheElevenCommands : Prop :=
  ∀ (i : Instr) (s t : State), i.isHost = true → exec i s = .next t →
    ∃ es, t.history = s.history ++ es ∧
      ∀ e ∈ es, isPinEvent e = true ∨ ∃ (d : WireCmd) (rc : Rc) (bs : List Byte), d.wf = true ∧ e = eventOf d.call rc bs

/-- No host operation but those that R311 names ever writes `STATUS` with the `MAX_RT` bit set. -/
def Obligations.MaxRtIsClearedOnlyExplicitly : Prop :=
  ∀ (i : Instr) (s t : State) (es : List Event),
    i.isHost = true → i ≠ .clearTxFail →
    (∀ r, i = .switchRole r → s.role = roleOf r) → (∀ r c l, i ≠ .setup r c l) → (∀ a b, i ≠ .writeRegister a b) →
    (∀ a bs, i ≠ .writeRegisters a bs) → (∀ a m v, i ≠ .modifyRegisterBits a m v) →
    exec i s = .next t → t.history = s.history ++ es →
    ∀ e ∈ es, ∀ d rc, e = .send2 [0x27] d rc → (d.headD 0).getLsbD 4 = false

/-- `TRANSPORT(n)` has n from 1 to the operation's own bound (R301). -/
def Obligations.FailureCountsAreBounded : Prop :=
  ∀ (i : Instr) (s t : State) (n : Nat) (o : Output),
    i.isHost = true → exec i s = .next t → t.response = some ⟨.transport n, o⟩ → 1 ≤ n ∧ n ≤ maxFailures i

/-- An operation issues at most the transactions that R350 counts for it. -/
def Obligations.TransactionsPerOperationAreBounded : Prop :=
  ∀ (i : Instr) (s t : State) (es : List Event),
    i.isHost = true → exec i s = .next t → t.history = s.history ++ es →
    (es.filter fun e => !isPinEvent e).length ≤ maxTransactions i

/-- Each instance register changes only under the operations that write it (R31 to R34, R64, R280, R283). The pin changes under
the block's own `T.ce`, where a pending input moves it, and under `init` (R38, R60 b); where nothing but the block moves it,
the pin stays at the level of its mirror. That the transport field changes under `init` alone (assumption 11), in what form the
environment moves the pin (assumption 25), and that no instruction changes the parameter `NOACK_IN_PRX` (assumption 6) or the
variant of the chip (assumption 17) are the model's choices. -/
def Obligations.InstanceRegistersHaveTheirWriters : Prop :=
  ∀ (i : Instr) (s t : State), exec i s = .next t →
    (t.bound ≠ s.bound → (∃ x, i = .init x) ∨ i = .deinit) ∧
    (t.transport ≠ s.transport → ∃ x, i = .init x) ∧
    (t.role ≠ s.role → (∃ r, i = .switchRole r) ∨ (∃ r, i = .switchRoleDirectly r) ∨ (∃ r c l, i = .setup r c l)
      ∨ i = .deinit) ∧
    (t.ackPipe ≠ s.ackPipe → (∃ p, i = .setAckPipe p) ∨ (∃ x, i = .init x) ∨ i = .deinit) ∧
    (t.radioEnabled ≠ s.radioEnabled → i = .radioOn ∨ i = .radioOff ∨ (∃ r c l, i = .setup r c l) ∨ i = .deinit) ∧
    (t.ce ≠ s.ce → i = .radioOn ∨ i = .radioOff ∨ (∃ r c l, i = .setup r c l) ∨ i = .deinit ∨ (∃ c, i = .cfgWrite c)
      ∨ (∃ x, i = .init x) ∨ ∃ j ∈ s.inputs, j.pin ≠ none) ∧
    ((∀ j ∈ s.inputs, j.pin = none) → (∀ x, i ≠ .init x) →
      (∀ b, s.radioEnabled = some b → s.ce = b) → ∀ b, t.radioEnabled = some b → t.ce = b) ∧
    t.pending = s.pending ∧ t.noackInPrx = s.noackInPrx ∧ t.chip.variant = s.chip.variant

/-- The role changes what the outside sees of no operation but `txWrite`, `txWriteNoAck`, the two switches and `getRole`
(R32, R254). -/
def Obligations.RoleMattersOnlyToItsReaders : Prop :=
  ∀ (i : Instr) (s : State) (r₁ r₂ : Option Role),
    (∀ d n, i ≠ .txWrite d n) → (∀ d n, i ≠ .txWriteNoAck d n) → (∀ r, i ≠ .switchRole r) →
    (∀ r, i ≠ .switchRoleDirectly r) → i ≠ .getRole →
    seen (exec i { s with role := r₁ }) = seen (exec i { s with role := r₂ })

/-- A byte of the register space changes only when a W_REGISTER to its register is issued (R90 e). -/
def Obligations.RegisterBytesChangeOnlyWhenWritten : Prop :=
  ∀ (i : Instr) (s t : State) (es : List Event) (k : Nat),
    s.chip.Sound → exec i s = .next t → t.history = s.history ++ es →
    (∀ e ∈ es, ¬ WritesRegister e (k / 8)) → Memory.read t.chip.regs k = Memory.read s.chip.regs k

/-! ### Transactions -/

/-- One transaction: exactly the bytes asked for are delivered, the call is recorded, and nothing else of the block changes
(R9, R63, R81, R190). The model's form: a transaction uses up one pending input of the environment (assumption 14), which may
move the chip-enable pin (R60 b, assumption 25). -/
def Obligations.TransactionLeavesOneEvent : Prop :=
  ∀ (c : Call) (s : State),
    (reply c s).bytes.length = readLen c ∧
    transact c s = { s with
      ce := (match s.inputs with
        | [] => s.ce
        | i :: _ => i.pin.getD s.ce)
      chip := (reply c s).chip
      inputs := s.inputs.tail
      history := s.history ++ [eventOf c (reply c s).rc (reply c s).bytes] }

/-- Runs of transactions go on after a failure, count it, and deliver the bytes of each call in order (R302); and the
read-modify-write of R178: a failed read issues no write and counts one failure, otherwise the write is always attempted,
with the field replaced in the byte read. -/
def Obligations.RunsGoOnAndModifyReadsThenWrites : Prop :=
  (∀ (s : State) (c : Call) (cs : List Call),
    issueAll [] s = s ∧ failures [] s = 0 ∧ delivered [] s = [] ∧
    issueAll (c :: cs) s = issueAll cs (transact c s) ∧
    failures (c :: cs) s = cnt (rcOf c s) + failures cs (transact c s) ∧ failures cs s ≤ cs.length ∧
    delivered (c :: cs) s = (reply c s).bytes :: delivered cs (transact c s)) ∧
  (∀ (s : State) (a : BitVec 5) (m v : Byte),
    let rd : Call := .xfer [a.setWidth 8] 1
    let wr : Call := .send2 [0x20 + a.setWidth 8]
      [(byteOf rd s &&& ~~~m) ||| ((v <<< maskShift m) &&& m)]
    (rcOf rd s = .fail → modifyBits a m v s = transact rd s ∧ modifyFailures a m v s = 1) ∧
    (rcOf rd s = .ok → modifyBits a m v s = transact wr (transact rd s)
      ∧ modifyFailures a m v s = cnt (rcOf wr (transact rd s))))

/-- The integer view of a result (R10): 0, n, -1, -2, -3, so 0 means success; and how a failure count becomes a result. -/
def Obligations.IntegerViewOfResults : Prop :=
  resultInt .ok = 0 ∧ (∀ n : Nat, resultInt (.transport n) = (n : Int)) ∧ resultInt .noData = -1 ∧
  resultInt .identity = -2 ∧ (∀ r : Reason, resultInt (.rejected r) = -3) ∧
  cnt .ok = 0 ∧ cnt .fail = 1 ∧ mk 0 = .ok ∧ (∀ n : Nat, 1 ≤ n → mk n = .transport n) ∧
  (∀ n : Nat, resultInt (mk n) = (n : Int)) ∧
  (∀ r : Result, r ≠ .transport 0 → (resultInt r = 0 ↔ r = .ok))

/-! ### RefChip -/

/-- RefChip's derived registers, as R_REGISTER reads them, bit by bit (R98). -/
def Obligations.DerivedRegistersOfRefChip : Prop :=
  ∀ (c : RefChip) (n : Nat) (w : Option Byte),
    c.run w (.rRegister 0x07 n) = (c, List.replicate n c.status) ∧
    c.run w (.rRegister 0x17 n) = (c, List.replicate n c.fifoStatus) ∧
    c.run w (.rRegister 0x08 n) = (c, List.replicate n 0) ∧ c.run w (.rRegister 0x09 n) = (c, List.replicate n 0) ∧
    c.status.getLsbD 7 = false ∧ c.status.getLsbD 6 = c.rxDr ∧ c.status.getLsbD 5 = c.txDs ∧
    c.status.getLsbD 4 = c.maxRt ∧ c.status.getLsbD 0 = decide (c.txq.length = 3) ∧
    (c.rxq = [] → pipeField c.status = 7) ∧
    (∀ e q, c.rxq = e :: q → (pipeField c.status).toNat = e.pipe.val) ∧
    c.fifoStatus.getLsbD 7 = false ∧ c.fifoStatus.getLsbD 6 = c.txReuse ∧
    c.fifoStatus.getLsbD 5 = decide (c.txq.length = 3) ∧ c.fifoStatus.getLsbD 4 = decide (c.txq.length = 0) ∧
    c.fifoStatus.getLsbD 3 = false ∧ c.fifoStatus.getLsbD 2 = false ∧
    c.fifoStatus.getLsbD 1 = decide (c.rxq.length = 3) ∧ c.fifoStatus.getLsbD 0 = decide (c.rxq.length = 0)

/-- R_REGISTER and W_REGISTER on RefChip (R84, R97, R99, R100), by the register's address: what a read returns, n copies of
the byte, the first n of five bytes, or zeros, the chip unchanged; which bytes a write stores, that every other byte of the
register space stays, and that a write to `STATUS` clears the flags of its 1 bits and nothing else. -/
def Obligations.RegisterAccessOnRefChip : Prop :=
  (∀ (c : RefChip) (a : BitVec 5) (n : Nat) (w : Option Byte), 1 ≤ n → n ≤ 5 →
    (a ∈ singleAddrs → c.run w (.rRegister a n) = (c, List.replicate n (regByte c a 0))) ∧
    (a ∈ fiveAddrs → c.run w (.rRegister a n) = (c, (regFive c a).take n)) ∧
    (a ∈ unmappedAddrs → c.run w (.rRegister a n) = (c, List.replicate n 0))) ∧
  (∀ (c : RefChip) (a b : BitVec 5) (d : List Byte) (i : Nat) (w : Option Byte),
    c.Sound → 1 ≤ d.length → d.length ≤ 5 → i < 5 →
    let c' := (c.run w (.wRegister a d)).1
    (c.run w (.wRegister a d)).2 = [] ∧
    (a ∈ singleAddrs → regByte c' b i = if b = a ∧ i = 0 then d.headD 0 else regByte c b i) ∧
    (a ∈ fiveAddrs → regByte c' b i = if b = a ∧ i < d.length then d.getD i 0 else regByte c b i) ∧
    (a ∈ derivedAddrs ∨ a ∈ unmappedAddrs → c'.regs = c.regs) ∧
    (a = 0x07 → c' = { c with
      rxDr := c.rxDr && !(d.headD 0).getLsbD 6, txDs := c.txDs && !(d.headD 0).getLsbD 5
      maxRt := c.maxRt && !(d.headD 0).getLsbD 4 }) ∧
    (a ≠ 0x07 → c' = { c with regs := c'.regs }))

/-- R_RX_PL_WID, R_RX_PAYLOAD, the payload writes, the flushes, REUSE_TX_PL and ACTIVATE on RefChip, within the lengths and
pipes of R134 (R101 to R104), and on the two other variants of the chip, which are the model's (assumption 17): there
W_TX_PAYLOAD, and no other payload write, ends the reuse, as R197 says of the chip, and on the nRF24L01 ACTIVATE toggles the
access, as R198 says of it. -/
def Obligations.FifoCommandsOnRefChip : Prop :=
  ∀ (c : RefChip) (n : Nat) (d : List Byte) (p : BitVec 3) (w : Byte) (o : Option Byte),
    1 ≤ n → n ≤ 32 → d.length ≤ 32 → p.toNat ≤ 5 →
    let kept := if c.variant = .refChip then c.txReuse else false
    (c.rxq = [] → c.run none .rRxPlWid = (c, [0])
      ∧ c.run o (.rRxPayload n) = ({ c with faulted := true }, List.replicate n 0)) ∧
    (∀ e q, c.rxq = e :: q → c.run none .rRxPlWid = (c, [BitVec.ofNat 8 e.data.length])
      ∧ c.run o (.rRxPayload n) = ({ c with rxq := q }, (e.data ++ List.replicate n 0).take n)) ∧
    c.run (some w) .rRxPlWid = (c, [w]) ∧
    (c.txq.length < 3 → 1 ≤ d.length →
      c.run o (.wTxPayload d) = ({ c with txq := c.txq ++ [⟨.plain, d⟩], txReuse := kept }, [])
      ∧ c.run o (.wTxPayloadNoack d) = ({ c with txq := c.txq ++ [⟨.noack, d⟩] }, [])
      ∧ c.run o (.wAckPayload p d) = ({ c with txq := c.txq ++ [⟨.ack p, d⟩] }, [])) ∧
    (3 ≤ c.txq.length ∨ d.length = 0 →
      c.run o (.wTxPayload d) = ({ c with faulted := true, txReuse := kept }, [])
      ∧ c.run o (.wTxPayloadNoack d) = ({ c with faulted := true }, [])
      ∧ c.run o (.wAckPayload p d) = ({ c with faulted := true }, [])) ∧
    c.run o .flushTx = ({ c with txq := [], txReuse := false }, []) ∧
    c.run o .flushRx = ({ c with rxq := [] }, []) ∧
    c.run o .reuseTxPl = ({ c with txReuse := true }, []) ∧
    (c.variant ≠ .nrf24l01 → c.run o .activate = (c, [])) ∧
    (c.variant = .nrf24l01 → c.run o .activate = ({ c with activated := !c.activated }, []))

/-- RefChip's environment events (R107). On the two other variants of the chip, which are the model's (assumption 17), a failed
transmission does nothing when the head of the queue asks for no acknowledgement: R201 says `MAX_RT` cannot follow from it,
where R107 makes no exception (assumption 26). -/
def Obligations.RadioEventsOnRefChip : Prop :=
  ∀ (c : RefChip) (p : Fin 6) (d : List Byte), 1 ≤ d.length → d.length ≤ 32 →
    (c.rxq.length < 3 → c.radio (.rxArrive p d) = { c with rxq := c.rxq ++ [⟨p, d⟩], rxDr := true }) ∧
    (3 ≤ c.rxq.length → c.radio (.rxArrive p d) = c) ∧
    (c.txq = [] → c.radio .txDone = c ∧ c.radio .txFail = c) ∧
    (∀ e q, c.txq = e :: q → c.variant = .refChip ∨ e.kind ≠ .noack → c.radio .txFail = { c with maxRt := true }) ∧
    (∀ e q, c.txq = e :: q → c.variant ≠ .refChip → e.kind = .noack → c.radio .txFail = c) ∧
    (∀ e q, c.txq = e :: q → c.txReuse = false → c.radio .txDone = { c with txq := q, txDs := true }) ∧
    (c.txq ≠ [] → c.txReuse = true → c.radio .txDone = { c with txDs := true })

/-- What the environment answers to a call. On RefChip the pending input's radio events come first (R107); then an
injected failure changes no RefChip state and a read returns zeros (R108), and otherwise RefChip reacts to the command, a
width override of the test included (R101), or marks bytes that are none (R105). The black box delivers the input's return
code and the bytes the input gives, failed or not, exactly as many as asked for (R9, R92, R93); an absent device answers
every read with its one byte and ignores every write (R109). The model's choices and readings: a pending input is the draw,
its events precede its failure, and an absent device ignores its events (assumption 14); the black box leaves RefChip alone
(assumption 13); a call whose lengths are outside its row is no command (assumption 22). On the nRF24L01, a variant of the
model's (assumption 17), a command without access leaves the chip as it is, and the bytes of its answer are drawn (R198). -/
def Obligations.EnvironmentAnswersACall : Prop :=
  ∀ (s : State) (c : Call),
    (s.transport = .absent0 → reply c s = ⟨s.chip, .ok, List.replicate (readLen c) 0x00⟩) ∧
    (s.transport = .absentF → reply c s = ⟨s.chip, .ok, List.replicate (readLen c) 0xFF⟩) ∧
    (s.transport = .blackBox → (reply c s).chip = s.chip ∧ (reply c s).bytes.length = readLen c) ∧
    (∀ d : WireCmd, s.transport = .refChip → s.inputs = [] → decodeWireCmd c = .ok d → Accessible s.chip d →
      reply c s = ⟨(s.chip.run none d).1, .ok, (s.chip.run none d).2⟩) ∧
    (∀ (i : EnvInput) (rest : List EnvInput), s.inputs = i :: rest →
      let chip := i.events.foldl RefChip.radio s.chip
      (s.transport = .blackBox → (reply c s).rc = i.rc ∧
        ∀ k b, k < readLen c → i.bytes[k]? = some b → (reply c s).bytes[k]? = some b) ∧
      (s.transport = .refChip → i.rc = .fail → reply c s = ⟨chip, .fail, List.replicate (readLen c) 0⟩) ∧
      (∀ d : WireCmd, s.transport = .refChip → i.rc = .ok → decodeWireCmd c = .ok d → Accessible chip d →
        reply c s = ⟨(chip.run i.width d).1, .ok, (chip.run i.width d).2⟩) ∧
      (∀ d : WireCmd, s.transport = .refChip → i.rc = .ok → decodeWireCmd c = .ok d → ¬ Accessible chip d →
        (reply c s).chip = chip ∧ (reply c s).rc = .ok ∧ (reply c s).bytes.length = readLen c) ∧
      (∀ e : DecodeError, s.transport = .refChip → i.rc = .ok → decodeWireCmd c = .error e →
        reply c s = ⟨{ chip with faulted := true }, .ok, List.replicate (readLen c) 0⟩))

/-- A wire command on its port (R190): exactly one transport call, in the frame of R191 to R201, and its return code and bytes
handed back. That this is so whatever the instance registers hold is the model's reading (assumption 10). -/
def Obligations.WireCommandsAreOneTransaction : Prop :=
  ∀ (s : State) (a : BitVec 5) (p : BitVec 3) (n : Nat) (d : List Byte),
    let Runs (i : Instr) (c : Call) : Prop :=
      exec i s = .next (respond (mk (cnt (rcOf c s))) (.bytes (reply c s).bytes) (transact c s))
    Runs (.rRegister a n) (.xfer [a.setWidth 8] n) ∧
    Runs (.wRegister a d) (.send2 [0x20 + a.setWidth 8] d) ∧
    Runs (.rRxPayload n) (.xfer [0x61] n) ∧
    Runs (.wTxPayload d) (.send2 [0xA0] d) ∧
    Runs .flushTx (.send [0xE1]) ∧
    Runs .flushRx (.send [0xE2]) ∧
    Runs .reuseTxPl (.send [0xE3]) ∧
    Runs .wireActivate (.send [0x50, 0x73]) ∧
    Runs .rRxPlWid (.xfer [0x60] 1) ∧
    Runs (.wAckPayload p d) (.send2 [0xA8 + p.setWidth 8] d) ∧
    Runs (.wTxPayloadNoack d) (.send2 [0xB0] d)

/-- A well-formed wire command on RefChip has exactly RefChip's reaction to that command, and nothing of the block but its
history and response changes. That it is so on an unbound instance too is the model's reading (assumption 10). -/
def Obligations.WireCommandsReachRefChip : Prop :=
  ∀ (s : State) (d : WireCmd), d.wf = true → QuietRefChip s →
    exec d.toInstr s = .next { s with
      chip := (s.chip.run none d).1
      history := s.history ++ [eventOf d.call .ok (s.chip.run none d).2]
      response := some ⟨.ok, .bytes (s.chip.run none d).2⟩ }

/-! ### Register Access Layer -/

/-- The contiguous masks (R170): those of the form `((1 << w) - 1) << s`, 36 in all, with the shift the lowest set bit; the
operations refuse the others. -/
def Obligations.ContiguousMasksAreThe36 : Prop :=
  (∀ m : Byte, contiguous m = true ↔
    ∃ s w : Nat, s ≤ 7 ∧ 1 ≤ w ∧ w ≤ 8 - s ∧ m.toNat = (2 ^ w - 1) * 2 ^ s ∧ maskShift m = s ∧ maskWidth m = w) ∧
  ((List.range 256).filter fun m => contiguous (BitVec.ofNat 8 m)).length = 36 ∧
  (∀ (s : State) (b m v : Byte), contiguous m = false →
    Refuses (.getBits b m) s .badMask ∧ Refuses (.setBits b m v) s .badMask) ∧
  (∀ (s : State) (a m v : Byte), s.bound = true → a.toNat ≤ 0x1F → contiguous m = false →
    Refuses (.modifyRegisterBits a m v) s .badMask)

/-- `getBits` and `setBits` on a contiguous mask, for every state (R171, R172). -/
def Obligations.BitFieldAccessorsAnswer : Prop :=
  ∀ (s : State) (b m v : Byte),
    (contiguous m = true →
      exec (.getBits b m) s = .next (respond .ok (.byte ((b &&& m) >>> maskShift m)) s) ∧
      exec (.setBits b m v) s = .next (respond .ok (.byte ((b &&& ~~~m) ||| ((v <<< maskShift m) &&& m))) s)) ∧
    (contiguous m = false → Refuses (.getBits b m) s .badMask ∧ Refuses (.setBits b m v) s .badMask)

/-- The law of the accessors (R173). -/
def Obligations.GetBitsOfSetBits : Prop :=
  ∀ b m v : Byte, contiguous m = true →
    getBits (setBits b m v) m = v &&& BitVec.ofNat 8 (2 ^ maskWidth m - 1) ∧
    setBits b m v &&& ~~~m = b &&& ~~~m ∧
    (v.toNat < 2 ^ maskWidth m → getBits (setBits b m v) m = v)

/-- `readRegister`, `readRegisters`, `writeRegister` and `writeRegisters` (R174 to R177). -/
def Obligations.RegisterOperationsAreOneFrame : Prop :=
  ∀ (addr b : Byte) (n : Nat) (bs : List Byte),
    NeedsBinding (.readRegister addr) ∧ NeedsBinding (.readRegisters addr n) ∧
    NeedsBinding (.writeRegister addr b) ∧ NeedsBinding (.writeRegisters addr bs) ∧
    ∀ s : State, s.bound = true →
      (0x1F < addr.toNat → Refuses (.readRegister addr) s .badOperand ∧ Refuses (.readRegisters addr n) s .badOperand
        ∧ Refuses (.writeRegister addr b) s .badOperand ∧ Refuses (.writeRegisters addr bs) s .badOperand) ∧
      (n < 1 ∨ 5 < n → Refuses (.readRegisters addr n) s .badOperand) ∧
      (bs.length < 1 ∨ 5 < bs.length → Refuses (.writeRegisters addr bs) s .badOperand) ∧
      (addr.toNat ≤ 0x1F →
        exec (.readRegister addr) s = .next (respond (mk (cnt (rcOf (.xfer [addr] 1) s)))
          (.byte (byteOf (.xfer [addr] 1) s)) (transact (.xfer [addr] 1) s))) ∧
      (addr.toNat ≤ 0x1F → 1 ≤ n → n ≤ 5 →
        exec (.readRegisters addr n) s = .next (respond (mk (cnt (rcOf (.xfer [addr] n) s)))
          (.bytes (reply (.xfer [addr] n) s).bytes) (transact (.xfer [addr] n) s))) ∧
      (addr.toNat ≤ 0x1F → IsOneCall (.writeRegister addr b) (.send2 [0x20 + addr] [b]) s) ∧
      (addr.toNat ≤ 0x1F → 1 ≤ bs.length → bs.length ≤ 5 →
        IsOneCall (.writeRegisters addr bs) (.send2 [0x20 + addr] bs) s)

/-- `modifyRegisterBits` (R178). -/
def Obligations.ModifyRegisterBitsIsReadModifyWrite : Prop :=
  ∀ reg m v : Byte, NeedsBinding (.modifyRegisterBits reg m v) ∧
    ∀ s : State, s.bound = true →
      (0x1F < reg.toNat → Refuses (.modifyRegisterBits reg m v) s .badOperand) ∧
      (reg.toNat ≤ 0x1F → contiguous m = false → Refuses (.modifyRegisterBits reg m v) s .badMask) ∧
      (reg.toNat ≤ 0x1F → contiguous m = true → rcOf (.xfer [reg] 1) s = .fail →
        exec (.modifyRegisterBits reg m v) s = .next (respond (.transport 1) .none (transact (.xfer [reg] 1) s))) ∧
      (reg.toNat ≤ 0x1F → contiguous m = true → rcOf (.xfer [reg] 1) s = .ok →
        let s1 := transact (.xfer [reg] 1) s
        let wr : Call := .send2 [0x20 + reg] [(byteOf (.xfer [reg] 1) s &&& ~~~m) ||| ((v <<< maskShift m) &&& m)]
        exec (.modifyRegisterBits reg m v) s = .next (respond (mk (cnt (rcOf wr s1))) .none (transact wr s1)))

/-! ### Command Protocol Layer and FIFO Manager -/

/-- `reuseTx`, `activate`, `txFlush` and `rxFlush` (R202, R203, R219, R220). -/
def Obligations.PlainCommandsAreOneFrame : Prop :=
  NeedsBinding .reuseTx ∧ NeedsBinding .activate ∧ NeedsBinding .txFlush ∧ NeedsBinding .rxFlush ∧
    ∀ s : State, s.bound = true →
      IsOneCall .reuseTx (.send [0xE3]) s ∧ IsOneCall .activate (.send [0x50, 0x73]) s ∧
      IsOneCall .txFlush (.send [0xE1]) s ∧ IsOneCall .rxFlush (.send [0xE2]) s

/-- The four queries on `FIFO_STATUS` (R210, R211, R216, R217): always OK when bound, whatever the transport returned. -/
def Obligations.FifoQueriesReadFifoStatus : Prop :=
  NeedsBinding .txHasSpace ∧ NeedsBinding .txIsEmpty ∧ NeedsBinding .rxHasData ∧ NeedsBinding .rxIsFull ∧
    ∀ s : State, s.bound = true →
      let b := byteOf (.xfer [0x17] 1) s
      let t := transact (.xfer [0x17] 1) s
      exec .txHasSpace s = .next (respond .ok (.flag (!b.getLsbD 5)) t) ∧
      exec .txIsEmpty s = .next (respond .ok (.flag (b.getLsbD 4)) t) ∧
      exec .rxHasData s = .next (respond .ok (.flag (!b.getLsbD 0)) t) ∧
      exec .rxIsFull s = .next (respond .ok (.flag (b.getLsbD 1)) t)

/-- `txWrite` (R212): the role chooses the opcode, the sticky pipe its field; one transaction, no check of free space. -/
def Obligations.TxWriteByRole : Prop :=
  ∀ (d : List Byte) (len : Nat), NeedsBinding (.txWrite d len) ∧
    ∀ s : State, s.bound = true →
      (32 < len ∨ len ≠ d.length → Refuses (.txWrite d len) s .badOperand) ∧
      (d.length ≤ 32 → s.role = none → Refuses (.txWrite d d.length) s .noValue) ∧
      (d.length ≤ 32 → s.role = some .prx → s.ackPipe = none → Refuses (.txWrite d d.length) s .noValue) ∧
      (d.length ≤ 32 → s.role = some .ptx → IsOneCall (.txWrite d d.length) (.send2 [0xA0] d) s) ∧
      (∀ p : Fin 6, d.length ≤ 32 → s.role = some .prx → s.ackPipe = some p →
        IsOneCall (.txWrite d d.length) (.send2 [BitVec.ofNat 8 (0xA8 + p.val)] d) s)

/-- `txWriteNoAck` (R213), under both values of `NOACK_IN_PRX`. -/
def Obligations.TxWriteNoAckByRoleAndPolicy : Prop :=
  ∀ (d : List Byte) (len : Nat), NeedsBinding (.txWriteNoAck d len) ∧
    ∀ s : State, s.bound = true →
      (32 < len ∨ len ≠ d.length → Refuses (.txWriteNoAck d len) s .badOperand) ∧
      (d.length ≤ 32 → s.role = none → Refuses (.txWriteNoAck d d.length) s .noValue) ∧
      (d.length ≤ 32 → s.role = some .prx → s.noackInPrx = .reject → Refuses (.txWriteNoAck d d.length) s .badRole) ∧
      (d.length ≤ 32 → s.role = some .ptx ∨ s.role = some .prx ∧ s.noackInPrx = .legacy →
        IsOneCall (.txWriteNoAck d d.length) (.send2 [0xB0] d) s)

/-- `setAckPipe` and `getAckPipe` (R214, R215), the refusal of a register without value (R64), and that the value stays until
the next `setAckPipe`, `init` or `deinit` whatever else is executed. -/
def Obligations.AckPipeIsSticky : Prop :=
  (∀ pipe : Byte, NeedsBinding (.setAckPipe pipe) ∧ NeedsBinding .getAckPipe ∧
    ∀ s : State, s.bound = true →
      (5 < pipe.toNat → Refuses (.setAckPipe pipe) s .badOperand) ∧
      (∀ p : Fin 6, pipe.toNat = p.val →
        exec (.setAckPipe pipe) s = .next (respond .ok .none { s with ackPipe := some p })) ∧
      (∀ p : Fin 6, s.ackPipe = some p → exec .getAckPipe s = .next (respond .ok (.pipe p) s)) ∧
      (s.ackPipe = none → Refuses .getAckPipe s .noValue)) ∧
  (∀ (i : Instr) (s t : State), (∀ p, i ≠ .setAckPipe p) → (∀ x, i ≠ .init x) → i ≠ .deinit →
    exec i s = .next t → t.ackPipe = s.ackPipe)

/-- `rxRead` (R218): no data on width 0, the model's fault above 32, else three transactions in order. -/
def Obligations.RxReadByTheWidthDelivered : Prop :=
  NeedsBinding .rxRead ∧
    ∀ s : State, s.bound = true →
      let w := (byteOf (.xfer [0x60] 1) s).toNat
      let s1 := transact (.xfer [0x60] 1) s
      let s2 := transact (.xfer [0x07] 1) s1
      (w = 0 → exec .rxRead s = .next (respond .noData .none s1)) ∧
      (32 < w → exec .rxRead s = .fault .payloadWidthAbove32) ∧
      (1 ≤ w → w ≤ 32 →
        exec .rxRead s = .next (respond
          (mk (cnt (rcOf (.xfer [0x60] 1) s) + cnt (rcOf (.xfer [0x07] 1) s1) + cnt (rcOf (.xfer [0x61] w) s2)))
          (.received (reply (.xfer [0x61] w) s2).bytes w ((byteOf (.xfer [0x07] 1) s1 >>> 1).setWidth 3))
          (transact (.xfer [0x61] w) s2)))

/-! ### Status and decoder -/

/-- `statusRead` and the three clears (R230 to R233). -/
def Obligations.StatusReadAndClears : Prop :=
  ∀ sel : Byte, NeedsBinding .statusRead ∧ NeedsBinding (.statusClear sel) ∧ NeedsBinding .statusClearAll ∧
    NeedsBinding .clearTxFail ∧
    ∀ s : State, s.bound = true →
      exec .statusRead s = .next (respond .ok (.byte (byteOf (.xfer [0x07] 1) s)) (transact (.xfer [0x07] 1) s)) ∧
      IsOneCall (.statusClear sel) (.send2 [0x27] [sel &&& 0x60]) s ∧
      IsOneCall .statusClearAll (.send2 [0x27] [0x60]) s ∧
      IsOneCall .clearTxFail (.send2 [0x27] [0x10]) s

/-- The decoder as a total function of the six bits it reads (R236, R237): with `MAX_RT` set `TX_FAIL` alone, else
`TX_SENT` and `HAS_RXDATA` independently; pure, in every state. -/
def Obligations.DecoderIsTheTableOfSixBits : Prop :=
  ∀ (s : State) (b : Byte), ∃ e : BitVec 3,
    exec (.decode b) s = .next (respond .ok (.events e) s) ∧
    (b.getLsbD 4 = true → e = 4) ∧
    (b.getLsbD 4 = false →
      e.getLsbD 0 = b.getLsbD 5 ∧ e.getLsbD 1 = (b.getLsbD 6 || decide (b.toNat / 2 % 8 ≤ 5)) ∧ e.getLsbD 2 = false) ∧
    e ∈ ([0, 1, 2, 3, 4] : List (BitVec 3)) ∧
    (b &&& 0x7E = 0x0E → e = 0)

/-! ### Role -/

/-- `switchRole` (R251): nothing for the same role; else the instance register, the three frames of `softClear`, and the
role bit, each failure counted. -/
def Obligations.SwitchRoleClearsThenSetsTheBit : Prop :=
  ∀ b : Byte, NeedsBinding (.switchRole b) ∧
    ∀ s : State, s.bound = true →
      (1 < b.toNat → Refuses (.switchRole b) s .badOperand) ∧
      (b.toNat ≤ 1 → s.role = none → Refuses (.switchRole b) s .noValue) ∧
      (∀ r : Role, b = (if r = .prx then 1 else 0) → s.role = some r →
        exec (.switchRole b) s = .next (respond .ok .none s)) ∧
      (∀ r old : Role, b = (if r = .prx then 1 else 0) → s.role = some old → r ≠ old →
        let s1 := issueAll softClearFrames { s with role := some r }
        exec (.switchRole b) s = .next (respond
          (mk (failures softClearFrames { s with role := some r } + modifyFailures 0x00 0x01 b s1)) .none
          (modifyBits 0x00 0x01 b s1)))

/-- `switchRoleDirectly` and `getRole` (R252, R253). -/
def Obligations.DirectSwitchAndRoleQuery : Prop :=
  ∀ b : Byte, NeedsBinding (.switchRoleDirectly b) ∧ NeedsBinding .getRole ∧
    ∀ s : State, s.bound = true →
      (1 < b.toNat → Refuses (.switchRoleDirectly b) s .badOperand) ∧
      (b.toNat ≤ 1 → s.role = none → Refuses (.switchRoleDirectly b) s .noValue) ∧
      (s.role = none → Refuses .getRole s .noValue) ∧
      (∀ r old : Role, b = (if r = .prx then 1 else 0) → s.role = some old →
        exec (.switchRoleDirectly b) s = .next (respond
          (mk (modifyFailures 0x00 0x01 b { s with role := some r })) .none
          (modifyBits 0x00 0x01 b { s with role := some r }))) ∧
      (∀ r : Role, s.role = some r → exec .getRole s = .next (respond .ok (.role r) s))

/-! ### Configuration -/

/-- `cfgWriteDirectly` (R267): exactly the 11 writes of R260 to R266, in order, and the count of those that failed; an
ill-formed configuration is refused (R305). -/
def Obligations.WriteDirectlyIssuesTheElevenWrites : Prop :=
  ∀ c : RadioConfig, NeedsBinding (.cfgWriteDirectly c) ∧
    ∀ s : State, s.bound = true →
      (¬ ConfigWellFormed c → Refuses (.cfgWriteDirectly c) s .badOperand) ∧
      (ConfigWellFormed c →
        exec (.cfgWriteDirectly c) s =
          .next (respond (mk (failures (configFrames c) s)) .none (issueAll (configFrames c) s)))

/-- `cfgWriteDiff` (R268): the writes of the governed registers one of whose fields differs; all 11 when `old` is
absent. -/
def Obligations.WriteDiffIssuesWhatDiffers : Prop :=
  ∀ (old : Option RadioConfig) (new : RadioConfig), NeedsBinding (.cfgWriteDiff old new) ∧
    ∀ s : State, s.bound = true →
      (¬ (ConfigWellFormed new ∧ ∀ o ∈ old, ConfigWellFormed o) → Refuses (.cfgWriteDiff old new) s .badOperand) ∧
      (ConfigWellFormed new → (∀ o ∈ old, ConfigWellFormed o) →
        let frames := match old with
          | none => configFrames new
          | some o => diffFrames o new
        exec (.cfgWriteDiff old new) s = .next (respond (mk (failures frames s)) .none (issueAll frames s)))

/-- The laws of `cfgWriteDiff` (R269): the frames it issues are a subsequence of those of `cfgWriteDirectly`; with equal
configurations it issues none; with `old` absent it does exactly what `cfgWriteDirectly` does. -/
def Obligations.WriteDiffLaws : Prop :=
  (∀ (old : Option RadioConfig) (new : RadioConfig) (s : State), s.bound = true → ConfigWellFormed new →
    (∀ o ∈ old, ConfigWellFormed o) →
    exec (.cfgWriteDirectly new) s =
      .next (respond (mk (failures (configFrames new) s)) .none (issueAll (configFrames new) s)) ∧
    ∃ frames, frames.Sublist (configFrames new) ∧
      exec (.cfgWriteDiff old new) s = .next (respond (mk (failures frames s)) .none (issueAll frames s))) ∧
  (∀ (c : RadioConfig) (s : State), s.bound = true → ConfigWellFormed c →
    exec (.cfgWriteDiff (some c) c) s = .next (respond .ok .none s)) ∧
  (∀ (c : RadioConfig) (s : State), exec (.cfgWriteDiff none c) s = exec (.cfgWriteDirectly c) s)

/-- `cfgRead` (R270, R271): exactly 11 reads, in order, and the inverse mapping of the bytes they delivered. -/
def Obligations.ConfigReadInvertsTheMapping : Prop :=
  NeedsBinding .cfgRead ∧
    ∀ s : State, s.bound = true →
      let v (k : Nat) : List Byte := (delivered configReads s).getD k []
      let bit (k j : Nat) : Bool := ((v k).headD 0).getLsbD j
      exec .cfgRead s = .next (respond (mk (failures configReads s))
        (.config {
          rate := if bit 0 3 then .r2M else .r1M
          power := ((v 0).headD 0 >>> 1) &&& 0x03
          channel := (v 1).headD 0 &&& 0x7F
          txAddr := v 4
          pipe0 := ⟨bit 2 0, bit 3 0, v 5⟩
          pipe1 := ⟨bit 2 1, bit 3 1, v 6⟩
          pipe2 := ⟨bit 2 2, bit 3 2, v 7⟩
          pipe3 := ⟨bit 2 3, bit 3 3, v 8⟩
          pipe4 := ⟨bit 2 4, bit 3 4, v 9⟩
          pipe5 := ⟨bit 2 5, bit 3 5, v 10⟩ })
        (issueAll configReads s))

/-- `cfgWrite` (R273): the 11 writes, between `ce(low)` and `ce(high)` when the radio was on. -/
def Obligations.ConfigWriteBracketsTheRadio : Prop :=
  ∀ c : RadioConfig, NeedsBinding (.cfgWrite c) ∧
    ∀ s : State, s.bound = true →
      (¬ ConfigWellFormed c → Refuses (.cfgWrite c) s .badOperand) ∧
      (ConfigWellFormed c → s.radioEnabled = none → Refuses (.cfgWrite c) s .noValue) ∧
      (ConfigWellFormed c → s.radioEnabled = some false →
        exec (.cfgWrite c) s = .next (respond (mk (failures (configFrames c) s)) .none (issueAll (configFrames c) s))) ∧
      (ConfigWellFormed c → s.radioEnabled = some true →
        let off : State := { s with ce := false, radioEnabled := some false, history := s.history ++ [.ce false] }
        let done := issueAll (configFrames c) off
        exec (.cfgWrite c) s = .next (respond (mk (failures (configFrames c) off)) .none
          { done with ce := true, radioEnabled := some true, history := done.history ++ [.ce true] }))

/-- Round trip (R272) on RefChip: what `cfgWriteDirectly` wrote, `cfgRead` returns. -/
def Obligations.ConfigurationRoundTrip : Prop :=
  ∀ (c : RadioConfig) (s : State), ConfigWellFormed c → s.bound = true → QuietRefChip s →
    ∃ t u : State, exec (.cfgWriteDirectly c) s = .next t ∧ t.response = some ⟨.ok, .none⟩ ∧
      exec .cfgRead t = .next u ∧ u.response = some ⟨.ok, .config c⟩ ∧ u.chip = t.chip

/-! ### Lifecycle -/

/-- `init` (R280): refused when bound; one `tinit` event and no register I/O; bound only when the transport's own `init`
succeeded, with the acknowledgement pipe at 0. What `T.init()` returns is the pending input's return code on the black box
and on RefChip (R92, R108), `ok` on RefChip without an input and on an absent device (R106, R109), and RefChip sees the
input's radio events (R107). The model's choices and readings: the operand names the environment, and the transport field
takes it on success (assumption 11); an `init` uses up one pending input (assumption 14); the radio flag stays where a
`deinit` before it put it (assumption 21); the pin is where the input moves it, and with no input it stays on RefChip (R106)
and an absent device and is free on the black box, since R38 leaves its level open (assumption 25); the black box leaves the chip alone,
radio events pending or not (assumption 13), and so does an absent device (assumption 14). -/
def Obligations.InitBindsTheTransport : Prop :=
  ∀ (x : Transport) (s : State),
    (s.bound = true → Refuses (.init x) s .alreadyBound) ∧
    (s.bound = false →
      let s1 : State := { s with
        ce := initPin x s
        chip := initChip x s
        inputs := s.inputs.tail
        history := s.history ++ [.tinit (initRc x s)] }
      (initRc x s = .fail → exec (.init x) s = .next (respond (.transport 1) .none s1)) ∧
      (initRc x s = .ok → exec (.init x) s =
        .next (respond .ok .none { s1 with bound := true, ackPipe := some 0, transport := x })) ∧
      (∀ i rest, s.inputs = i :: rest → x = .blackBox ∨ x = .refChip → initRc x s = i.rc) ∧
      (x = .absent0 ∨ x = .absentF ∨ x = .refChip ∧ s.inputs = [] → initRc x s = .ok) ∧
      (∀ i rest, s.inputs = i :: rest → initPin x s = i.pin.getD s.ce) ∧
      (s.inputs = [] → x ≠ .blackBox → initPin x s = s.ce) ∧
      (∀ i rest, s.inputs = i :: rest → x = .refChip → initChip x s = i.events.foldl RefChip.radio s.chip) ∧
      (x ≠ .refChip ∨ s.inputs = [] → initChip x s = s.chip))

/-- `checkDevice` (R281): always the four frames, the restore with the bytes first read; any difference is `IDENTITY`. -/
def Obligations.CheckDeviceIssuesFourTransactions : Prop :=
  NeedsBinding .checkDevice ∧
    ∀ s : State, s.bound = true →
      (readBackOf s ≠ perturbed s → exec .checkDevice s = .next (respond .identity .none (issueAll (checkFrames s) s))) ∧
      (readBackOf s = perturbed s →
        exec .checkDevice s = .next (respond (mk (failures (checkFrames s) s)) .none (issueAll (checkFrames s) s)))

/-- `checkDevice` passes on RefChip and restores the address exactly; on an absent device it fails as `IDENTITY` (R109,
R281), and the chip held in State stays as it is, radio events pending or not: that an absent device ignores the events of its
inputs is the model's choice (assumption 14). -/
def Obligations.CheckDeviceRestoresTheAddress : Prop :=
  ∀ s : State, s.bound = true →
    (QuietRefChip s → ∃ t, exec .checkDevice s = .next t ∧ t.response = some ⟨.ok, .none⟩ ∧ t.chip = s.chip) ∧
    (s.transport = .absent0 ∨ s.transport = .absentF →
      ∃ t, exec .checkDevice s = .next t ∧ t.response = some ⟨.identity, .none⟩ ∧ t.chip = s.chip)

/-- `setup` (R282): the refusals in operand order (R65, R305); the abort with nothing else touched; and otherwise the steps 2
to 9 in order, each failure counted. What stands in for an absent operand is a free value within R65 and R66
(assumption 12). -/
def Obligations.SetupRunsItsNineSteps : Prop :=
  ∀ (b : Byte) (config : Option RadioConfig) (table : Option (List (Byte × Byte))),
    NeedsBinding (.setup b config table) ∧
    ∀ s : State, s.bound = true →
      (1 < b.toNat → Refuses (.setup b config table) s .badOperand) ∧
      (b.toNat ≤ 1 → ¬ (∀ c ∈ config, ConfigWellFormed c) → Refuses (.setup b config table) s .badOperand) ∧
      (b.toNat ≤ 1 → (∀ c ∈ config, ConfigWellFormed c) → ¬ (∀ l ∈ table, TableWellFormed l) →
        Refuses (.setup b config table) s .badTable) ∧
      (b.toNat ≤ 1 → (∀ c ∈ config, ConfigWellFormed c) → (∀ l ∈ table, TableWellFormed l) → checkOutcome s ≠ .ok →
        exec (.setup b config table) s = .next (respond (checkOutcome s) .none (issueAll (checkFrames s) s))) ∧
      (∀ r : Role, b = (if r = .prx then 1 else 0) → (∀ c ∈ config, ConfigWellFormed c) →
        (∀ l ∈ table, TableWellFormed l) → checkOutcome s = .ok →
        let frames := softClearFrames
          ++ ((table.getD defaultRegTable).map fun p => .send2 [0x20 + p.1] [p.2])
          ++ configFrames (config.getD defaultUserConfig)
        let s1 := issueAll (checkFrames s) s
        let s2 := driveCe false (modifyBits 0x00 0x02 0 s1)
        let s6 : State := { issueAll frames s2 with role := some r }
        let s7 := modifyBits 0x00 0x01 b s6
        exec (.setup b config table) s = .next (respond
          (mk (modifyFailures 0x00 0x02 0 s1 + failures frames s2 + modifyFailures 0x00 0x01 b s6
            + modifyFailures 0x00 0x02 1 s7)) .none
          (driveCe true (modifyBits 0x00 0x02 1 s7))))

/-- State after a successful `setup` on RefChip (R67): the instance registers, the pin, empty FIFOs and clear flags, the
configuration in the governed registers, the table in the others, `CONFIG` with the role bit and the power-up bit. For an
absent operand the default stands in, a free value that the model keeps within the limits of R65 and R66 (assumption 12),
written out here. -/
def Obligations.SetupLeavesTableUnderConfiguration : Prop :=
  ∀ (b : Byte) (r : Role) (config : Option RadioConfig) (table : Option (List (Byte × Byte))) (s : State),
    s.bound = true → QuietRefChip s → b = (if r = .prx then 1 else 0) → (∀ c ∈ config, ConfigWellFormed c) →
    (∀ l ∈ table, TableWellFormed l) →
    let c := config.getD defaultUserConfig
    let tbl := table.getD defaultRegTable
    ConfigWellFormed c ∧ TableWellFormed tbl ∧
    (table = none → tbl.length = 13 ∧
      ∀ q ∈ ([(0x00, 0x0C), (0x01, 0x3F), (0x03, 0x03), (0x04, 0x29), (0x05, 0x02), (0x1C, 0x3F), (0x1D, 0x07)]
        : List (Byte × Byte)), q ∈ tbl ∧ ∀ p ∈ tbl, p.1 = q.1 → p.2 = q.2) ∧
    ∃ t, exec (.setup b config table) s = .next t ∧ t.response = some ⟨.ok, .none⟩ ∧
      t.bound = true ∧ t.role = some r ∧ t.ackPipe = s.ackPipe ∧ t.radioEnabled = some true ∧ t.ce = true ∧
      t.chip.txq = [] ∧ t.chip.rxq = [] ∧ t.chip.rxDr = false ∧ t.chip.txDs = false ∧ t.chip.maxRt = false ∧
      regByte t.chip 0x06 0 = rfSetupByte c ∧ regByte t.chip 0x05 0 = c.channel ∧
      regByte t.chip 0x02 0 = pipeFlags PipeConfig.enabled c ∧ regByte t.chip 0x01 0 = pipeFlags PipeConfig.autoAck c ∧
      regFive t.chip 0x10 = c.txAddr ∧ regFive t.chip 0x0A = c.pipe0.addr ∧ regFive t.chip 0x0B = c.pipe1.addr ∧
      [regByte t.chip 0x0C 0] = c.pipe2.addr ∧ [regByte t.chip 0x0D 0] = c.pipe3.addr ∧
      [regByte t.chip 0x0E 0] = c.pipe4.addr ∧ [regByte t.chip 0x0F 0] = c.pipe5.addr ∧
      (∀ a ∈ ungovernedSingles, regByte t.chip a 0 = lastWritten tbl (a.setWidth 8) (regByte s.chip a 0)) ∧
      regByte t.chip 0x00 0 = (lastWritten tbl 0x00 (regByte s.chip 0x00 0) &&& 0xFC) ||| 0x02 ||| b

/-- Idempotence of `setup` on RefChip (R288): a second one leaves the same chip, instance registers, pin and response as the
first; its transactions are in the history. For an absent operand the default stands in, a free value within R65 and R66
(assumption 12). -/
def Obligations.SetupIsIdempotent : Prop :=
  ∀ (b : Byte) (config : Option RadioConfig) (table : Option (List (Byte × Byte))) (s t u : State),
    s.bound = true → QuietRefChip s → b.toNat ≤ 1 → (∀ c ∈ config, ConfigWellFormed c) →
    (∀ l ∈ table, TableWellFormed l) →
    exec (.setup b config table) s = .next t → exec (.setup b config table) t = .next u →
    u.chip = t.chip ∧ u.ce = t.ce ∧ u.bound = t.bound ∧ u.role = t.role ∧ u.ackPipe = t.ackPipe
      ∧ u.radioEnabled = t.radioEnabled ∧ u.response = t.response

/-- `deinit` (R283): a no-op when unbound; else the power-down, the radio off, and the release, whatever the power-down
returned. -/
def Obligations.DeinitReleasesTheBinding : Prop :=
  ∀ s : State,
    (s.bound = false → exec .deinit s = .next (respond .ok .none s)) ∧
    (s.bound = true →
      let s1 := modifyBits 0x00 0x02 0 s
      exec .deinit s = .next (respond (mk (modifyFailures 0x00 0x02 0 s)) .none
        { s1 with
          bound := false, role := none, ackPipe := none, radioEnabled := some false, ce := false
          history := s1.history ++ [.ce false, .tdeinit] }))

/-- `powerUp` and `powerDown` (R284, R285); `radioOn` and `radioOff` (R286, R287): one `ce` event, the pin and its mirror,
nothing else. -/
def Obligations.PowerAndRadioControl : Prop :=
  NeedsBinding .powerUp ∧ NeedsBinding .powerDown ∧ NeedsBinding .radioOn ∧ NeedsBinding .radioOff ∧
    ∀ s : State, s.bound = true →
      exec .powerUp s =
        .next (respond (mk (modifyFailures 0x00 0x02 1 s)) .none (modifyBits 0x00 0x02 1 s)) ∧
      exec .powerDown s =
        .next (respond (mk (modifyFailures 0x00 0x02 0 s)) .none (modifyBits 0x00 0x02 0 s)) ∧
      exec .radioOn s = .next (respond .ok .none
        { s with ce := true, radioEnabled := some true, history := s.history ++ [.ce true] }) ∧
      exec .radioOff s = .next (respond .ok .none
        { s with ce := false, radioEnabled := some false, history := s.history ++ [.ce false] })
end

