-- ==== Sys2Proof/Laws/Memory.lean ====
section
/-! SUPPORT. The register space: reading after a write, the frame of a write, and the canonical form. -/

namespace Sys2Proof.Machine

/-- The canonical form of a cell in front: not the unlisted value, below the next cell, and the rest canonical. -/
theorem Memory.wf_cons (c : Host.Cell) (m : Memory) :
    Memory.wf (c :: m) = true ↔
      c.2 ≠ powerOnByte c.1 ∧ (∀ d ∈ m.head?, c.1 < d.1) ∧ Memory.wf m = true := by
  cases m with
  | nil => simp [Memory.wf]
  | cons d m => simp [Memory.wf, and_assoc]

/-- Every cell of a canonical memory below a bound at its head is above that bound. -/
theorem Memory.lt_of_wf (c : Host.Cell) (m : Memory) (h : Memory.wf (c :: m) = true) :
    ∀ d ∈ m, c.1 < d.1 := by
  induction m generalizing c with
  | nil => simp
  | cons e m ih =>
    obtain ⟨-, hlt, hm⟩ := (Memory.wf_cons c (e :: m)).1 h
    have hce : c.1 < e.1 := hlt e (by simp)
    intro d hd
    rcases List.mem_cons.1 hd with rfl | hd
    · exact hce
    · exact lt_trans hce (ih e hm d hd)

/-- A key below every listed one reads as unlisted. -/
theorem Memory.read_of_lt (m : Memory) (k : Nat) (h : ∀ d ∈ m, k < d.1) : Memory.read m k = powerOnByte k := by
  induction m with
  | nil => rfl
  | cons c m ih =>
    have hc : k < c.1 := h c (by simp)
    simp [Memory.read, (ne_of_gt hc), ih fun d hd => h d (by simp [hd])]

theorem Memory.read_put (m : Memory) (k : Nat) (v : Byte) (h : ∀ d ∈ m, k < d.1) (j : Nat) :
    Memory.read (Memory.put k v m) j = if j = k then v else Memory.read m j := by
  unfold Memory.put
  split
  · rename_i hv
    split
    · rename_i hj; subst hj; rw [Memory.read_of_lt m j h, hv]
    · rfl
  · simp only [Memory.read]
    split
    · rename_i hj; simp [hj]
    · rename_i hj; simp [Ne.symm hj]

theorem Memory.wf_put (m : Memory) (k : Nat) (v : Byte) (h : ∀ d ∈ m, k < d.1) (hm : Memory.wf m = true) :
    Memory.wf (Memory.put k v m) = true := by
  unfold Memory.put
  split
  · exact hm
  · rename_i hv
    refine (Memory.wf_cons (k, v) m).2 ⟨hv, ?_, hm⟩
    intro d hd
    exact h d (List.mem_of_mem_head? hd)

/-- Reading after a write, at the written key and at every other. -/
theorem Memory.read_write (m : Memory) (hm : Memory.wf m = true) (k : Nat) (v : Byte) (j : Nat) :
    Memory.read (Memory.write m k v) j = if j = k then v else Memory.read m j := by
  induction m with
  | nil => exact Memory.read_put [] k v (by simp) j
  | cons c m ih =>
    have hgt := Memory.lt_of_wf c m hm
    obtain ⟨-, -, hm'⟩ := (Memory.wf_cons c m).1 hm
    unfold Memory.write
    split
    · rename_i hk
      refine Memory.read_put (c :: m) k v ?_ j
      intro d hd
      rcases List.mem_cons.1 hd with rfl | hd
      · exact hk
      · exact lt_trans hk (hgt d hd)
    · split
      · rename_i hk
        rw [Memory.read_put m k v (hk ▸ hgt) j]
        by_cases hj : j = k
        · simp [hj]
        · have : c.1 ≠ j := fun e => hj (e ▸ hk.symm ▸ rfl)
          simp [hj, Memory.read, this]
      · rename_i hk
        simp only [Memory.read, ih hm']
        by_cases hj : j = k
        · subst hj; simp [Ne.symm hk]
        · simp [hj]

/-- A written key is one of the listed keys or the key of the write. -/
theorem Memory.mem_write (m : Memory) (k : Nat) (v : Byte) : ∀ d ∈ Memory.write m k v, d.1 = k ∨ d ∈ m := by
  induction m with
  | nil =>
    intro d hd
    simp only [Memory.write, Memory.put] at hd
    split at hd <;> simp_all
  | cons c m ih =>
    intro d hd
    unfold Memory.write at hd
    split at hd
    · unfold Memory.put at hd
      split at hd
      · exact .inr hd
      · rcases List.mem_cons.1 hd with rfl | hd
        · exact .inl rfl
        · exact .inr hd
    · split at hd
      · unfold Memory.put at hd
        split at hd
        · exact .inr (by simp [hd])
        · rcases List.mem_cons.1 hd with rfl | hd
          · exact .inl rfl
          · exact .inr (by simp [hd])
      · rcases List.mem_cons.1 hd with rfl | hd
        · exact .inr (by simp)
        · rcases ih d hd with h | h
          · exact .inl h
          · exact .inr (by simp [h])

/-- A write keeps the canonical form. -/
theorem Memory.wf_write (m : Memory) (hm : Memory.wf m = true) (k : Nat) (v : Byte) :
    Memory.wf (Memory.write m k v) = true := by
  induction m with
  | nil => exact Memory.wf_put [] k v (by simp) rfl
  | cons c m ih =>
    have hgt := Memory.lt_of_wf c m hm
    obtain ⟨hc, -, hm'⟩ := (Memory.wf_cons c m).1 hm
    unfold Memory.write
    split
    · rename_i hk
      refine Memory.wf_put (c :: m) k v ?_ hm
      intro d hd
      rcases List.mem_cons.1 hd with rfl | hd
      · exact hk
      · exact lt_trans hk (hgt d hd)
    · split
      · rename_i hk
        exact Memory.wf_put m k v (hk ▸ hgt) hm'
      · rename_i hlt hk
        refine (Memory.wf_cons c _).2 ⟨hc, ?_, ih hm'⟩
        intro d hd
        rcases Memory.mem_write m k v d (List.mem_of_mem_head? hd) with h | h
        · omega
        · exact hgt d h

/-- A write of consecutive cells keeps the canonical form. -/
theorem Memory.wf_writeBytes (m : Memory) (hm : Memory.wf m = true) (k : Nat) (bs : List Byte) :
    Memory.wf (Memory.writeBytes m k bs) = true := by
  induction bs generalizing m k with
  | nil => exact hm
  | cons b bs ih => exact ih _ (Memory.wf_write m hm k b) _

/-- Reading after a write of consecutive cells: the byte written there, and every other cell as before. -/
theorem Memory.read_writeBytes (m : Memory) (hm : Memory.wf m = true) (k : Nat) (bs : List Byte) (j : Nat) :
    Memory.read (Memory.writeBytes m k bs) j =
      if k ≤ j ∧ j < k + bs.length then bs.getD (j - k) 0 else Memory.read m j := by
  induction bs generalizing m k with
  | nil =>
    simp [Memory.writeBytes]
  | cons b bs ih =>
    simp only [Memory.writeBytes, ih _ (Memory.wf_write m hm k b), Memory.read_write m hm, List.length_cons]
    by_cases h1 : k + 1 ≤ j ∧ j < k + 1 + bs.length
    · have h2 : k ≤ j ∧ j < k + (bs.length + 1) := by omega
      have h3 : j - k = (j - (k + 1)) + 1 := by omega
      simp [h1, h2, h3]
    · by_cases hj : j = k
      · subst hj
        simp
      · have h2 : ¬ (k ≤ j ∧ j < k + (bs.length + 1)) := by omega
        rw [if_neg h1, if_neg h2, if_neg hj]

/-- Two canonical memories that read alike are equal. -/
theorem Memory.ext_of_read (m₁ m₂ : Memory) (h₁ : Memory.wf m₁ = true) (h₂ : Memory.wf m₂ = true)
    (h : ∀ k, Memory.read m₁ k = Memory.read m₂ k) : m₁ = m₂ := by
  induction m₁ generalizing m₂ with
  | nil =>
    cases m₂ with
    | nil => rfl
    | cons d m₂ =>
      obtain ⟨hd, -, -⟩ := (Memory.wf_cons d m₂).1 h₂
      have := h d.1
      simp [Memory.read] at this
      exact absurd this.symm hd
  | cons c m₁ ih =>
    obtain ⟨hc, -, hm₁⟩ := (Memory.wf_cons c m₁).1 h₁
    have hgt₁ := Memory.lt_of_wf c m₁ h₁
    cases m₂ with
    | nil =>
      have := h c.1
      simp [Memory.read] at this
      exact absurd this hc
    | cons d m₂ =>
      obtain ⟨hd, -, hm₂⟩ := (Memory.wf_cons d m₂).1 h₂
      have hgt₂ := Memory.lt_of_wf d m₂ h₂
      have hkey : c.1 = d.1 := by
        rcases lt_trichotomy c.1 d.1 with hlt | heq | hlt
        · have e := h c.1
          rw [Memory.read_of_lt (d :: m₂) c.1 (by
            intro x hx
            rcases List.mem_cons.1 hx with rfl | hx
            · exact hlt
            · exact lt_trans hlt (hgt₂ x hx))] at e
          simp [Memory.read] at e
          exact absurd e hc
        · exact heq
        · have e := h d.1
          rw [Memory.read_of_lt (c :: m₁) d.1 (by
            intro x hx
            rcases List.mem_cons.1 hx with rfl | hx
            · exact hlt
            · exact lt_trans hlt (hgt₁ x hx))] at e
          simp [Memory.read] at e
          exact absurd e.symm hd
      have hval : c.2 = d.2 := by
        have e := h c.1
        simpa [Memory.read, hkey] using e
      have hrest : m₁ = m₂ := by
        refine ih m₂ hm₁ hm₂ fun k => ?_
        by_cases hk : c.1 = k
        · subst hk
          rw [Memory.read_of_lt m₁ _ hgt₁, hkey, Memory.read_of_lt m₂ _ hgt₂]
        · have e := h k
          have hk' : d.1 ≠ k := hkey ▸ hk
          simpa [Memory.read, hk, hk'] using e
      rw [hrest, show c = d from Prod.ext hkey hval]

end Sys2Proof.Machine
end

