-- ==== Sys2Proof/Laws/Chip.lean ====
section
/-! SUPPORT. RefChip: what decoding admits, how many bytes a reaction returns, and that every reaction keeps the chip sound
(R97 to R107). -/

namespace Sys2Proof.Machine

/-! ### What decoding a wire call admits -/

theorem lengthChecked_ok {c d : WireCmd} (h : lengthChecked c = .ok d) : d = c ∧ c.wf = true := by
  unfold lengthChecked at h
  split at h
  · exact ⟨by simpa using h.symm, ‹_›⟩
  · simp at h

theorem decodeSend_ok {op : WireOp} {rest : List Byte} {d : WireCmd} (h : decodeSend op rest = .ok d) :
    d.wf = true ∧ readLen d.call = 0 := by
  unfold decodeSend at h
  split at h <;> try split at h
  all_goals first
    | simp only [Decoded.ok.injEq] at h; subst h; exact ⟨rfl, rfl⟩
    | simp at h

theorem decodeSend2_ok {op : WireOp} {data : List Byte} {d : WireCmd} (h : decodeSend2 op data = .ok d) :
    d.wf = true ∧ readLen d.call = 0 := by
  unfold decodeSend2 at h
  split at h
  all_goals first
    | obtain ⟨rfl, hw⟩ := lengthChecked_ok h; exact ⟨hw, rfl⟩
    | simp at h

theorem decodeXfer_ok {op : WireOp} {n : Nat} {d : WireCmd} (h : decodeXfer op n = .ok d) :
    d.wf = true ∧ readLen d.call = n := by
  unfold decodeXfer at h
  split at h
  all_goals try split at h
  all_goals first
    | obtain ⟨rfl, hw⟩ := lengthChecked_ok h; exact ⟨hw, rfl⟩
    | simp only [Decoded.ok.injEq] at h; subst h; exact ⟨rfl, by simp_all [WireCmd.call, readLen]⟩
    | simp at h

/-- A call that decodes gives a well-formed command that asks for as many bytes as the call. -/
theorem decodeWireCmd_ok {c : Call} {d : WireCmd} (h : decodeWireCmd c = .ok d) :
    d.wf = true ∧ readLen d.call = readLen c := by
  unfold decodeWireCmd at h
  split at h
  · simp at h
  · split at h
    · simp at h
    · exact decodeSend_ok h
  · split at h
    · simp at h
    · exact decodeSend2_ok h
  · simp at h
  · simp at h
  · split at h
    · simp at h
    · exact decodeXfer_ok h
  · simp at h
  · simp at h

/-! ### How many bytes a reaction returns -/

theorem readReg_length (c : RefChip) (a : BitVec 5) (n : Nat) : (c.readReg a n).length = n := by
  unfold RefChip.readReg
  split <;> simp [Memory.readBytes]

theorem popRx_length (c : RefChip) (n : Nat) : (c.popRx n).2.length = n := by
  unfold RefChip.popRx
  split <;> simp [firstBytes]

theorem run_length (c : RefChip) (w : Option Byte) (d : WireCmd) : (c.run w d).2.length = readLen d.call := by
  cases d <;> simp [RefChip.run, WireCmd.call, readLen, readReg_length, popRx_length]

/-- A reaction returns exactly the bytes asked for (R9). -/
theorem react_length (c : RefChip) (w : Option Byte) {bs : List Byte} {call : Call} (hb : bs.length = readLen call) :
    (c.react w bs call).2.length = readLen call := by
  unfold RefChip.react
  split
  · rename_i h
    split
    · rw [run_length, (decodeWireCmd_ok h).2]
    · exact hb
  · simp

/-! ### Soundness -/

theorem sound_por : RefChip.por.Sound := by
  constructor <;> simp [RefChip.por, Memory.wf]

theorem sound_zero : RefChip.zero.Sound := by
  constructor <;> first | decide | simp [RefChip.zero, RefChip.por]

/-- Soundness looks at the register space and the queues only. -/
theorem sound_of_eq {c d : RefChip} (h : c.Sound) (hr : d.regs = c.regs) (ht : d.txq = c.txq) (hx : d.rxq = c.rxq) :
    d.Sound :=
  ⟨hr ▸ h.regs_wf, ht ▸ h.txq_depth, hx ▸ h.rxq_depth, ht ▸ h.txq_fits, hx ▸ h.rxq_fits⟩

theorem sound_writeReg {c : RefChip} (h : c.Sound) (a : BitVec 5) (d : List Byte) : (c.writeReg a d).Sound := by
  unfold RefChip.writeReg
  split
  · exact ⟨Memory.wf_write _ h.regs_wf _ _, h.txq_depth, h.rxq_depth, h.txq_fits, h.rxq_fits⟩
  · exact ⟨Memory.wf_writeBytes _ h.regs_wf _ _, h.txq_depth, h.rxq_depth, h.txq_fits, h.rxq_fits⟩
  · exact sound_of_eq h rfl rfl rfl
  all_goals exact h

theorem sound_popRx {c : RefChip} (h : c.Sound) (n : Nat) : (c.popRx n).1.Sound := by
  unfold RefChip.popRx
  split
  · exact sound_of_eq h rfl rfl rfl
  · rename_i e q hq
    refine ⟨h.regs_wf, h.txq_depth, ?_, h.txq_fits, ?_⟩
    · have := h.rxq_depth
      simp [hq] at this
      show q.length ≤ 3
      omega
    · intro x hx
      exact h.rxq_fits x (by rw [hq]; exact List.mem_cons_of_mem _ hx)

theorem sound_pushTx {c : RefChip} (h : c.Sound) (k : TxKind) (d : List Byte)
    (hk : ∀ p, k = .ack p → p.toNat ≤ 5) : (c.pushTx k d).Sound := by
  unfold RefChip.pushTx
  split
  · rename_i hd
    refine ⟨h.regs_wf, ?_, h.rxq_depth, ?_, h.rxq_fits⟩
    · simp; omega
    · intro e he
      rcases List.mem_append.1 he with he | he
      · exact h.txq_fits e he
      · obtain rfl := List.mem_singleton.1 he
        exact ⟨hd.2.1, hd.2.2, hk⟩
  · exact sound_of_eq h rfl rfl rfl

theorem sound_run {c : RefChip} (h : c.Sound) (w : Option Byte) (d : WireCmd) (hd : d.wf = true) :
    (c.run w d).1.Sound := by
  cases d with
  | wRegister a d => exact sound_writeReg h a d
  | rRxPayload n => exact sound_popRx h n
  | wTxPayload d => exact sound_of_eq (sound_pushTx h .plain d (by simp)) rfl rfl rfl
  | wTxPayloadNoack d => exact sound_pushTx h _ _ (by simp)
  | wAckPayload p d =>
    refine sound_pushTx h _ _ fun q hq => ?_
    have hp : p.toNat ≤ 5 := by
      simp only [WireCmd.wf, Bool.and_eq_true, decide_eq_true_eq] at hd
      exact hd.1
    cases hq
    exact hp
  | flushTx => exact ⟨h.regs_wf, by simp [RefChip.run], h.rxq_depth, by simp [RefChip.run], h.rxq_fits⟩
  | flushRx => exact ⟨h.regs_wf, h.txq_depth, by simp [RefChip.run], h.txq_fits, by simp [RefChip.run]⟩
  | reuseTxPl => exact sound_of_eq h rfl rfl rfl
  | rRegister a n => exact h
  | activate => exact sound_of_eq h rfl rfl rfl
  | rRxPlWid => exact h

/-- Every transport call leaves a sound chip sound. -/
theorem sound_react {c : RefChip} (h : c.Sound) (w : Option Byte) (bs : List Byte) (call : Call) :
    (c.react w bs call).1.Sound := by
  unfold RefChip.react
  split
  · rename_i hd
    split
    · exact sound_run h w _ (decodeWireCmd_ok hd).1
    · exact h
  · exact sound_of_eq h rfl rfl rfl

/-- Every radio event leaves a sound chip sound. -/
theorem sound_radio {c : RefChip} (h : c.Sound) (e : ChipEvent) : (c.radio e).Sound := by
  unfold RefChip.radio
  split
  · split
    · rename_i hd
      refine ⟨h.regs_wf, h.txq_depth, ?_, h.txq_fits, ?_⟩
      · simp; omega
      · intro x hx
        rcases List.mem_append.1 hx with hx | hx
        · exact h.rxq_fits x hx
        · obtain rfl := List.mem_singleton.1 hx
          exact ⟨hd.2.1, hd.2.2⟩
    · exact h
  · split
    · exact h
    · rename_i e q hq
      have hd := h.txq_depth
      have hf := h.txq_fits
      rw [hq] at hd hf
      refine ⟨h.regs_wf, ?_, h.rxq_depth, ?_, h.rxq_fits⟩
      · show (if c.txReuse then c.txq else q).length ≤ 3
        split
        · exact h.txq_depth
        · simp at hd; omega
      · show ∀ x ∈ (if c.txReuse then c.txq else q), x.Fits
        split
        · exact h.txq_fits
        · exact fun x hx => hf x (List.mem_cons_of_mem _ hx)
  · split
    · exact h
    · exact sound_of_eq h rfl rfl rfl

theorem sound_radios {c : RefChip} (h : c.Sound) (es : List ChipEvent) : (c.radios es).Sound := by
  induction es generalizing c with
  | nil => exact h
  | cons e es ih => exact ih (sound_radio h e)

/-! ### The register space under a command -/

/-- A radio event leaves the register space alone (R90 d, R107). -/
theorem radio_regs (c : RefChip) (e : ChipEvent) : (c.radio e).regs = c.regs := by
  unfold RefChip.radio
  split <;> split <;> rfl

@[simp] theorem radios_regs (c : RefChip) (es : List ChipEvent) : (c.radios es).regs = c.regs := by
  induction es generalizing c with
  | nil => rfl
  | cons e es ih => exact (ih _).trans (radio_regs c e)

/-- Only W_REGISTER changes the register space. -/
theorem run_regs (c : RefChip) (w : Option Byte) (d : WireCmd) (hd : ∀ a x, d ≠ .wRegister a x) :
    (c.run w d).1.regs = c.regs := by
  cases d with
  | wRegister a x => exact absurd rfl (hd a x)
  | rRxPayload n => simp only [RefChip.run, RefChip.popRx]; split <;> rfl
  | wTxPayload d => simp only [RefChip.run, RefChip.pushTx]; split <;> rfl
  | wAckPayload p d => simp only [RefChip.run, RefChip.pushTx]; split <;> rfl
  | wTxPayloadNoack d => simp only [RefChip.run, RefChip.pushTx]; split <;> rfl
  | _ => rfl

/-! ### The chip's variant is never changed -/

@[simp] theorem pushTx_variant (c : RefChip) (k : TxKind) (d : List Byte) : (c.pushTx k d).variant = c.variant := by
  unfold RefChip.pushTx
  split <;> rfl

@[simp] theorem run_variant (c : RefChip) (w : Option Byte) (d : WireCmd) : (c.run w d).1.variant = c.variant := by
  cases d with
  | wRegister a x => simp only [RefChip.run, RefChip.writeReg]; split <;> rfl
  | rRxPayload n => simp only [RefChip.run, RefChip.popRx]; split <;> rfl
  | wTxPayload d => exact pushTx_variant c .plain d
  | wAckPayload p d => exact pushTx_variant c (.ack p) d
  | wTxPayloadNoack d => exact pushTx_variant c .noack d
  | _ => rfl

@[simp] theorem react_variant (c : RefChip) (w : Option Byte) (bs : List Byte) (call : Call) :
    (c.react w bs call).1.variant = c.variant := by
  unfold RefChip.react
  split
  · split
    · exact run_variant c w _
    · rfl
  · rfl

theorem radio_variant (c : RefChip) (e : ChipEvent) : (c.radio e).variant = c.variant := by
  unfold RefChip.radio
  split <;> split <;> rfl

@[simp] theorem radios_variant (c : RefChip) (es : List ChipEvent) : (c.radios es).variant = c.variant := by
  induction es generalizing c with
  | nil => rfl
  | cons e es ih => exact (ih _).trans (radio_variant c e)

/-! ### `faulted` is "never cleared once set" (R97) -/

theorem writeReg_faulted (c : RefChip) (a : BitVec 5) (d : List Byte) : (c.writeReg a d).faulted = c.faulted := by
  unfold RefChip.writeReg
  split <;> rfl

theorem popRx_faulted {c : RefChip} (h : c.faulted = true) (n : Nat) : (c.popRx n).1.faulted = true := by
  unfold RefChip.popRx
  split
  · rfl
  · exact h

theorem pushTx_faulted {c : RefChip} (h : c.faulted = true) (k : TxKind) (d : List Byte) :
    (c.pushTx k d).faulted = true := by
  unfold RefChip.pushTx
  split
  · exact h
  · rfl

theorem run_faulted {c : RefChip} (h : c.faulted = true) (w : Option Byte) (d : WireCmd) :
    (c.run w d).1.faulted = true := by
  cases d with
  | wRegister a x => exact (writeReg_faulted c a x).trans h
  | rRxPayload n => exact popRx_faulted h n
  | wTxPayload d => exact pushTx_faulted h .plain d
  | wAckPayload p d => exact pushTx_faulted h (.ack p) d
  | wTxPayloadNoack d => exact pushTx_faulted h .noack d
  | _ => exact h

theorem react_faulted {c : RefChip} (h : c.faulted = true) (w : Option Byte) (bs : List Byte) (call : Call) :
    (c.react w bs call).1.faulted = true := by
  unfold RefChip.react
  split
  · split
    · exact run_faulted h w _
    · exact h
  · rfl

/-- A radio event never touches `faulted` (R107). -/
theorem radio_faulted (c : RefChip) (e : ChipEvent) : (c.radio e).faulted = c.faulted := by
  unfold RefChip.radio
  split <;> split <;> rfl

@[simp] theorem radios_faulted (c : RefChip) (es : List ChipEvent) : (c.radios es).faulted = c.faulted := by
  induction es generalizing c with
  | nil => rfl
  | cons e es ih => exact (ih _).trans (radio_faulted c e)

end Sys2Proof.Machine
end

