-- ==== Sys2Proof/Laws/State.lean ====
section
/-! SUPPORT. One lemma per field and per update of the state, each true by definition. -/

namespace Sys2Proof.Machine

@[simp] theorem respond_bound (r : Result) (o : Output) (s : State) : (respond r o s).bound = s.bound := rfl
@[simp] theorem respond_role (r : Result) (o : Output) (s : State) : (respond r o s).role = s.role := rfl
@[simp] theorem respond_ackPipe (r : Result) (o : Output) (s : State) : (respond r o s).ackPipe = s.ackPipe := rfl
@[simp] theorem respond_radioEnabled (r : Result) (o : Output) (s : State) : (respond r o s).radioEnabled = s.radioEnabled := rfl
@[simp] theorem respond_transport (r : Result) (o : Output) (s : State) : (respond r o s).transport = s.transport := rfl
@[simp] theorem respond_ce (r : Result) (o : Output) (s : State) : (respond r o s).ce = s.ce := rfl
@[simp] theorem respond_chip (r : Result) (o : Output) (s : State) : (respond r o s).chip = s.chip := rfl
@[simp] theorem respond_inputs (r : Result) (o : Output) (s : State) : (respond r o s).inputs = s.inputs := rfl
@[simp] theorem respond_history (r : Result) (o : Output) (s : State) : (respond r o s).history = s.history := rfl
@[simp] theorem respond_pending (r : Result) (o : Output) (s : State) : (respond r o s).pending = s.pending := rfl
@[simp] theorem respond_response (r : Result) (o : Output) (s : State) : (respond r o s).response = some ⟨r, o⟩ := rfl
@[simp] theorem respond_noackInPrx (r : Result) (o : Output) (s : State) : (respond r o s).noackInPrx = s.noackInPrx := rfl

@[simp] theorem transact_bound (c : Call) (s : State) : (transact c s).bound = s.bound := rfl
@[simp] theorem transact_role (c : Call) (s : State) : (transact c s).role = s.role := rfl
@[simp] theorem transact_ackPipe (c : Call) (s : State) : (transact c s).ackPipe = s.ackPipe := rfl
@[simp] theorem transact_radioEnabled (c : Call) (s : State) : (transact c s).radioEnabled = s.radioEnabled := rfl
@[simp] theorem transact_transport (c : Call) (s : State) : (transact c s).transport = s.transport := rfl
@[simp] theorem transact_ce (c : Call) (s : State) : (transact c s).ce = movedPin s := rfl
@[simp] theorem transact_chip (c : Call) (s : State) : (transact c s).chip = (reply c s).chip := rfl
@[simp] theorem transact_inputs (c : Call) (s : State) : (transact c s).inputs = s.inputs.tail := rfl
@[simp] theorem transact_history (c : Call) (s : State) : (transact c s).history = s.history ++ [eventIn c s] := rfl
@[simp] theorem transact_pending (c : Call) (s : State) : (transact c s).pending = s.pending := rfl
@[simp] theorem transact_response (c : Call) (s : State) : (transact c s).response = s.response := rfl
@[simp] theorem transact_noackInPrx (c : Call) (s : State) : (transact c s).noackInPrx = s.noackInPrx := rfl

@[simp] theorem driveCe_bound (b : Bool) (s : State) : (driveCe b s).bound = s.bound := rfl
@[simp] theorem driveCe_role (b : Bool) (s : State) : (driveCe b s).role = s.role := rfl
@[simp] theorem driveCe_ackPipe (b : Bool) (s : State) : (driveCe b s).ackPipe = s.ackPipe := rfl
@[simp] theorem driveCe_radioEnabled (b : Bool) (s : State) : (driveCe b s).radioEnabled = some b := rfl
@[simp] theorem driveCe_transport (b : Bool) (s : State) : (driveCe b s).transport = s.transport := rfl
@[simp] theorem driveCe_ce (b : Bool) (s : State) : (driveCe b s).ce = b := rfl
@[simp] theorem driveCe_chip (b : Bool) (s : State) : (driveCe b s).chip = s.chip := rfl
@[simp] theorem driveCe_inputs (b : Bool) (s : State) : (driveCe b s).inputs = s.inputs := rfl
@[simp] theorem driveCe_history (b : Bool) (s : State) : (driveCe b s).history = s.history ++ [.ce b] := rfl
@[simp] theorem driveCe_pending (b : Bool) (s : State) : (driveCe b s).pending = s.pending := rfl
@[simp] theorem driveCe_response (b : Bool) (s : State) : (driveCe b s).response = s.response := rfl
@[simp] theorem driveCe_noackInPrx (b : Bool) (s : State) : (driveCe b s).noackInPrx = s.noackInPrx := rfl

@[simp] theorem transportInit_bound (x : Transport) (s : State) : (transportInit x s).bound = s.bound := rfl
@[simp] theorem transportInit_role (x : Transport) (s : State) : (transportInit x s).role = s.role := rfl
@[simp] theorem transportInit_ackPipe (x : Transport) (s : State) : (transportInit x s).ackPipe = s.ackPipe := rfl
@[simp] theorem transportInit_radioEnabled (x : Transport) (s : State) : (transportInit x s).radioEnabled = s.radioEnabled := rfl
@[simp] theorem transportInit_transport (x : Transport) (s : State) : (transportInit x s).transport = s.transport := rfl
@[simp] theorem transportInit_ce (x : Transport) (s : State) : (transportInit x s).ce = initPin x s := rfl
@[simp] theorem transportInit_chip (x : Transport) (s : State) : (transportInit x s).chip = initChip x s := rfl
@[simp] theorem transportInit_inputs (x : Transport) (s : State) : (transportInit x s).inputs = s.inputs.tail := rfl
@[simp] theorem transportInit_history (x : Transport) (s : State) : (transportInit x s).history = s.history ++ [.tinit (initRc x s)] := rfl
@[simp] theorem transportInit_pending (x : Transport) (s : State) : (transportInit x s).pending = s.pending := rfl
@[simp] theorem transportInit_response (x : Transport) (s : State) : (transportInit x s).response = s.response := rfl
@[simp] theorem transportInit_noackInPrx (x : Transport) (s : State) : (transportInit x s).noackInPrx = s.noackInPrx := rfl

@[simp] theorem release_bound (s : State) : (release s).bound = false := rfl
@[simp] theorem release_role (s : State) : (release s).role = none := rfl
@[simp] theorem release_ackPipe (s : State) : (release s).ackPipe = none := rfl
@[simp] theorem release_radioEnabled (s : State) : (release s).radioEnabled = s.radioEnabled := rfl
@[simp] theorem release_transport (s : State) : (release s).transport = s.transport := rfl
@[simp] theorem release_ce (s : State) : (release s).ce = s.ce := rfl
@[simp] theorem release_chip (s : State) : (release s).chip = s.chip := rfl
@[simp] theorem release_inputs (s : State) : (release s).inputs = s.inputs := rfl
@[simp] theorem release_history (s : State) : (release s).history = s.history ++ [.tdeinit] := rfl
@[simp] theorem release_pending (s : State) : (release s).pending = s.pending := rfl
@[simp] theorem release_response (s : State) : (release s).response = s.response := rfl
@[simp] theorem release_noackInPrx (s : State) : (release s).noackInPrx = s.noackInPrx := rfl

@[simp] theorem radioEvent_bound (e : ChipEvent) (s : State) : (radioEvent e s).bound = s.bound := rfl
@[simp] theorem radioEvent_role (e : ChipEvent) (s : State) : (radioEvent e s).role = s.role := rfl
@[simp] theorem radioEvent_ackPipe (e : ChipEvent) (s : State) : (radioEvent e s).ackPipe = s.ackPipe := rfl
@[simp] theorem radioEvent_radioEnabled (e : ChipEvent) (s : State) : (radioEvent e s).radioEnabled = s.radioEnabled := rfl
@[simp] theorem radioEvent_transport (e : ChipEvent) (s : State) : (radioEvent e s).transport = s.transport := rfl
@[simp] theorem radioEvent_ce (e : ChipEvent) (s : State) : (radioEvent e s).ce = s.ce := rfl
@[simp] theorem radioEvent_chip (e : ChipEvent) (s : State) : (radioEvent e s).chip = s.chip.radio e := rfl
@[simp] theorem radioEvent_inputs (e : ChipEvent) (s : State) : (radioEvent e s).inputs = s.inputs := rfl
@[simp] theorem radioEvent_history (e : ChipEvent) (s : State) : (radioEvent e s).history = s.history := rfl
@[simp] theorem radioEvent_pending (e : ChipEvent) (s : State) : (radioEvent e s).pending = s.pending := rfl
@[simp] theorem radioEvent_response (e : ChipEvent) (s : State) : (radioEvent e s).response = s.response := rfl
@[simp] theorem radioEvent_noackInPrx (e : ChipEvent) (s : State) : (radioEvent e s).noackInPrx = s.noackInPrx := rfl

@[simp] theorem pinMove_bound (b : Bool) (s : State) : (pinMove b s).bound = s.bound := rfl
@[simp] theorem pinMove_role (b : Bool) (s : State) : (pinMove b s).role = s.role := rfl
@[simp] theorem pinMove_ackPipe (b : Bool) (s : State) : (pinMove b s).ackPipe = s.ackPipe := rfl
@[simp] theorem pinMove_radioEnabled (b : Bool) (s : State) : (pinMove b s).radioEnabled = s.radioEnabled := rfl
@[simp] theorem pinMove_transport (b : Bool) (s : State) : (pinMove b s).transport = s.transport := rfl
@[simp] theorem pinMove_ce (b : Bool) (s : State) : (pinMove b s).ce = b := rfl
@[simp] theorem pinMove_chip (b : Bool) (s : State) : (pinMove b s).chip = s.chip := rfl
@[simp] theorem pinMove_inputs (b : Bool) (s : State) : (pinMove b s).inputs = s.inputs := rfl
@[simp] theorem pinMove_history (b : Bool) (s : State) : (pinMove b s).history = s.history := rfl
@[simp] theorem pinMove_pending (b : Bool) (s : State) : (pinMove b s).pending = s.pending := rfl
@[simp] theorem pinMove_response (b : Bool) (s : State) : (pinMove b s).response = s.response := rfl
@[simp] theorem pinMove_noackInPrx (b : Bool) (s : State) : (pinMove b s).noackInPrx = s.noackInPrx := rfl

@[simp] theorem takeItem_bound (rest : List PortItem) (s : State) : (takeItem rest s).bound = s.bound := rfl
@[simp] theorem takeItem_role (rest : List PortItem) (s : State) : (takeItem rest s).role = s.role := rfl
@[simp] theorem takeItem_ackPipe (rest : List PortItem) (s : State) : (takeItem rest s).ackPipe = s.ackPipe := rfl
@[simp] theorem takeItem_radioEnabled (rest : List PortItem) (s : State) : (takeItem rest s).radioEnabled = s.radioEnabled := rfl
@[simp] theorem takeItem_transport (rest : List PortItem) (s : State) : (takeItem rest s).transport = s.transport := rfl
@[simp] theorem takeItem_ce (rest : List PortItem) (s : State) : (takeItem rest s).ce = s.ce := rfl
@[simp] theorem takeItem_chip (rest : List PortItem) (s : State) : (takeItem rest s).chip = s.chip := rfl
@[simp] theorem takeItem_inputs (rest : List PortItem) (s : State) : (takeItem rest s).inputs = s.inputs := rfl
@[simp] theorem takeItem_history (rest : List PortItem) (s : State) : (takeItem rest s).history = s.history := rfl
@[simp] theorem takeItem_pending (rest : List PortItem) (s : State) : (takeItem rest s).pending = rest := rfl
@[simp] theorem takeItem_response (rest : List PortItem) (s : State) : (takeItem rest s).response = s.response := rfl
@[simp] theorem takeItem_noackInPrx (rest : List PortItem) (s : State) : (takeItem rest s).noackInPrx = s.noackInPrx := rfl

@[simp] theorem putItem_bound (p : PortItem) (s : State) : (putItem p s).bound = s.bound := rfl
@[simp] theorem putItem_role (p : PortItem) (s : State) : (putItem p s).role = s.role := rfl
@[simp] theorem putItem_ackPipe (p : PortItem) (s : State) : (putItem p s).ackPipe = s.ackPipe := rfl
@[simp] theorem putItem_radioEnabled (p : PortItem) (s : State) : (putItem p s).radioEnabled = s.radioEnabled := rfl
@[simp] theorem putItem_transport (p : PortItem) (s : State) : (putItem p s).transport = s.transport := rfl
@[simp] theorem putItem_ce (p : PortItem) (s : State) : (putItem p s).ce = s.ce := rfl
@[simp] theorem putItem_chip (p : PortItem) (s : State) : (putItem p s).chip = s.chip := rfl
@[simp] theorem putItem_inputs (p : PortItem) (s : State) : (putItem p s).inputs = s.inputs := rfl
@[simp] theorem putItem_history (p : PortItem) (s : State) : (putItem p s).history = s.history := rfl
@[simp] theorem putItem_pending (p : PortItem) (s : State) : (putItem p s).pending = p :: s.pending := rfl
@[simp] theorem putItem_response (p : PortItem) (s : State) : (putItem p s).response = s.response := rfl
@[simp] theorem putItem_noackInPrx (p : PortItem) (s : State) : (putItem p s).noackInPrx = s.noackInPrx := rfl

end Sys2Proof.Machine
end

