-- ==== Sys2Proof/Laws/Ops.lean ====
section
/-! SUPPORT. The shared operations: what one transaction answers and leaves, and what a run of transactions or a
`modifyRegisterBits` can do (R9, R90, R178, R190, R302). -/

namespace Sys2Proof.Machine

/-! ### Well-formed operands -/

/-- A well-formed configuration, in numbers (R62, R305). -/
theorem configOk_iff (c : RadioConfig) : configOk c = true ↔
    c.channel.toNat ≤ 125 ∧ c.power.toNat ≤ 3 ∧ c.txAddr.length = 5 ∧ c.pipe0.addr.length = 5 ∧ c.pipe1.addr.length = 5
      ∧ c.pipe2.addr.length = 1 ∧ c.pipe3.addr.length = 1 ∧ c.pipe4.addr.length = 1 ∧ c.pipe5.addr.length = 1 := by
  simp [configOk, and_assoc]

/-- A well-formed register table, in numbers (R65). -/
theorem tableOk_iff (t : List (Byte × Byte)) : tableOk t = true ↔
    ∀ p ∈ t, p.1.toNat ≤ 0x07 ∨ 0x11 ≤ p.1.toNat ∧ p.1.toNat ≤ 0x16 ∨ p.1.toNat = 0x1C ∨ p.1.toNat = 0x1D := by
  simp [tableOk, tableAddrOk, or_assoc]

/-! ### One transaction -/

theorem drawnBytes_length (h : List Event) (i : EnvInput) (c : Call) : (drawnBytes h i c).length = readLen c := by
  simp [drawnBytes]

/-- A read delivers "exactly n bytes" (R9), whatever the environment. -/
theorem reply_length (c : Call) (s : State) : (reply c s).bytes.length = readLen c := by
  unfold reply
  split
  · unfold blackBoxReply; split <;> exact drawnBytes_length _ _ _
  · unfold refChipReply; dsimp only; split
    · simp
    · exact react_length _ _ (drawnBytes_length _ _ _)
  · simp [absentReply]
  · simp [absentReply]

/-- Whatever the environment answers, a sound chip stays sound. -/
theorem reply_sound (c : Call) {s : State} (h : s.chip.Sound) : (reply c s).chip.Sound := by
  unfold reply
  split
  · unfold blackBoxReply; split <;> exact h
  · unfold refChipReply; dsimp only; split
    · exact sound_radios h _
    · exact sound_react (sound_radios h _) _ _ _
  · exact h
  · exact h

/-- A call that is no W_REGISTER leaves the register space alone, whatever the environment. -/
theorem reply_regs (c : Call) (s : State) (hc : ∀ a x, decodeWireCmd c ≠ .ok (.wRegister a x)) :
    (reply c s).chip.regs = s.chip.regs := by
  unfold reply
  split
  · unfold blackBoxReply; split <;> rfl
  · unfold refChipReply; dsimp only; split
    · exact radios_regs _ _
    · unfold RefChip.react
      split
      · rename_i d hd
        split
        · exact (run_regs _ _ d fun a x e => hc a x (e ▸ hd)).trans (radios_regs _ _)
        · exact radios_regs _ _
      · exact radios_regs _ _
  · rfl
  · rfl

/-- No call clears `faulted`, whatever the environment (R97). -/
theorem reply_faulted (c : Call) {s : State} (h : s.chip.faulted = true) : (reply c s).chip.faulted = true := by
  unfold reply
  split
  · unfold blackBoxReply; split <;> exact h
  · unfold refChipReply; dsimp only; split
    · exact (radios_faulted _ _).trans h
    · exact react_faulted ((radios_faulted _ _).trans h) _ _ _
  · exact h
  · exact h

/-- No call changes the chip's variant. -/
theorem reply_variant (c : Call) (s : State) : (reply c s).chip.variant = s.chip.variant := by
  unfold reply
  split
  · unfold blackBoxReply; split <;> rfl
  · unfold refChipReply; dsimp only; split <;> simp
  · rfl
  · rfl

theorem cnt_le_one (rc : Rc) : cnt rc ≤ 1 := by cases rc <;> simp [cnt]

theorem failed_le_one (c : Call) (s : State) : failed c s ≤ 1 := cnt_le_one _

theorem mk_ok_iff (n : Nat) : mk n = .ok ↔ n = 0 := by unfold mk; split <;> simp_all

theorem mk_transport {n k : Nat} (h : mk n = .transport k) : n = k ∧ 1 ≤ k := by
  unfold mk at h
  split at h
  · simp at h
  · simp only [Result.transport.injEq] at h; omega

theorem count_mk (n : Nat) : count (mk n) = n := by unfold mk; split <;> simp_all [count]

/-! ### Runs of transactions -/

@[simp] theorem issueAll_nil (s : State) : issueAll [] s = s := rfl
@[simp] theorem issueAll_cons (c : Call) (cs : List Call) (s : State) :
    issueAll (c :: cs) s = issueAll cs (transact c s) := rfl
@[simp] theorem failures_nil (s : State) : failures [] s = 0 := rfl
@[simp] theorem failures_cons (c : Call) (cs : List Call) (s : State) :
    failures (c :: cs) s = failed c s + failures cs (transact c s) := rfl
@[simp] theorem delivered_nil (s : State) : delivered [] s = [] := rfl
@[simp] theorem delivered_cons (c : Call) (cs : List Call) (s : State) :
    delivered (c :: cs) s = (reply c s).bytes :: delivered cs (transact c s) := rfl

theorem issueAll_append (cs ds : List Call) (s : State) : issueAll (cs ++ ds) s = issueAll ds (issueAll cs s) := by
  induction cs generalizing s with
  | nil => rfl
  | cons c cs ih => exact ih _

theorem failures_append (cs ds : List Call) (s : State) :
    failures (cs ++ ds) s = failures cs s + failures ds (issueAll cs s) := by
  induction cs generalizing s with
  | nil => simp
  | cons c cs ih => simp [ih, Nat.add_assoc]

theorem failures_le (cs : List Call) (s : State) : failures cs s ≤ cs.length := by
  induction cs generalizing s with
  | nil => simp
  | cons c cs ih =>
    have h1 := failed_le_one c s
    have h2 := ih (transact c s)
    simp only [failures_cons, List.length_cons]
    omega

theorem delivered_length (cs : List Call) (s : State) : (delivered cs s).length = cs.length := by
  induction cs generalizing s with
  | nil => rfl
  | cons c cs ih => simp [ih]

/-- A run of transactions changes the chip, the pin, the pending inputs and the history, and nothing else. -/
theorem issueAll_frame (cs : List Call) (s : State) :
    issueAll cs s =
      { s with
        ce := (issueAll cs s).ce
        chip := (issueAll cs s).chip
        inputs := (issueAll cs s).inputs
        history := (issueAll cs s).history } := by
  induction cs generalizing s with
  | nil => rfl
  | cons c cs ih => rw [issueAll_cons, ih]; rfl

@[simp] theorem issueAll_bound (cs : List Call) (s : State) : (issueAll cs s).bound = s.bound := by
  rw [issueAll_frame]
@[simp] theorem issueAll_role (cs : List Call) (s : State) : (issueAll cs s).role = s.role := by
  rw [issueAll_frame]
@[simp] theorem issueAll_ackPipe (cs : List Call) (s : State) : (issueAll cs s).ackPipe = s.ackPipe := by
  rw [issueAll_frame]
@[simp] theorem issueAll_radioEnabled (cs : List Call) (s : State) :
    (issueAll cs s).radioEnabled = s.radioEnabled := by rw [issueAll_frame]
@[simp] theorem issueAll_transport (cs : List Call) (s : State) : (issueAll cs s).transport = s.transport := by
  rw [issueAll_frame]
@[simp] theorem issueAll_pending (cs : List Call) (s : State) : (issueAll cs s).pending = s.pending := by
  rw [issueAll_frame]
@[simp] theorem issueAll_response (cs : List Call) (s : State) : (issueAll cs s).response = s.response := by
  rw [issueAll_frame]
@[simp] theorem issueAll_noackInPrx (cs : List Call) (s : State) : (issueAll cs s).noackInPrx = s.noackInPrx := by
  rw [issueAll_frame]

/-- The inputs are used up one for each transaction. -/
theorem issueAll_inputs (cs : List Call) (s : State) : (issueAll cs s).inputs = s.inputs.drop cs.length := by
  induction cs generalizing s with
  | nil => rfl
  | cons c cs ih => simp [ih]

theorem movedPin_of_still {s : State} (h : ∀ i ∈ s.inputs, i.pin = none) : movedPin s = s.ce := by
  unfold movedPin
  split
  · rfl
  · rename_i i q hi; rw [h i (by simp [hi])]; rfl

/-- Where no pending input moves the pin, a run of transactions leaves it where it is. -/
theorem issueAll_ce (cs : List Call) {s : State} (h : ∀ i ∈ s.inputs, i.pin = none) : (issueAll cs s).ce = s.ce := by
  induction cs generalizing s with
  | nil => rfl
  | cons c cs ih => exact (ih fun i hi => h i (List.mem_of_mem_tail hi)).trans (movedPin_of_still h)

theorem issueAll_sound (cs : List Call) {s : State} (h : s.chip.Sound) : (issueAll cs s).chip.Sound := by
  induction cs generalizing s with
  | nil => exact h
  | cons c cs ih => exact ih (by simpa using reply_sound c h)

/-! ### `modifyRegisterBits` -/

/-- `modifyRegisterBits` is its read, and after a read that succeeds its write as well (R178). -/
theorem modifyBits_eq (a : BitVec 5) (mask value : Byte) (s : State) :
    (modifyBits a mask value s = issueAll [readByteCall a] s ∧ modifyFailures a mask value s = 1
        ∧ (reply (readByteCall a) s).rc = .fail) ∨
    (modifyBits a mask value s = issueAll [readByteCall a, modifyCall a mask value s] s
        ∧ modifyFailures a mask value s = failed (modifyCall a mask value s) (transact (readByteCall a) s)
        ∧ (reply (readByteCall a) s).rc = .ok) := by
  unfold modifyBits modifyFailures
  cases h : (reply (readByteCall a) s).rc with
  | fail => exact .inl ⟨rfl, rfl, rfl⟩
  | ok => exact .inr ⟨rfl, rfl, rfl⟩

/-- "at most one failure is counted" (R301). -/
theorem modifyFailures_le_one (a : BitVec 5) (mask value : Byte) (s : State) : modifyFailures a mask value s ≤ 1 := by
  rcases modifyBits_eq a mask value s with ⟨-, h, -⟩ | ⟨-, h, -⟩
  · omega
  · rw [h]; exact failed_le_one _ _

/-- `modifyRegisterBits` is a run of transactions. -/
theorem modifyBits_run (a : BitVec 5) (mask value : Byte) (s : State) :
    modifyBits a mask value s = issueAll [readByteCall a] s ∨
      ∃ b, modifyBits a mask value s = issueAll [readByteCall a, writeByteCall a b] s := by
  rcases modifyBits_eq a mask value s with ⟨h, -, -⟩ | ⟨h, -, -⟩
  · exact .inl h
  · exact .inr ⟨_, h⟩

theorem modifyBits_frame (a : BitVec 5) (mask value : Byte) (s : State) :
    modifyBits a mask value s =
      { s with
        ce := (modifyBits a mask value s).ce
        chip := (modifyBits a mask value s).chip
        inputs := (modifyBits a mask value s).inputs
        history := (modifyBits a mask value s).history } := by
  rcases modifyBits_run a mask value s with h | ⟨b, h⟩ <;> rw [h] <;> exact issueAll_frame _ _

@[simp] theorem modifyBits_bound (a : BitVec 5) (m v : Byte) (s : State) : (modifyBits a m v s).bound = s.bound := by
  rw [modifyBits_frame]
@[simp] theorem modifyBits_role (a : BitVec 5) (m v : Byte) (s : State) : (modifyBits a m v s).role = s.role := by
  rw [modifyBits_frame]
@[simp] theorem modifyBits_ackPipe (a : BitVec 5) (m v : Byte) (s : State) :
    (modifyBits a m v s).ackPipe = s.ackPipe := by rw [modifyBits_frame]
@[simp] theorem modifyBits_radioEnabled (a : BitVec 5) (m v : Byte) (s : State) :
    (modifyBits a m v s).radioEnabled = s.radioEnabled := by rw [modifyBits_frame]
@[simp] theorem modifyBits_transport (a : BitVec 5) (m v : Byte) (s : State) :
    (modifyBits a m v s).transport = s.transport := by rw [modifyBits_frame]
@[simp] theorem modifyBits_pending (a : BitVec 5) (m v : Byte) (s : State) :
    (modifyBits a m v s).pending = s.pending := by rw [modifyBits_frame]
@[simp] theorem modifyBits_response (a : BitVec 5) (m v : Byte) (s : State) :
    (modifyBits a m v s).response = s.response := by rw [modifyBits_frame]
@[simp] theorem modifyBits_noackInPrx (a : BitVec 5) (m v : Byte) (s : State) :
    (modifyBits a m v s).noackInPrx = s.noackInPrx := by rw [modifyBits_frame]

theorem modifyBits_ce (a : BitVec 5) (m v : Byte) {s : State} (h : ∀ i ∈ s.inputs, i.pin = none) :
    (modifyBits a m v s).ce = s.ce := by
  rcases modifyBits_run a m v s with e | ⟨b, e⟩ <;> rw [e] <;> exact issueAll_ce _ h

theorem modifyBits_sound (a : BitVec 5) (m v : Byte) {s : State} (h : s.chip.Sound) :
    (modifyBits a m v s).chip.Sound := by
  rcases modifyBits_run a m v s with e | ⟨b, e⟩ <;> rw [e] <;> exact issueAll_sound _ h

/-! ### Responses -/

@[simp] theorem answer_eq_next {r : Result} {o : Output} {s t : State} :
    answer r o s = .next t ↔ t = respond r o s := by
  unfold answer
  constructor
  · intro h; exact (Host.Outcome.next.inj h).symm
  · rintro rfl; rfl

@[simp] theorem reject_eq_next {r : Reason} {s t : State} :
    reject r s = .next t ↔ t = respond (.rejected r) .none s := answer_eq_next

theorem whenBound_true {s : State} (h : s.bound = true) (k : Host.Outcome State Fault Refusal) :
    whenBound s k = k := by simp [whenBound, h]

theorem whenBound_false {s : State} (h : s.bound = false) (k : Host.Outcome State Fault Refusal) :
    whenBound s k = reject .notBound s := by simp [whenBound, h]

theorem whenBound_next {s t : State} {k : Host.Outcome State Fault Refusal} (h : whenBound s k = .next t) :
    (s.bound = false ∧ t = respond (.rejected .notBound) .none s) ∨ (s.bound = true ∧ k = .next t) := by
  cases hb : s.bound with
  | false => exact .inl ⟨rfl, by simpa [whenBound, hb] using h⟩
  | true => exact .inr ⟨rfl, by simpa [whenBound, hb] using h⟩

end Sys2Proof.Machine
end

