-- ==== Sys2Proof/Laws/Path.lean ====
section
/-! SUPPORT. What an instruction can do, said once: the transport calls it may issue, and that a next state of `exec` is
reached by such calls and by moves that leave the chip alone. -/

namespace Sys2Proof.Machine

/-- An event that is no bus transaction: the pin, or the transport's own `init` and `deinit` (R63). -/
def PinEvent (e : Event) : Prop := (∃ b, e = .ce b) ∨ (∃ rc, e = .tinit rc) ∨ e = .tdeinit

/-- `t` is reached from `s` by transport calls that meet `P`, by `T.init`, and by moves that change neither the chip nor,
but for pin events, the history. -/
inductive Path (P : Call → Prop) (s : State) : State → Prop where
  | here : Path P s s
  | call {t : State} (c : Call) : Path P s t → P c → Path P s (transact c t)
  | inside {t u : State} (es : List Event) : Path P s t → (∀ e ∈ es, PinEvent e) → u.chip = t.chip →
      u.history = t.history ++ es → Path P s u
  | tinit {t : State} (x : Transport) : Path P s t → Path P s (transportInit x t)

theorem Path.mono {P Q : Call → Prop} {s t : State} (h : Path P s t) (hPQ : ∀ c, P c → Q c) : Path Q s t := by
  induction h with
  | here => exact .here
  | call c _ hc ih => exact ih.call c (hPQ c hc)
  | inside es _ he hc hh ih => exact ih.inside es he hc hh
  | tinit x _ ih => exact ih.tinit x

theorem Path.respond {P : Call → Prop} {s t : State} (h : Path P s t) (r : Result) (o : Output) :
    Path P s (respond r o t) := h.inside [] (by simp) rfl (by simp)

theorem Path.driveCe {P : Call → Prop} {s t : State} (h : Path P s t) (b : Bool) : Path P s (driveCe b t) :=
  h.inside [.ce b] (by simp [PinEvent]) rfl rfl

theorem Path.release {P : Call → Prop} {s t : State} (h : Path P s t) : Path P s (release t) :=
  h.inside [.tdeinit] (by simp [PinEvent]) rfl rfl

/-- A move that changes instance registers only. -/
theorem Path.set {P : Call → Prop} {s t u : State} (h : Path P s t) (hc : u.chip = t.chip)
    (hh : u.history = t.history) : Path P s u := h.inside [] (by simp) hc (by simpa using hh)

theorem Path.issueAll {P : Call → Prop} {s t : State} (h : Path P s t) (cs : List Call) (hcs : ∀ c ∈ cs, P c) :
    Path P s (issueAll cs t) := by
  induction cs generalizing t with
  | nil => exact h
  | cons c cs ih =>
    exact ih (h.call c (hcs c (by simp))) fun d hd => hcs d (List.mem_cons_of_mem _ hd)

/-- The calls of `modifyRegisterBits` on a register. -/
def ModifyCall (a : BitVec 5) (c : Call) : Prop := c = readByteCall a ∨ ∃ b, c = writeByteCall a b

theorem Path.modifyBits {P : Call → Prop} {s t : State} (h : Path P s t) (a : BitVec 5) (m v : Byte)
    (hP : ∀ c, ModifyCall a c → P c) : Path P s (modifyBits a m v t) := by
  rcases modifyBits_run a m v t with e | ⟨b, e⟩ <;> rw [e]
  · exact h.issueAll _ (by simpa using hP _ (.inl rfl))
  · refine h.issueAll _ ?_
    intro c hc
    simp only [List.mem_cons, List.not_mem_nil, or_false] at hc
    rcases hc with rfl | rfl
    · exact hP _ (.inl rfl)
    · exact hP _ (.inr ⟨b, rfl⟩)

theorem Path.writeRoleBit {P : Call → Prop} {s t : State} (h : Path P s t) (r : Role)
    (hP : ∀ c, ModifyCall regConfig c → P c) : Path P s (writeRoleBit r t) := h.modifyBits _ _ _ hP

theorem Path.writePower {P : Call → Prop} {s t : State} (h : Path P s t) (v : Byte)
    (hP : ∀ c, ModifyCall regConfig c → P c) : Path P s (writePower v t) := h.modifyBits _ _ _ hP

/-- The calls of `checkDevice`. -/
def CheckCall (c : Call) : Prop := c = backupCall ∨ ∃ bs : List Byte, bs.length = 5 ∧ c = writeP0Call bs

theorem backup_length (s : State) : (backup s).length = 5 := reply_length _ _

theorem perturb_length (bk : List Byte) : (perturb bk).length = bk.length := by simp [perturb]

theorem checkCalls_check (s : State) : ∀ c ∈ checkCalls s, CheckCall c := by
  intro c hc
  simp only [checkCalls, List.mem_cons, List.not_mem_nil, or_false] at hc
  rcases hc with rfl | rfl | rfl | rfl
  · exact .inl rfl
  · exact .inr ⟨_, by rw [perturb_length, backup_length], rfl⟩
  · exact .inl rfl
  · exact .inr ⟨_, backup_length s, rfl⟩

/-- The transport calls that an instruction may issue. -/
def MayIssue (i : Instr) (c : Call) : Prop :=
  match i with
  | .rRegister a n => c = (WireCmd.rRegister a n).call
  | .wRegister a d => c = (WireCmd.wRegister a d).call
  | .rRxPayload n => c = (WireCmd.rRxPayload n).call
  | .wTxPayload d => c = (WireCmd.wTxPayload d).call
  | .flushTx => c = WireCmd.flushTx.call
  | .flushRx => c = WireCmd.flushRx.call
  | .reuseTxPl => c = WireCmd.reuseTxPl.call
  | .wireActivate => c = WireCmd.activate.call
  | .rRxPlWid => c = WireCmd.rRxPlWid.call
  | .wAckPayload p d => c = (WireCmd.wAckPayload p d).call
  | .wTxPayloadNoack d => c = (WireCmd.wTxPayloadNoack d).call
  | .getBits _ _ => False
  | .setBits _ _ _ => False
  | .readRegister a => c = readByteCall (regAddr a)
  | .writeRegister a b => c = writeByteCall (regAddr a) b
  | .readRegisters a n => countOk n = true ∧ c = (WireCmd.rRegister (regAddr a) n).call
  | .writeRegisters a bs => countOk bs.length = true ∧ c = (WireCmd.wRegister (regAddr a) bs).call
  | .modifyRegisterBits a _ _ => ModifyCall (regAddr a) c
  | .reuseTx => c = WireCmd.reuseTxPl.call
  | .activate => c = WireCmd.activate.call
  | .txHasSpace => c = readByteCall regFifoStatus
  | .txIsEmpty => c = readByteCall regFifoStatus
  | .txWrite d _ => d.length ≤ 32 ∧
      (c = (WireCmd.wTxPayload d).call ∨ ∃ p : Fin 6, c = (WireCmd.wAckPayload (BitVec.ofNat 3 p.val) d).call)
  | .txWriteNoAck d _ => d.length ≤ 32 ∧ c = (WireCmd.wTxPayloadNoack d).call
  | .setAckPipe _ => False
  | .getAckPipe => False
  | .rxHasData => c = readByteCall regFifoStatus
  | .rxIsFull => c = readByteCall regFifoStatus
  | .rxRead => c = WireCmd.rRxPlWid.call ∨ c = readByteCall regStatus
      ∨ ∃ n, 1 ≤ n ∧ n ≤ 32 ∧ c = (WireCmd.rRxPayload n).call
  | .txFlush => c = WireCmd.flushTx.call
  | .rxFlush => c = WireCmd.flushRx.call
  | .statusRead => c = readByteCall regStatus
  | .statusClear sel => c = writeByteCall regStatus (sel &&& 0x60)
  | .statusClearAll => c = writeByteCall regStatus 0x60
  | .clearTxFail => c = writeByteCall regStatus 0x10
  | .decode _ => False
  | .switchRole _ => c ∈ softClearCalls ∨ ModifyCall regConfig c
  | .switchRoleDirectly _ => ModifyCall regConfig c
  | .getRole => False
  | .cfgWriteDirectly cfg => configOk cfg = true ∧ c ∈ configCalls cfg
  | .cfgWriteDiff _ new => configOk new = true ∧ c ∈ configCalls new
  | .cfgRead => c ∈ readConfigCalls
  | .cfgWrite cfg => configOk cfg = true ∧ c ∈ configCalls cfg
  | .init _ => False
  | .checkDevice => CheckCall c
  | .setup _ config table => CheckCall c ∨ ModifyCall regConfig c ∨ c ∈ softClearCalls
      ∨ c ∈ tableCalls (table.getD defaultRegTable)
      ∨ (configOk (config.getD defaultUserConfig) = true ∧ c ∈ configCalls (config.getD defaultUserConfig))
  | .deinit => ModifyCall regConfig c
  | .powerUp => ModifyCall regConfig c
  | .powerDown => ModifyCall regConfig c
  | .radioOn => False
  | .radioOff => False

theorem diffCalls_mem {old : Option RadioConfig} {new : RadioConfig} {c : Call} (h : c ∈ diffCalls old new) :
    c ∈ configCalls new := by
  unfold diffCalls at h
  split at h
  · exact h
  · simp only [configCalls, List.mem_map, List.mem_filter] at h ⊢
    obtain ⟨g, ⟨hg, -⟩, rfl⟩ := h
    exact ⟨g, hg, rfl⟩

/-- The default configuration is well formed (R66). -/
theorem defaultUserConfig_ok : configOk defaultUserConfig = true := by
  unfold defaultUserConfig
  split
  · assumption
  · decide

/-- The default table meets the limits of R65. -/
theorem defaultRegTable_ok : defaultTableOk defaultRegTable = true := by
  unfold defaultRegTable
  split
  · assumption
  · decide

/-- An operation of one transaction. -/
theorem single_path {P : Call → Prop} {c : Call} {s t : State} (h : single c s = .next t) (hc : P c) : Path P s t := by
  obtain rfl := answer_eq_next.1 h
  exact (Path.here.call c hc).respond _ _

theorem answer_path {P : Call → Prop} {r : Result} {o : Output} {s u t : State} (h : answer r o u = .next t)
    (hu : Path P s u) : Path P s t := by
  obtain rfl := answer_eq_next.1 h
  exact hu.respond _ _

theorem reject_path {P : Call → Prop} {r : Reason} {s t : State} (h : reject r s = .next t) : Path P s t :=
  answer_path h .here

theorem whenBound_path {P : Call → Prop} {s t : State} {k : Host.Outcome State Fault Refusal}
    (h : whenBound s k = .next t) (hk : k = .next t → Path P s t) : Path P s t := by
  rcases whenBound_next h with ⟨-, rfl⟩ | ⟨-, hn⟩
  · exact Path.here.respond _ _
  · exact hk hn

theorem fifoQuery_path {q : Byte → Bool} {s t : State} (h : fifoQuery q s = .next t) :
    Path (fun c => c = readByteCall regFifoStatus) s t :=
  whenBound_path h fun h => answer_path h (Path.here.call _ rfl)

theorem wireStep_path {c : WireCmd} {s t : State} (h : wireStep c s = .next t) : Path (fun x => x = c.call) s t :=
  answer_path h (Path.here.call _ rfl)

theorem execRxRead_path {s t : State} (h : execRxRead s = .next t) : Path (MayIssue .rxRead) s t := by
  refine whenBound_path h fun h => ?_
  dsimp only at h
  split at h
  · exact answer_path h (Path.here.call _ (.inl rfl))
  · split at h
    · exact absurd h (by simp)
    · refine answer_path h (Path.here.issueAll _ ?_)
      intro c hc
      simp only [rxReadCalls, List.mem_cons, List.not_mem_nil, or_false] at hc
      rcases hc with rfl | rfl | rfl
      · exact .inl rfl
      · exact .inr (.inl rfl)
      · exact .inr (.inr ⟨_, by omega, by omega, rfl⟩)

theorem execTxWrite_path {d : List Byte} {n : Nat} {s t : State} (h : execTxWrite d n s = .next t) :
    Path (MayIssue (.txWrite d n)) s t := by
  refine whenBound_path h fun h => ?_
  split at h
  · rename_i hp
    simp only [payloadOk, decide_eq_true_eq] at hp
    have hd : d.length ≤ 32 := by omega
    split at h
    · exact reject_path h
    · exact reject_path h
    · exact single_path h ⟨hd, .inr ⟨_, rfl⟩⟩
    · exact single_path h ⟨hd, .inl rfl⟩
  · exact reject_path h

theorem execTxWriteNoAck_path {d : List Byte} {n : Nat} {s t : State} (h : execTxWriteNoAck d n s = .next t) :
    Path (MayIssue (.txWriteNoAck d n)) s t := by
  refine whenBound_path h fun h => ?_
  split at h
  · rename_i hp
    simp only [payloadOk, decide_eq_true_eq] at hp
    have hd : d.length ≤ 32 := by omega
    split at h
    · exact reject_path h
    · exact reject_path h
    · exact single_path h ⟨hd, rfl⟩
    · exact single_path h ⟨hd, rfl⟩
  · exact reject_path h

theorem execSwitchRole_path {b : Byte} {s t : State} (h : execSwitchRole b s = .next t) :
    Path (MayIssue (.switchRole b)) s t := by
  refine whenBound_path h fun h => ?_
  split at h
  · exact reject_path h
  · exact reject_path h
  · split at h
    · exact answer_path h .here
    · rename_i r _ _ _ _
      have h1 : Path (MayIssue (.switchRole b)) s { s with role := some r } := Path.here.set rfl rfl
      have h2 := h1.issueAll softClearCalls fun c hc => .inl hc
      exact answer_path h (h2.writeRoleBit r fun c hc => .inr hc)

theorem execSwitchRoleDirectly_path {b : Byte} {s t : State} (h : execSwitchRoleDirectly b s = .next t) :
    Path (MayIssue (.switchRoleDirectly b)) s t := by
  refine whenBound_path h fun h => ?_
  split at h
  · exact reject_path h
  · exact reject_path h
  · rename_i r _ _ _
    have h1 : Path (MayIssue (.switchRoleDirectly b)) s { s with role := some r } := Path.here.set rfl rfl
    exact answer_path h (h1.writeRoleBit r fun c hc => hc)

theorem execCfgWrite_path {cfg : RadioConfig} {s t : State} (h : execCfgWrite cfg s = .next t) :
    Path (MayIssue (.cfgWrite cfg)) s t := by
  refine whenBound_path h fun h => ?_
  split at h
  · rename_i hc
    split at h
    · exact reject_path h
    · exact answer_path h (Path.here.issueAll _ fun c hm => ⟨hc, hm⟩)
    · have h1 : Path (MayIssue (.cfgWrite cfg)) s (driveCe false s) := Path.here.driveCe false
      have h2 := h1.issueAll (configCalls cfg) fun c hm => ⟨hc, hm⟩
      exact answer_path h (h2.driveCe true)
  · exact reject_path h

theorem execInit_path {x : Transport} {s t : State} (h : execInit x s = .next t) : Path (MayIssue (.init x)) s t := by
  unfold execInit at h
  split at h
  · exact reject_path h
  · split at h
    · exact answer_path h (Path.here.tinit x)
    · exact answer_path h ((Path.here.tinit x).set rfl rfl)

theorem execSetup_path {b : Byte} {config : Option RadioConfig} {table : Option (List (Byte × Byte))} {s t : State}
    (h : execSetup b config table s = .next t) : Path (MayIssue (.setup b config table)) s t := by
  refine whenBound_path h fun h => ?_
  have hcheck : Path (MayIssue (.setup b config table)) s (checkState s) :=
    Path.here.issueAll _ fun c hc => .inl (checkCalls_check s c hc)
  split at h
  · exact reject_path h
  · split at h
    · exact reject_path h
    · split at h
      · exact reject_path h
      · rename_i hcfg _
        have hok : configOk (config.getD defaultUserConfig) = true := by
          cases config with
          | none => exact defaultUserConfig_ok
          | some c => simpa using hcfg
        dsimp only at h
        split at h
        · rename_i r _ _ _
          have hconf : ∀ c, ModifyCall regConfig c → MayIssue (.setup b config table) c := fun c hc => .inr (.inl hc)
          have h1 := (hcheck.writePower 0 hconf).driveCe false
          have h2 := h1.issueAll (setupWrites (config.getD defaultUserConfig) (table.getD defaultRegTable)) (by
            intro c hc
            simp only [setupWrites, List.mem_append] at hc
            rcases hc with (hc | hc) | hc
            · exact .inr (.inr (.inl hc))
            · exact .inr (.inr (.inr (.inl hc)))
            · exact .inr (.inr (.inr (.inr ⟨hok, hc⟩))))
          have h3 := h2.set (u := setupNamed r (config.getD defaultUserConfig) (table.getD defaultRegTable)
            (checkState s)) rfl rfl
          exact answer_path h (((h3.writeRoleBit r hconf).writePower 1 hconf).driveCe true)
        · exact answer_path h hcheck

/-- An instruction that goes on has issued only calls that it may issue, and has otherwise left the chip alone. -/
theorem exec_path {i : Instr} {s t : State} (h : exec i s = .next t) : Path (MayIssue i) s t := by
  cases i with
  | rRegister a n => exact wireStep_path h
  | wRegister a d => exact wireStep_path h
  | rRxPayload n => exact wireStep_path h
  | wTxPayload d => exact wireStep_path h
  | flushTx => exact wireStep_path h
  | flushRx => exact wireStep_path h
  | reuseTxPl => exact wireStep_path h
  | wireActivate => exact wireStep_path h
  | rRxPlWid => exact wireStep_path h
  | wAckPayload p d => exact wireStep_path h
  | wTxPayloadNoack d => exact wireStep_path h
  | getBits b m =>
    simp only [exec, execGetBits] at h
    split at h
    · exact answer_path h .here
    · exact reject_path h
  | setBits b m v =>
    simp only [exec, execSetBits] at h
    split at h
    · exact answer_path h .here
    · exact reject_path h
  | readRegister a =>
    refine whenBound_path h fun h => ?_
    split at h
    · exact answer_path h (Path.here.call _ rfl)
    · exact reject_path h
  | writeRegister a b =>
    refine whenBound_path h fun h => ?_
    split at h
    · exact single_path h rfl
    · exact reject_path h
  | readRegisters a n =>
    refine whenBound_path h fun h => ?_
    split at h
    · rename_i hc
      exact answer_path h (Path.here.call _ ⟨(Bool.and_eq_true_iff.1 hc).2, rfl⟩)
    · exact reject_path h
  | writeRegisters a bs =>
    refine whenBound_path h fun h => ?_
    split at h
    · rename_i hc
      exact single_path h ⟨(Bool.and_eq_true_iff.1 hc).2, rfl⟩
    · exact reject_path h
  | modifyRegisterBits a m v =>
    refine whenBound_path h fun h => ?_
    split at h
    · exact reject_path h
    · split at h
      · exact reject_path h
      · exact answer_path h (Path.here.modifyBits _ _ _ fun c hc => hc)
  | reuseTx => exact whenBound_path h fun h => single_path h rfl
  | activate => exact whenBound_path h fun h => single_path h rfl
  | txHasSpace => exact fifoQuery_path h
  | txIsEmpty => exact fifoQuery_path h
  | txWrite d n => exact execTxWrite_path h
  | txWriteNoAck d n => exact execTxWriteNoAck_path h
  | setAckPipe p =>
    refine whenBound_path h fun h => ?_
    split at h
    · exact answer_path h (Path.here.set rfl rfl)
    · exact reject_path h
  | getAckPipe =>
    refine whenBound_path h fun h => ?_
    split at h
    · exact answer_path h .here
    · exact reject_path h
  | rxHasData => exact fifoQuery_path h
  | rxIsFull => exact fifoQuery_path h
  | rxRead => exact execRxRead_path h
  | txFlush => exact whenBound_path h fun h => single_path h rfl
  | rxFlush => exact whenBound_path h fun h => single_path h rfl
  | statusRead => exact whenBound_path h fun h => answer_path h (Path.here.call _ rfl)
  | statusClear sel => exact whenBound_path h fun h => single_path h rfl
  | statusClearAll => exact whenBound_path h fun h => single_path h rfl
  | clearTxFail => exact whenBound_path h fun h => single_path h rfl
  | decode b => exact answer_path h .here
  | switchRole r => exact execSwitchRole_path h
  | switchRoleDirectly r => exact execSwitchRoleDirectly_path h
  | getRole =>
    refine whenBound_path h fun h => ?_
    split at h
    · exact answer_path h .here
    · exact reject_path h
  | cfgWriteDirectly cfg =>
    refine whenBound_path h fun h => ?_
    split at h
    · rename_i hc
      exact answer_path h (Path.here.issueAll _ fun c hm => ⟨hc, hm⟩)
    · exact reject_path h
  | cfgWriteDiff old new =>
    refine whenBound_path h fun h => ?_
    split at h
    · rename_i hc
      exact answer_path h (Path.here.issueAll _ fun c hm => ⟨(Bool.and_eq_true_iff.1 hc).2, diffCalls_mem hm⟩)
    · exact reject_path h
  | cfgRead => exact whenBound_path h fun h => answer_path h (Path.here.issueAll _ fun c hm => hm)
  | cfgWrite cfg => exact execCfgWrite_path h
  | init x => exact execInit_path h
  | checkDevice =>
    exact whenBound_path h fun h => answer_path h (Path.here.issueAll _ fun c hm => checkCalls_check s c hm)
  | setup r c t => exact execSetup_path h
  | deinit =>
    simp only [exec, execDeinit] at h
    split at h
    · exact answer_path h ((Path.here.modifyBits _ _ _ fun c hc => hc).driveCe _).release
    · exact answer_path h .here
  | powerUp => exact whenBound_path h fun h => answer_path h (Path.here.modifyBits _ _ _ fun c hc => hc)
  | powerDown => exact whenBound_path h fun h => answer_path h (Path.here.modifyBits _ _ _ fun c hc => hc)
  | radioOn => exact whenBound_path h fun h => answer_path h (Path.here.driveCe _)
  | radioOff => exact whenBound_path h fun h => answer_path h (Path.here.driveCe _)

/-! ### What follows from a path -/

/-- The chip stays sound along a path. -/
theorem Path.sound {P : Call → Prop} {s t : State} (h : Path P s t) (hs : s.chip.Sound) : t.chip.Sound := by
  induction h with
  | here => exact hs
  | call c _ _ ih => exact reply_sound c ih
  | inside es _ _ hc _ ih => exact hc ▸ ih
  | tinit x _ ih =>
    rw [transportInit_chip]
    unfold initChip
    split
    · exact sound_radios ih _
    all_goals exact ih

/-- RefChip's `faulted` stays set along a path (R97). -/
theorem Path.faulted {P : Call → Prop} {s t : State} (h : Path P s t) (hs : s.chip.faulted = true) :
    t.chip.faulted = true := by
  induction h with
  | here => exact hs
  | call c _ _ ih => exact reply_faulted c ih
  | inside es _ _ hc _ ih => exact hc ▸ ih
  | tinit x _ ih =>
    rw [transportInit_chip]
    unfold initChip
    split
    · exact (radios_faulted _ _).trans ih
    all_goals exact ih

/-- The chip's variant stays along a path. -/
theorem Path.variant {P : Call → Prop} {s t : State} (h : Path P s t) : t.chip.variant = s.chip.variant := by
  induction h with
  | here => rfl
  | call c _ _ ih => exact (reply_variant c _).trans ih
  | inside es _ _ hc _ ih => exact (congrArg RefChip.variant hc).trans ih
  | tinit x _ ih =>
    rw [transportInit_chip]
    unfold initChip
    split
    · exact (radios_variant _ _).trans ih
    all_goals exact ih

/-- The history grows along a path, by pin events and by the events of calls that meet the path's condition (R63). -/
theorem Path.history {P : Call → Prop} {s t : State} (h : Path P s t) :
    ∃ es, t.history = s.history ++ es ∧ ∀ e ∈ es, PinEvent e ∨ ∃ c rc bs, P c ∧ e = eventOf c rc bs := by
  induction h with
  | here => exact ⟨[], by simp, by simp⟩
  | @call u c _ hc ih =>
    obtain ⟨es, he, hp⟩ := ih
    refine ⟨es ++ [eventIn c u], by simp [he], ?_⟩
    intro e hm
    rcases List.mem_append.1 hm with hm | hm
    · exact hp e hm
    · obtain rfl := List.mem_singleton.1 hm
      exact .inr ⟨c, _, _, hc, rfl⟩
  | inside fs _ hf _ hh ih =>
    obtain ⟨es, he, hp⟩ := ih
    refine ⟨es ++ fs, by simp [hh, he], ?_⟩
    intro e hm
    rcases List.mem_append.1 hm with hm | hm
    · exact hp e hm
    · exact .inl (hf e hm)
  | @tinit u x _ ih =>
    obtain ⟨es, he, hp⟩ := ih
    refine ⟨es ++ [.tinit (initRc x u)], by simp [he], ?_⟩
    intro e hm
    rcases List.mem_append.1 hm with hm | hm
    · exact hp e hm
    · obtain rfl := List.mem_singleton.1 hm
      exact .inl (.inr (.inl ⟨_, rfl⟩))

end Sys2Proof.Machine
end

