-- ==== Sys2Proof/Laws/PerInstr.lean ====
section
/-! SUPPORT. Per instruction: the request that carries it is on the port of its row of the opcode table, and its first byte
has the bits the row fixes (R134, R138). -/

/-- A row of the opcode table: its space and the bits it fixes. -/
structure Sys2Proof.Laws.TableRow where
  onWire : Bool
  mask : Sys2Proof.Byte
  pattern : Sys2Proof.Byte

/-- The row of an instruction, copied from the opcode table. -/
def Sys2Proof.Laws.rowOf : Sys2Proof.Instr → Sys2Proof.Laws.TableRow
  | .rRegister _ _ => ⟨true, 0xE0, 0x00⟩
  | .wRegister _ _ => ⟨true, 0xE0, 0x20⟩
  | .rRxPayload _ => ⟨true, 0xFF, 0x61⟩
  | .wTxPayload _ => ⟨true, 0xFF, 0xA0⟩
  | .flushTx => ⟨true, 0xFF, 0xE1⟩
  | .flushRx => ⟨true, 0xFF, 0xE2⟩
  | .reuseTxPl => ⟨true, 0xFF, 0xE3⟩
  | .wireActivate => ⟨true, 0xFF, 0x50⟩
  | .rRxPlWid => ⟨true, 0xFF, 0x60⟩
  | .wAckPayload _ _ => ⟨true, 0xF8, 0xA8⟩
  | .wTxPayloadNoack _ => ⟨true, 0xFF, 0xB0⟩
  | .getBits _ _ => ⟨false, 0xFF, 0x00⟩
  | .setBits _ _ _ => ⟨false, 0xFF, 0x01⟩
  | .readRegister _ => ⟨false, 0xFF, 0x02⟩
  | .writeRegister _ _ => ⟨false, 0xFF, 0x03⟩
  | .readRegisters _ _ => ⟨false, 0xFF, 0x04⟩
  | .writeRegisters _ _ => ⟨false, 0xFF, 0x05⟩
  | .modifyRegisterBits _ _ _ => ⟨false, 0xFF, 0x06⟩
  | .reuseTx => ⟨false, 0xFF, 0x10⟩
  | .activate => ⟨false, 0xFF, 0x11⟩
  | .txHasSpace => ⟨false, 0xFF, 0x20⟩
  | .txIsEmpty => ⟨false, 0xFF, 0x21⟩
  | .txWrite _ _ => ⟨false, 0xFF, 0x22⟩
  | .txWriteNoAck _ _ => ⟨false, 0xFF, 0x23⟩
  | .setAckPipe _ => ⟨false, 0xFF, 0x24⟩
  | .getAckPipe => ⟨false, 0xFF, 0x25⟩
  | .rxHasData => ⟨false, 0xFF, 0x26⟩
  | .rxIsFull => ⟨false, 0xFF, 0x27⟩
  | .rxRead => ⟨false, 0xFF, 0x28⟩
  | .txFlush => ⟨false, 0xFF, 0x29⟩
  | .rxFlush => ⟨false, 0xFF, 0x2A⟩
  | .statusRead => ⟨false, 0xFF, 0x30⟩
  | .statusClear _ => ⟨false, 0xFF, 0x31⟩
  | .statusClearAll => ⟨false, 0xFF, 0x32⟩
  | .clearTxFail => ⟨false, 0xFF, 0x33⟩
  | .decode _ => ⟨false, 0xFF, 0x34⟩
  | .switchRole _ => ⟨false, 0xFF, 0x40⟩
  | .switchRoleDirectly _ => ⟨false, 0xFF, 0x41⟩
  | .getRole => ⟨false, 0xFF, 0x42⟩
  | .cfgWriteDirectly _ => ⟨false, 0xFF, 0x50⟩
  | .cfgWriteDiff _ _ => ⟨false, 0xFF, 0x51⟩
  | .cfgRead => ⟨false, 0xFF, 0x52⟩
  | .cfgWrite _ => ⟨false, 0xFF, 0x53⟩
  | .init _ => ⟨false, 0xFF, 0x60⟩
  | .checkDevice => ⟨false, 0xFF, 0x61⟩
  | .setup _ _ _ => ⟨false, 0xFF, 0x62⟩
  | .deinit => ⟨false, 0xFF, 0x63⟩
  | .powerUp => ⟨false, 0xFF, 0x64⟩
  | .powerDown => ⟨false, 0xFF, 0x65⟩
  | .radioOn => ⟨false, 0xFF, 0x66⟩
  | .radioOff => ⟨false, 0xFF, 0x67⟩

/-- A request on the row's port whose first byte has the row's bits. -/
def Sys2Proof.Laws.RequestHasRow (q : Sys2Proof.Request) (r : Sys2Proof.Laws.TableRow) : Prop :=
  match q with
  | .host op _ => r.onWire = false ∧ op &&& r.mask = r.pattern
  | .wire (.send bs) => r.onWire = true ∧ bs.headD 0 &&& r.mask = r.pattern
  | .wire (.send2 bs _) => r.onWire = true ∧ bs.headD 0 &&& r.mask = r.pattern
  | .wire (.xfer bs _) => r.onWire = true ∧ bs.headD 0 &&& r.mask = r.pattern

/-- The request of an instruction carries its row's opcode. -/
def Sys2Proof.Laws.CarriesItsRowsOpcode.Statement (i : Sys2Proof.Instr) : Prop :=
  Sys2Proof.Laws.RequestHasRow (Sys2Proof.encode i) (Sys2Proof.Laws.rowOf i)

theorem Sys2Proof.Laws.field_under_a : ∀ a : BitVec 5,
    ((0x00 : Sys2Proof.Byte) ||| a.setWidth 8) &&& 0xE0 = 0x00 ∧ ((0x20 : Sys2Proof.Byte) ||| a.setWidth 8) &&& 0xE0 = 0x20 := by
  decide

theorem Sys2Proof.Laws.byte_and_ff : ∀ b : Sys2Proof.Byte, b &&& 0xFF = b := by decide

theorem Sys2Proof.Laws.field_under_p : ∀ p : BitVec 3,
    ((0xA8 : Sys2Proof.Byte) ||| p.setWidth 8) &&& 0xF8 = 0xA8 := by
  decide

theorem Sys2Proof.Laws.CarriesItsRowsOpcode.rRegister (addr : BitVec 5) (n : Nat) :
    Sys2Proof.Laws.CarriesItsRowsOpcode.Statement (.rRegister addr n) := ⟨rfl, (Sys2Proof.Laws.field_under_a addr).1⟩

theorem Sys2Proof.Laws.CarriesItsRowsOpcode.wRegister (addr : BitVec 5) (data : List Sys2Proof.Byte) :
    Sys2Proof.Laws.CarriesItsRowsOpcode.Statement (.wRegister addr data) := ⟨rfl, (Sys2Proof.Laws.field_under_a addr).2⟩

theorem Sys2Proof.Laws.CarriesItsRowsOpcode.rRxPayload (n : Nat) :
    Sys2Proof.Laws.CarriesItsRowsOpcode.Statement (.rRxPayload n) := ⟨rfl, Sys2Proof.Laws.byte_and_ff _⟩

theorem Sys2Proof.Laws.CarriesItsRowsOpcode.wTxPayload (data : List Sys2Proof.Byte) :
    Sys2Proof.Laws.CarriesItsRowsOpcode.Statement (.wTxPayload data) := ⟨rfl, Sys2Proof.Laws.byte_and_ff _⟩

theorem Sys2Proof.Laws.CarriesItsRowsOpcode.flushTx :
    Sys2Proof.Laws.CarriesItsRowsOpcode.Statement .flushTx := ⟨rfl, rfl⟩

theorem Sys2Proof.Laws.CarriesItsRowsOpcode.flushRx :
    Sys2Proof.Laws.CarriesItsRowsOpcode.Statement .flushRx := ⟨rfl, rfl⟩

theorem Sys2Proof.Laws.CarriesItsRowsOpcode.reuseTxPl :
    Sys2Proof.Laws.CarriesItsRowsOpcode.Statement .reuseTxPl := ⟨rfl, rfl⟩

theorem Sys2Proof.Laws.CarriesItsRowsOpcode.wireActivate :
    Sys2Proof.Laws.CarriesItsRowsOpcode.Statement .wireActivate := ⟨rfl, rfl⟩

theorem Sys2Proof.Laws.CarriesItsRowsOpcode.rRxPlWid :
    Sys2Proof.Laws.CarriesItsRowsOpcode.Statement .rRxPlWid := ⟨rfl, rfl⟩

theorem Sys2Proof.Laws.CarriesItsRowsOpcode.wAckPayload (pipe : BitVec 3) (data : List Sys2Proof.Byte) :
    Sys2Proof.Laws.CarriesItsRowsOpcode.Statement (.wAckPayload pipe data) := ⟨rfl, Sys2Proof.Laws.field_under_p pipe⟩

theorem Sys2Proof.Laws.CarriesItsRowsOpcode.wTxPayloadNoack (data : List Sys2Proof.Byte) :
    Sys2Proof.Laws.CarriesItsRowsOpcode.Statement (.wTxPayloadNoack data) := ⟨rfl, Sys2Proof.Laws.byte_and_ff _⟩

theorem Sys2Proof.Laws.CarriesItsRowsOpcode.getBits (byte : Sys2Proof.Byte) (mask : Sys2Proof.Byte) :
    Sys2Proof.Laws.CarriesItsRowsOpcode.Statement (.getBits byte mask) := ⟨rfl, Sys2Proof.Laws.byte_and_ff _⟩

theorem Sys2Proof.Laws.CarriesItsRowsOpcode.setBits (byte : Sys2Proof.Byte) (mask : Sys2Proof.Byte) (value : Sys2Proof.Byte) :
    Sys2Proof.Laws.CarriesItsRowsOpcode.Statement (.setBits byte mask value) := ⟨rfl, Sys2Proof.Laws.byte_and_ff _⟩

theorem Sys2Proof.Laws.CarriesItsRowsOpcode.readRegister (addr : Sys2Proof.Byte) :
    Sys2Proof.Laws.CarriesItsRowsOpcode.Statement (.readRegister addr) := ⟨rfl, Sys2Proof.Laws.byte_and_ff _⟩

theorem Sys2Proof.Laws.CarriesItsRowsOpcode.writeRegister (addr : Sys2Proof.Byte) (byte : Sys2Proof.Byte) :
    Sys2Proof.Laws.CarriesItsRowsOpcode.Statement (.writeRegister addr byte) := ⟨rfl, Sys2Proof.Laws.byte_and_ff _⟩

theorem Sys2Proof.Laws.CarriesItsRowsOpcode.readRegisters (addr : Sys2Proof.Byte) (n : Nat) :
    Sys2Proof.Laws.CarriesItsRowsOpcode.Statement (.readRegisters addr n) := ⟨rfl, Sys2Proof.Laws.byte_and_ff _⟩

theorem Sys2Proof.Laws.CarriesItsRowsOpcode.writeRegisters (addr : Sys2Proof.Byte) (bytes : List Sys2Proof.Byte) :
    Sys2Proof.Laws.CarriesItsRowsOpcode.Statement (.writeRegisters addr bytes) := ⟨rfl, Sys2Proof.Laws.byte_and_ff _⟩

theorem Sys2Proof.Laws.CarriesItsRowsOpcode.modifyRegisterBits (reg : Sys2Proof.Byte) (mask : Sys2Proof.Byte) (value : Sys2Proof.Byte) :
    Sys2Proof.Laws.CarriesItsRowsOpcode.Statement (.modifyRegisterBits reg mask value) := ⟨rfl, Sys2Proof.Laws.byte_and_ff _⟩

theorem Sys2Proof.Laws.CarriesItsRowsOpcode.reuseTx :
    Sys2Proof.Laws.CarriesItsRowsOpcode.Statement .reuseTx := ⟨rfl, rfl⟩

theorem Sys2Proof.Laws.CarriesItsRowsOpcode.activate :
    Sys2Proof.Laws.CarriesItsRowsOpcode.Statement .activate := ⟨rfl, rfl⟩

theorem Sys2Proof.Laws.CarriesItsRowsOpcode.txHasSpace :
    Sys2Proof.Laws.CarriesItsRowsOpcode.Statement .txHasSpace := ⟨rfl, rfl⟩

theorem Sys2Proof.Laws.CarriesItsRowsOpcode.txIsEmpty :
    Sys2Proof.Laws.CarriesItsRowsOpcode.Statement .txIsEmpty := ⟨rfl, rfl⟩

theorem Sys2Proof.Laws.CarriesItsRowsOpcode.txWrite (data : List Sys2Proof.Byte) (len : Nat) :
    Sys2Proof.Laws.CarriesItsRowsOpcode.Statement (.txWrite data len) := ⟨rfl, Sys2Proof.Laws.byte_and_ff _⟩

theorem Sys2Proof.Laws.CarriesItsRowsOpcode.txWriteNoAck (data : List Sys2Proof.Byte) (len : Nat) :
    Sys2Proof.Laws.CarriesItsRowsOpcode.Statement (.txWriteNoAck data len) := ⟨rfl, Sys2Proof.Laws.byte_and_ff _⟩

theorem Sys2Proof.Laws.CarriesItsRowsOpcode.setAckPipe (pipe : Sys2Proof.Byte) :
    Sys2Proof.Laws.CarriesItsRowsOpcode.Statement (.setAckPipe pipe) := ⟨rfl, Sys2Proof.Laws.byte_and_ff _⟩

theorem Sys2Proof.Laws.CarriesItsRowsOpcode.getAckPipe :
    Sys2Proof.Laws.CarriesItsRowsOpcode.Statement .getAckPipe := ⟨rfl, rfl⟩

theorem Sys2Proof.Laws.CarriesItsRowsOpcode.rxHasData :
    Sys2Proof.Laws.CarriesItsRowsOpcode.Statement .rxHasData := ⟨rfl, rfl⟩

theorem Sys2Proof.Laws.CarriesItsRowsOpcode.rxIsFull :
    Sys2Proof.Laws.CarriesItsRowsOpcode.Statement .rxIsFull := ⟨rfl, rfl⟩

theorem Sys2Proof.Laws.CarriesItsRowsOpcode.rxRead :
    Sys2Proof.Laws.CarriesItsRowsOpcode.Statement .rxRead := ⟨rfl, rfl⟩

theorem Sys2Proof.Laws.CarriesItsRowsOpcode.txFlush :
    Sys2Proof.Laws.CarriesItsRowsOpcode.Statement .txFlush := ⟨rfl, rfl⟩

theorem Sys2Proof.Laws.CarriesItsRowsOpcode.rxFlush :
    Sys2Proof.Laws.CarriesItsRowsOpcode.Statement .rxFlush := ⟨rfl, rfl⟩

theorem Sys2Proof.Laws.CarriesItsRowsOpcode.statusRead :
    Sys2Proof.Laws.CarriesItsRowsOpcode.Statement .statusRead := ⟨rfl, rfl⟩

theorem Sys2Proof.Laws.CarriesItsRowsOpcode.statusClear (sel : Sys2Proof.Byte) :
    Sys2Proof.Laws.CarriesItsRowsOpcode.Statement (.statusClear sel) := ⟨rfl, Sys2Proof.Laws.byte_and_ff _⟩

theorem Sys2Proof.Laws.CarriesItsRowsOpcode.statusClearAll :
    Sys2Proof.Laws.CarriesItsRowsOpcode.Statement .statusClearAll := ⟨rfl, rfl⟩

theorem Sys2Proof.Laws.CarriesItsRowsOpcode.clearTxFail :
    Sys2Proof.Laws.CarriesItsRowsOpcode.Statement .clearTxFail := ⟨rfl, rfl⟩

theorem Sys2Proof.Laws.CarriesItsRowsOpcode.decode (rawStatus : Sys2Proof.Byte) :
    Sys2Proof.Laws.CarriesItsRowsOpcode.Statement (.decode rawStatus) := ⟨rfl, Sys2Proof.Laws.byte_and_ff _⟩

theorem Sys2Proof.Laws.CarriesItsRowsOpcode.switchRole (role : Sys2Proof.Byte) :
    Sys2Proof.Laws.CarriesItsRowsOpcode.Statement (.switchRole role) := ⟨rfl, Sys2Proof.Laws.byte_and_ff _⟩

theorem Sys2Proof.Laws.CarriesItsRowsOpcode.switchRoleDirectly (role : Sys2Proof.Byte) :
    Sys2Proof.Laws.CarriesItsRowsOpcode.Statement (.switchRoleDirectly role) := ⟨rfl, Sys2Proof.Laws.byte_and_ff _⟩

theorem Sys2Proof.Laws.CarriesItsRowsOpcode.getRole :
    Sys2Proof.Laws.CarriesItsRowsOpcode.Statement .getRole := ⟨rfl, rfl⟩

theorem Sys2Proof.Laws.CarriesItsRowsOpcode.cfgWriteDirectly (config : Sys2Proof.RadioConfig) :
    Sys2Proof.Laws.CarriesItsRowsOpcode.Statement (.cfgWriteDirectly config) := ⟨rfl, Sys2Proof.Laws.byte_and_ff _⟩

theorem Sys2Proof.Laws.CarriesItsRowsOpcode.cfgWriteDiff (old : Option Sys2Proof.RadioConfig) (new : Sys2Proof.RadioConfig) :
    Sys2Proof.Laws.CarriesItsRowsOpcode.Statement (.cfgWriteDiff old new) := ⟨rfl, Sys2Proof.Laws.byte_and_ff _⟩

theorem Sys2Proof.Laws.CarriesItsRowsOpcode.cfgRead :
    Sys2Proof.Laws.CarriesItsRowsOpcode.Statement .cfgRead := ⟨rfl, rfl⟩

theorem Sys2Proof.Laws.CarriesItsRowsOpcode.cfgWrite (config : Sys2Proof.RadioConfig) :
    Sys2Proof.Laws.CarriesItsRowsOpcode.Statement (.cfgWrite config) := ⟨rfl, Sys2Proof.Laws.byte_and_ff _⟩

theorem Sys2Proof.Laws.CarriesItsRowsOpcode.init (transport : Sys2Proof.Transport) :
    Sys2Proof.Laws.CarriesItsRowsOpcode.Statement (.init transport) := ⟨rfl, Sys2Proof.Laws.byte_and_ff _⟩

theorem Sys2Proof.Laws.CarriesItsRowsOpcode.checkDevice :
    Sys2Proof.Laws.CarriesItsRowsOpcode.Statement .checkDevice := ⟨rfl, rfl⟩

theorem Sys2Proof.Laws.CarriesItsRowsOpcode.setup (role : Sys2Proof.Byte) (config : Option Sys2Proof.RadioConfig) (registerList : Option (List (Sys2Proof.Byte × Sys2Proof.Byte))) :
    Sys2Proof.Laws.CarriesItsRowsOpcode.Statement (.setup role config registerList) := ⟨rfl, Sys2Proof.Laws.byte_and_ff _⟩

theorem Sys2Proof.Laws.CarriesItsRowsOpcode.deinit :
    Sys2Proof.Laws.CarriesItsRowsOpcode.Statement .deinit := ⟨rfl, rfl⟩

theorem Sys2Proof.Laws.CarriesItsRowsOpcode.powerUp :
    Sys2Proof.Laws.CarriesItsRowsOpcode.Statement .powerUp := ⟨rfl, rfl⟩

theorem Sys2Proof.Laws.CarriesItsRowsOpcode.powerDown :
    Sys2Proof.Laws.CarriesItsRowsOpcode.Statement .powerDown := ⟨rfl, rfl⟩

theorem Sys2Proof.Laws.CarriesItsRowsOpcode.radioOn :
    Sys2Proof.Laws.CarriesItsRowsOpcode.Statement .radioOn := ⟨rfl, rfl⟩

theorem Sys2Proof.Laws.CarriesItsRowsOpcode.radioOff :
    Sys2Proof.Laws.CarriesItsRowsOpcode.Statement .radioOff := ⟨rfl, rfl⟩
end

