-- ==== Sys2Proof/Tests/Slice0.lean ====
section
/-! SUPPORT. The model's own tests: ill-formed terms refused, the words of every instruction written out from R134 and R138,
single steps from the worked examples and vectors of 95_test_vectors.md, and for every statement with hypotheses a state and
operands that meet them. -/

namespace Sys2Proof.Tests

open Sys2Proof Sys2Proof.Machine Sys2Proof.Claims

/-! ### Small states -/

/-- An instance set up in a role on RefChip, radio on, acknowledgement pipe 0, with pending inputs. -/
def ready (r : Role) (c : RefChip) (ins : List EnvInput) : State :=
  { State.reset with
    bound := true, role := some r, ackPipe := some 0, radioEnabled := some true, ce := true
    transport := .refChip, chip := c, inputs := ins }

/-- An instance after `init` only. -/
def fresh : State := { State.reset with bound := true, ackPipe := some 0, transport := .refChip }

/-- A power-on chip whose `CONFIG` is 0E, as program P1 leaves it; and with `CONFIG` = 0F, as P3 has it. -/
def upChip : RefChip := { RefChip.por with regs := [(0x00, 0x0E)] }
def rxChip : RefChip := { RefChip.por with regs := [(0x00, 0x0F)] }

/-- An injected failure, and an override of the payload width. -/
def failing : EnvInput := ⟨[], .fail, [], none, none⟩
def wide (w : Byte) : EnvInput := ⟨[], .ok, [], some w, none⟩

/-- A chip with one received packet on pipe 1 (V-FIFO-5), and one with full queues. -/
def rxOne : RefChip := { RefChip.por with rxq := [⟨1, [0x48, 0x49]⟩], rxDr := true }
def fullChip : RefChip :=
  { RefChip.por with
    txq := [⟨.plain, [0]⟩, ⟨.noack, [1]⟩, ⟨.ack 2, [2]⟩], rxq := [⟨0, [1]⟩, ⟨5, [2]⟩, ⟨1, [3]⟩], rxDr := true }

/-- The chip of the next state of an outcome. -/
def chipOf : Host.Outcome State Fault Refusal → Option RefChip
  | .next t => some t.chip
  | .fault _ => none
  | .refused _ => none

/-- The instance registers and the pin of the next state. -/
def registersOf : Host.Outcome State Fault Refusal → Option (Bool × Option Role × Option (Fin 6) × Option Bool × Bool)
  | .next t => some (t.bound, t.role, t.ackPipe, t.radioEnabled, t.ce)
  | .fault _ => none
  | .refused _ => none

/-- Five times a byte. -/
def five (b : Byte) : List Byte := [b, b, b, b, b]

/-- `NEW` of section 2.6: `CFG` with channel 28 and pipe 3 enabled. -/
def newConfig : RadioConfig := { exampleConfig with channel := 0x28, pipe3 := ⟨true, false, [0xC4]⟩ }

/-- A refused operation, as the outside sees it. -/
def refusedWith (r : Reason) : Option (List Event × Option Response) := some ([], some ⟨.rejected r, .none⟩)

/-! ### Well-formedness: one ill-formed term for each check -/

theorem test_wf_rRegister_no_byte : Instr.wf (.rRegister 0x05 0) = false := by decide
theorem test_wf_wRegister_six_bytes : Instr.wf (.wRegister 0x0A [1, 2, 3, 4, 5, 6]) = false := by decide
theorem test_wf_rRxPayload_33 : Instr.wf (.rRxPayload 33) = false := by decide
theorem test_wf_wTxPayload_33 : Instr.wf (.wTxPayload (List.replicate 33 0)) = false := by decide
theorem test_wf_wAckPayload_pipe_6 : Instr.wf (.wAckPayload 6 [1]) = false := by decide
theorem test_wf_wAckPayload_33 : Instr.wf (.wAckPayload 0 (List.replicate 33 0)) = false := by decide
theorem test_wf_wTxPayloadNoack_33 : Instr.wf (.wTxPayloadNoack (List.replicate 33 0)) = false := by decide
theorem test_wf_getBits_gap : Instr.wf (.getBits 0xFF 0x05) = false := by decide
theorem test_wf_setBits_zero_mask : Instr.wf (.setBits 0 0x00 1) = false := by decide
theorem test_wf_readRegister_20 : Instr.wf (.readRegister 0x20) = false := by decide
theorem test_wf_writeRegister_20 : Instr.wf (.writeRegister 0x20 0) = false := by decide
theorem test_wf_readRegisters_six : Instr.wf (.readRegisters 0x0A 6) = false := by decide
theorem test_wf_readRegisters_addr : Instr.wf (.readRegisters 0x20 1) = false := by decide
theorem test_wf_writeRegisters_empty : Instr.wf (.writeRegisters 0x0A []) = false := by decide
theorem test_wf_writeRegisters_addr : Instr.wf (.writeRegisters 0x20 [1]) = false := by decide
theorem test_wf_modify_reg : Instr.wf (.modifyRegisterBits 0x20 0x01 0) = false := by decide
theorem test_wf_modify_mask : Instr.wf (.modifyRegisterBits 0x00 0x81 0) = false := by decide
theorem test_wf_txWrite_length_differs : Instr.wf (.txWrite [1, 2] 3) = false := by decide
theorem test_wf_txWriteNoAck_33 : Instr.wf (.txWriteNoAck (List.replicate 33 0) 33) = false := by decide
theorem test_wf_setAckPipe_6 : Instr.wf (.setAckPipe 6) = false := by decide
theorem test_wf_switchRole_2 : Instr.wf (.switchRole 2) = false := by decide
theorem test_wf_switchRoleDirectly_2 : Instr.wf (.switchRoleDirectly 2) = false := by decide
theorem test_wf_config_channel_126 : Instr.wf (.cfgWriteDirectly { exampleConfig with channel := 126 }) = false := by decide
theorem test_wf_config_power_4 : Instr.wf (.cfgWrite { exampleConfig with power := 4 }) = false := by decide
theorem test_wf_config_address : Instr.wf (.cfgWriteDirectly { exampleConfig with txAddr := [1, 2, 3, 4] }) = false := by
  decide
theorem test_wf_config_pipe_address :
    Instr.wf (.cfgWriteDirectly { exampleConfig with pipe2 := ⟨true, true, five 1⟩ }) = false := by decide
theorem test_wf_diff_old : Instr.wf (.cfgWriteDiff (some { exampleConfig with power := 4 }) exampleConfig) = false := by
  decide
theorem test_wf_diff_new : Instr.wf (.cfgWriteDiff none { exampleConfig with channel := 255 }) = false := by decide
theorem test_wf_setup_role : Instr.wf (.setup 2 none none) = false := by decide
theorem test_wf_setup_config : Instr.wf (.setup 0 (some { exampleConfig with power := 4 }) none) = false := by decide
theorem test_wf_setup_table : Instr.wf (.setup 0 none (some [(0x0A, 1)])) = false := by decide
theorem test_wf_examples :
    Instr.wf (.setup 1 (some newConfig) (some exampleTable)) = true ∧ defaultTableOk exampleTable = true
      ∧ defaultTableOk (exampleTable.map fun p => if p.1 = 0x1C then (p.1, 0x00) else p) = false := by decide

/-! ### Words written out from the encodings of R131 to R134 and R138 -/

theorem test_decode_rRegister : decode (.wire (.xfer [0b00011111] 1)) = .ok (.rRegister 0x1F 1) := by decide
theorem test_decode_wRegister : decode (.wire (.send2 [0b00110000] [1, 2, 3, 4, 5])) = .ok (.wRegister 0x10 [1, 2, 3, 4, 5]) := by
  decide
theorem test_decode_rRxPayload : decode (.wire (.xfer [0b01100001] 32)) = .ok (.rRxPayload 32) := by decide
theorem test_decode_wTxPayload : decode (.wire (.send2 [0b10100000] [0x48, 0x49])) = .ok (.wTxPayload [0x48, 0x49]) := by
  decide
theorem test_decode_flushTx : decode (.wire (.send [0b11100001])) = .ok .flushTx := by decide
theorem test_decode_flushRx : decode (.wire (.send [0b11100010])) = .ok .flushRx := by decide
theorem test_decode_reuseTxPl : decode (.wire (.send [0b11100011])) = .ok .reuseTxPl := by decide
theorem test_decode_wireActivate : decode (.wire (.send [0b01010000, 0b01110011])) = .ok .wireActivate := by decide
theorem test_decode_rRxPlWid : decode (.wire (.xfer [0b01100000] 1)) = .ok .rRxPlWid := by decide
theorem test_decode_wAckPayload : decode (.wire (.send2 [0b10101101] [0x10])) = .ok (.wAckPayload 5 [0x10]) := by decide
theorem test_decode_wTxPayloadNoack : decode (.wire (.send2 [0b10110000] [0xFF])) = .ok (.wTxPayloadNoack [0xFF]) := by
  decide
theorem test_decode_getBits : decode (.host 0b00000000 [0x2B, 0x0E]) = .ok (.getBits 0x2B 0x0E) := by decide
theorem test_decode_setBits : decode (.host 0b00000001 [1, 2, 3]) = .ok (.setBits 1 2 3) := by decide
theorem test_decode_readRegister : decode (.host 0b00000010 [0x05]) = .ok (.readRegister 0x05) := by decide
theorem test_decode_writeRegister : decode (.host 0b00000011 [0x05, 0x4C]) = .ok (.writeRegister 0x05 0x4C) := by decide
theorem test_decode_readRegisters : decode (.host 0b00000100 [0x0A, 5]) = .ok (.readRegisters 0x0A 5) := by decide
theorem test_decode_writeRegisters : decode (.host 0b00000101 [0x10, 1, 2]) = .ok (.writeRegisters 0x10 [1, 2]) := by decide
theorem test_decode_modify : decode (.host 0b00000110 [0, 2, 1]) = .ok (.modifyRegisterBits 0 2 1) := by decide
theorem test_decode_reuseTx : decode (.host 0b00010000 []) = .ok .reuseTx := by decide
theorem test_decode_activate : decode (.host 0b00010001 []) = .ok .activate := by decide
theorem test_decode_txHasSpace : decode (.host 0b00100000 []) = .ok .txHasSpace := by decide
theorem test_decode_txIsEmpty : decode (.host 0b00100001 []) = .ok .txIsEmpty := by decide
theorem test_decode_txWrite : decode (.host 0b00100010 [2, 0x48, 0x49]) = .ok (.txWrite [0x48, 0x49] 2) := by decide
theorem test_decode_txWriteNoAck : decode (.host 0b00100011 [1, 0xFF]) = .ok (.txWriteNoAck [0xFF] 1) := by decide
theorem test_decode_setAckPipe : decode (.host 0b00100100 [5]) = .ok (.setAckPipe 5) := by decide
theorem test_decode_getAckPipe : decode (.host 0b00100101 []) = .ok .getAckPipe := by decide
theorem test_decode_rxHasData : decode (.host 0b00100110 []) = .ok .rxHasData := by decide
theorem test_decode_rxIsFull : decode (.host 0b00100111 []) = .ok .rxIsFull := by decide
theorem test_decode_rxRead : decode (.host 0b00101000 []) = .ok .rxRead := by decide
theorem test_decode_txFlush : decode (.host 0b00101001 []) = .ok .txFlush := by decide
theorem test_decode_rxFlush : decode (.host 0b00101010 []) = .ok .rxFlush := by decide
theorem test_decode_statusRead : decode (.host 0b00110000 []) = .ok .statusRead := by decide
theorem test_decode_statusClear : decode (.host 0b00110001 [0x2E]) = .ok (.statusClear 0x2E) := by decide
theorem test_decode_statusClearAll : decode (.host 0b00110010 []) = .ok .statusClearAll := by decide
theorem test_decode_clearTxFail : decode (.host 0b00110011 []) = .ok .clearTxFail := by decide
theorem test_decode_decode : decode (.host 0b00110100 [0x42]) = .ok (.decode 0x42) := by decide
theorem test_decode_switchRole : decode (.host 0b01000000 [1]) = .ok (.switchRole 1) := by decide
theorem test_decode_switchRoleDirectly : decode (.host 0b01000001 [0]) = .ok (.switchRoleDirectly 0) := by decide
theorem test_decode_getRole : decode (.host 0b01000010 []) = .ok .getRole := by decide
theorem test_decode_cfgWriteDirectly :
    decode (.host 0b01010000 [1, 3, 0x4C, 0b00000111, 0b00000011, 5, 1, 2, 3, 4, 5, 5, 1, 2, 3, 4, 5,
      5, 0xC2, 0xC2, 0xC2, 0xC2, 0xC2, 1, 0xC3, 1, 0xC4, 1, 0xC5, 1, 0xC6]) = .ok (.cfgWriteDirectly exampleConfig) := by decide
theorem test_decode_cfgWriteDiff :
    decode (.host 0b01010001 [0, 1, 3, 0x4C, 0b00000111, 0b00000011, 5, 1, 2, 3, 4, 5, 5, 1, 2, 3, 4, 5,
      5, 0xC2, 0xC2, 0xC2, 0xC2, 0xC2, 1, 0xC3, 1, 0xC4, 1, 0xC5, 1, 0xC6]) = .ok (.cfgWriteDiff none exampleConfig) := by
  decide
theorem test_decode_cfgRead : decode (.host 0b01010010 []) = .ok .cfgRead := by decide
theorem test_decode_cfgWrite :
    decode (.host 0b01010011 [1, 3, 0x4C, 0b00000111, 0b00000011, 5, 1, 2, 3, 4, 5, 5, 1, 2, 3, 4, 5,
      5, 0xC2, 0xC2, 0xC2, 0xC2, 0xC2, 1, 0xC3, 1, 0xC4, 1, 0xC5, 1, 0xC6]) = .ok (.cfgWrite exampleConfig) := by decide
theorem test_decode_init : decode (.host 0b01100000 [1]) = .ok (.init .refChip) := by decide
theorem test_decode_checkDevice : decode (.host 0b01100001 []) = .ok .checkDevice := by decide
theorem test_decode_setup : decode (.host 0b01100010 [1, 0, 1, 0x1D, 0x07]) = .ok (.setup 1 none (some [(0x1D, 0x07)])) := by
  decide
theorem test_decode_deinit : decode (.host 0b01100011 []) = .ok .deinit := by decide
theorem test_decode_powerUp : decode (.host 0b01100100 []) = .ok .powerUp := by decide
theorem test_decode_powerDown : decode (.host 0b01100101 []) = .ok .powerDown := by decide
theorem test_decode_radioOn : decode (.host 0b01100110 []) = .ok .radioOn := by decide
theorem test_decode_radioOff : decode (.host 0b01100111 []) = .ok .radioOff := by decide

/-! What is no instruction, by name (R105, R134, R136, R138). -/

theorem test_reject_AE : decode (.wire (.send2 [0xAE] [1])) = .error .notACommand := by decide
theorem test_reject_FF : decode (.wire (.send [0xFF])) = .error .notACommand := by decide
theorem test_reject_empty : decode (.wire (.send [])) = .error .emptyFrame := by decide
theorem test_reject_magic : decode (.wire (.send [0x50, 0x72])) = .error .badMagic := by decide
theorem test_reject_width_two : decode (.wire (.xfer [0x60] 2)) = .error .badLength := by decide
theorem test_reject_shape : decode (.wire (.send2 [0xE1] [])) = .error .wrongShape := by decide
theorem test_reject_select : decode (.host 0x07 []) = .error .unknownSelect := by decide

/-- A bare table word: the host port first, the wire port otherwise (assumption 8). -/
theorem test_table_words :
    decodeTableWord 8 0x30 = some .statusRead ∧ decodeTableWord 8 0xE1 = some .flushTx
      ∧ decodeTableWord 8 0xA8 = some (.wAckPayload 0 [0]) ∧ decodeTableWord 8 0x1F = some (.rRegister 0x1F 1)
      ∧ decodeTableWord 8 0xFF = none := by decide

/-! ### Wire commands on RefChip -/

theorem test_rRegister : seen (exec (.rRegister 0x0B 5) (ready .ptx RefChip.por [])) =
    some ([.xfer [0x0B] 5 (five 0xC2) .ok], some ⟨.ok, .bytes (five 0xC2)⟩) := by decide
theorem test_wRegister : (chipOf (exec (.wRegister 0x05 [0x4C]) (ready .ptx RefChip.por []))).map (fun c => c.readReg 0x05 1)
    = some [0x4C] := by decide
theorem test_wRegister_status_clears_only_ones :
    (chipOf (exec (.wRegister 0x07 [0x10]) (ready .ptx { RefChip.por with maxRt := true, txDs := true } []))).map
      (fun c => (c.maxRt, c.txDs)) = some (false, true) := by decide
theorem test_rRxPayload : seen (exec (.rRxPayload 3) (ready .prx rxOne [])) =
    some ([.xfer [0x61] 3 [0x48, 0x49, 0] .ok], some ⟨.ok, .bytes [0x48, 0x49, 0]⟩) := by decide
theorem test_wTxPayload_overflow : (chipOf (exec (.wTxPayload [9]) (ready .ptx fullChip []))).map
    (fun c => (c.txq.length, c.faulted)) = some (3, true) := by decide
theorem test_flushTx : (chipOf (exec .flushTx (ready .ptx { fullChip with txReuse := true } []))).map
    (fun c => (c.txq.length, c.rxq.length, c.txReuse)) = some (0, 3, false) := by decide
theorem test_flushRx_keeps_rx_dr : (chipOf (exec .flushRx (ready .ptx fullChip []))).map
    (fun c => (c.rxq.length, c.rxDr, c.status)) = some (0, true, 0x4F) := by decide
theorem test_reuseTxPl : (chipOf (exec .reuseTxPl (ready .ptx RefChip.por []))).map RefChip.fifoStatus = some 0x51 := by
  decide
/-- RefChip keeps the reuse at W_TX_PAYLOAD (R103, R107); on the other variants it ends, as R197 says: `FIFO_STATUS`
bit 6 reads 0 again, and a completed transmission removes the head. -/
theorem test_wTxPayload_keeps_reuse : (chipOf (exec (.wTxPayload [9]) (ready .ptx { RefChip.por with
    txq := [⟨.plain, [7]⟩], txReuse := true } []))).map (fun c => (c.fifoStatus, (c.radio .txDone).txq)) =
      some (0x41, [⟨.plain, [7]⟩, ⟨.plain, [9]⟩]) := by decide
theorem test_wTxPayload_ends_reuse : (chipOf (exec (.wTxPayload [9]) (ready .ptx { RefChip.por with
    txq := [⟨.plain, [7]⟩], txReuse := true, variant := .nrf24l01Plus } []))).map (fun c => (c.fifoStatus, (c.radio .txDone).txq)) =
      some (0x01, [⟨.plain, [9]⟩]) := by decide
/-- An nRF24L01 before its first ACTIVATE, and after it (R198). -/
def original : RefChip := { RefChip.por with variant := .nrf24l01 }
theorem test_activate_toggles : ((chipOf (exec .activate (ready .ptx original []))).map RefChip.activated,
    (chipOf (exec .activate (ready .ptx { original with activated := true } []))).map RefChip.activated,
    (chipOf (exec .activate (ready .ptx { original with variant := .nrf24l01Plus } []))).map RefChip.activated) =
      (some true, some false, some false) := by decide
theorem test_feature_write_needs_activate :
    ((chipOf (exec (.writeRegister 0x1D 7) (ready .ptx original []))).map RefChip.regs,
      (chipOf (exec (.writeRegister 0x1D 7) (ready .ptx { original with activated := true } []))).map RefChip.regs) =
        (some [], some [(0xE8, 7)]) := by decide
theorem test_noack_head_cannot_fail :
    ({ original with txq := [⟨.noack, [1]⟩] }.radio .txFail).maxRt = false
      ∧ ({ original with txq := [⟨.plain, [1]⟩] }.radio .txFail).maxRt = true
      ∧ ({ RefChip.por with txq := [⟨.noack, [1]⟩] }.radio .txFail).maxRt = true := by decide
theorem test_wireActivate : seen (exec .wireActivate (ready .ptx RefChip.por [])) =
    some ([.send [0x50, 0x73] .ok], some ⟨.ok, .bytes []⟩) := by decide
theorem test_rRxPlWid : seen (exec .rRxPlWid (ready .prx rxOne [])) =
    some ([.xfer [0x60] 1 [2] .ok], some ⟨.ok, .bytes [2]⟩) := by decide
theorem test_wAckPayload : (chipOf (exec (.wAckPayload 5 [7]) (ready .prx RefChip.por []))).map RefChip.txq =
    some [⟨.ack 5, [7]⟩] := by decide
theorem test_wTxPayloadNoack : (chipOf (exec (.wTxPayloadNoack [7]) (ready .ptx RefChip.por []))).map RefChip.txq =
    some [⟨.noack, [7]⟩] := by decide

/-! ### Register access (V-REG) -/

theorem test_getBits : [getBits 0x2B 0x0E, getBits 0xFF 0x80, getBits 0xA5 0xF0, getBits 0x29 0x0F, getBits 0x0E 0x06]
    = [5, 1, 10, 9, 3] := by decide
theorem test_getBits_bad_mask : seen (exec (.getBits 0xFF 0x05) State.reset) = refusedWith .badMask := by decide
theorem test_setBits : [setBits 0x00 0xC0 0x07, setBits 0x5A 0x3C 0xFF, setBits 0xFF 0x0E 0x0A, setBits 0xFF 0x70 0x00]
    = [0xC0, 0x7E, 0xF5, 0x8F] := by decide
theorem test_setBits_bad_mask : seen (exec (.setBits 0 0x00 1) State.reset) = refusedWith .badMask := by decide
theorem test_readRegister_unmapped : seen (exec (.readRegister 0x1F) (ready .ptx RefChip.por [])) =
    some ([.xfer [0x1F] 1 [0] .ok], some ⟨.ok, .byte 0⟩) := by decide
theorem test_readRegister_failing : seen (exec (.readRegister 0x05) (ready .ptx RefChip.por [failing])) =
    some ([.xfer [0x05] 1 [0] .fail], some ⟨.transport 1, .byte 0⟩) := by decide
theorem test_writeRegister : seen (exec (.writeRegister 0x05 0x4C) (ready .ptx RefChip.por [])) =
    some ([.send2 [0x25] [0x4C] .ok], some ⟨.ok, .none⟩) := by decide
theorem test_readRegisters_six : seen (exec (.readRegisters 0x0A 6) (ready .ptx RefChip.por [])) = refusedWith .badOperand := by
  decide
theorem test_writeRegisters_least_significant_first :
    (chipOf (exec (.writeRegisters 0x10 [1, 2, 3, 4, 5]) (ready .ptx RefChip.por []))).map (fun c => c.readReg 0x10 5)
      = some [1, 2, 3, 4, 5] := by decide
theorem test_modify_truncates : seen (exec (.modifyRegisterBits 0x04 0xF0 0x12) (ready .ptx RefChip.por [])) =
    some ([.xfer [0x04] 1 [0x03] .ok, .send2 [0x24] [0x23] .ok], some ⟨.ok, .none⟩) := by decide
theorem test_modify_read_fails : seen (exec (.modifyRegisterBits 0x00 0x02 1) (ready .ptx RefChip.por [failing])) =
    some ([.xfer [0x00] 1 [0] .fail], some ⟨.transport 1, .none⟩) := by decide

/-! ### Command layer and FIFO manager (V-CMD, V-FIFO) -/

theorem test_reuseTx : seen (exec .reuseTx fresh) = some ([.send [0xE3] .ok], some ⟨.ok, .none⟩) := by decide
theorem test_activate : seen (exec .activate fresh) = some ([.send [0x50, 0x73] .ok], some ⟨.ok, .none⟩) := by decide
theorem test_txHasSpace_full : seen (exec .txHasSpace (ready .ptx fullChip [])) =
    some ([.xfer [0x17] 1 [0x22] .ok], some ⟨.ok, .flag false⟩) := by decide
theorem test_txIsEmpty_idle : seen (exec .txIsEmpty (ready .ptx RefChip.por [])) =
    some ([.xfer [0x17] 1 [0x11] .ok], some ⟨.ok, .flag true⟩) := by decide
theorem test_rxHasData_failing : seen (exec .rxHasData (ready .ptx RefChip.por [failing])) =
    some ([.xfer [0x17] 1 [0x00] .fail], some ⟨.ok, .flag true⟩) := by decide
theorem test_rxIsFull : seen (exec .rxIsFull (ready .ptx fullChip [])) =
    some ([.xfer [0x17] 1 [0x22] .ok], some ⟨.ok, .flag true⟩) := by decide
theorem test_txWrite_ptx : seen (exec (.txWrite [1, 2, 3] 3) (ready .ptx RefChip.por [])) =
    some ([.send2 [0xA0] [1, 2, 3] .ok], some ⟨.ok, .none⟩) := by decide
theorem test_txWrite_prx_pipe5 : seen (exec (.txWrite [1, 2, 3] 3) { ready .prx RefChip.por [] with ackPipe := some 5 }) =
    some ([.send2 [0xAD] [1, 2, 3] .ok], some ⟨.ok, .none⟩) := by decide
theorem test_txWriteNoAck_ptx : seen (exec (.txWriteNoAck [0xFF] 1) (ready .ptx RefChip.por [])) =
    some ([.send2 [0xB0] [0xFF] .ok], some ⟨.ok, .none⟩) := by decide
theorem test_txWriteNoAck_prx : seen (exec (.txWriteNoAck [0xFF] 1) (ready .prx RefChip.por [])) = refusedWith .badRole := by
  decide
theorem test_setAckPipe_6 : seen (exec (.setAckPipe 6) fresh) = refusedWith .badOperand := by decide
theorem test_getAckPipe_after_init : seen (exec .getAckPipe fresh) = some ([], some ⟨.ok, .pipe 0⟩) := by decide
theorem test_rxRead : seen (exec .rxRead (ready .prx rxOne [])) =
    some ([.xfer [0x60] 1 [2] .ok, .xfer [0x07] 1 [0x42] .ok, .xfer [0x61] 2 [0x48, 0x49] .ok],
      some ⟨.ok, .received [0x48, 0x49] 2 1⟩) := by decide
theorem test_rxRead_width_fails : seen (exec .rxRead (ready .prx rxOne [failing])) =
    some ([.xfer [0x60] 1 [0] .fail], some ⟨.noData, .none⟩) := by decide
theorem test_txFlush : seen (exec .txFlush fresh) = some ([.send [0xE1] .ok], some ⟨.ok, .none⟩) := by decide
theorem test_rxFlush : seen (exec .rxFlush fresh) = some ([.send [0xE2] .ok], some ⟨.ok, .none⟩) := by decide

/-! ### Status and decoder (V-STAT) -/

theorem test_statusRead_failing : seen (exec .statusRead (ready .ptx RefChip.por [failing])) =
    some ([.xfer [0x07] 1 [0] .fail], some ⟨.ok, .byte 0⟩) := by decide
theorem test_statusClear_masks : seen (exec (.statusClear 0xFF) fresh) =
    some ([.send2 [0x27] [0x60] .ok], some ⟨.ok, .none⟩) := by decide
theorem test_statusClear_issues_nothing_to_clear : seen (exec (.statusClear 0x10) fresh) =
    some ([.send2 [0x27] [0x00] .ok], some ⟨.ok, .none⟩) := by decide
theorem test_statusClearAll_keeps_max_rt :
    (chipOf (exec .statusClearAll (ready .ptx { fullChip with maxRt := true } []))).map (fun c => (c.maxRt, c.rxDr))
      = some (true, false) := by decide
theorem test_clearTxFail : seen (exec .clearTxFail fresh) =
    some ([.send2 [0x27] [0x10] .ok], some ⟨.ok, .none⟩) := by decide
theorem test_decode_samples : [0x0E, 0x0F, 0x8E, 0x0C, 0x2E, 0x4E, 0x00, 0x0A, 0x6E, 0x20, 0x1E, 0x7E, 0xFF].map decodeStatus
    = [0, 0, 0, 0, 1, 2, 2, 2, 3, 3, 4, 4, 4] := by decide
theorem test_decode_class_totals : (List.range 5).map (fun e =>
      ((List.range 256).filter fun b => decodeStatus (BitVec.ofNat 8 b) == BitVec.ofNat 3 e).length)
    = [8, 8, 56, 56, 128] := by decide +kernel

/-! ### Role (V-ROLE) -/

theorem test_switchRole_same : seen (exec (.switchRole 0) (ready .ptx upChip [])) = some ([], some ⟨.ok, .none⟩) := by
  decide
theorem test_switchRole_read_fails :
    seen (exec (.switchRole 1) (ready .ptx RefChip.por [EnvInput.quiet, EnvInput.quiet, EnvInput.quiet, failing])) =
      some ([.send [0xE1] .ok, .send [0xE2] .ok, .send2 [0x27] [0x70] .ok, .xfer [0x00] 1 [0] .fail],
        some ⟨.transport 1, .none⟩) := by decide
theorem test_switchRoleDirectly_same_role : seen (exec (.switchRoleDirectly 1) (ready .prx rxChip [])) =
    some ([.xfer [0x00] 1 [0x0F] .ok, .send2 [0x20] [0x0F] .ok], some ⟨.ok, .none⟩) := by decide
theorem test_getRole_before_setup : seen (exec .getRole fresh) = refusedWith .noValue := by decide

/-! ### Configuration (V-CFG) -/

/-- The 11 writes of V-CFG-1, and the 11 reads of V-CFG-2. -/
def newWrites : List Event :=
  [.send2 [0x26] [0x0E] .ok, .send2 [0x25] [0x28] .ok, .send2 [0x22] [0x0F] .ok, .send2 [0x21] [0x03] .ok,
   .send2 [0x30] [1, 2, 3, 4, 5] .ok, .send2 [0x2A] [1, 2, 3, 4, 5] .ok, .send2 [0x2B] (five 0xC2) .ok,
   .send2 [0x2C] [0xC3] .ok, .send2 [0x2D] [0xC4] .ok, .send2 [0x2E] [0xC5] .ok, .send2 [0x2F] [0xC6] .ok]

theorem test_cfgWriteDirectly : seen (exec (.cfgWriteDirectly newConfig) fresh) = some (newWrites, some ⟨.ok, .none⟩) := by
  decide
theorem test_cfgWriteDirectly_counts : (seen (exec (.cfgWriteDirectly newConfig) (ready .ptx RefChip.zero
      [EnvInput.quiet, EnvInput.quiet, failing, EnvInput.quiet, EnvInput.quiet, EnvInput.quiet, failing]))).map
        (fun p => (p.1.length, p.2)) = some (11, some ⟨.transport 2, .none⟩) := by decide
theorem test_cfgWriteDiff : seen (exec (.cfgWriteDiff (some exampleConfig) newConfig) fresh) =
    some ([.send2 [0x25] [0x28] .ok, .send2 [0x22] [0x0F] .ok], some ⟨.ok, .none⟩) := by decide
theorem test_cfgWriteDiff_power : seen (exec (.cfgWriteDiff (some newConfig) { newConfig with power := 1 }) fresh) =
    some ([.send2 [0x26] [0x0A] .ok], some ⟨.ok, .none⟩) := by decide
theorem test_cfgRead_por : (seen (exec .cfgRead fresh)).map (fun p => p.2) = some (some ⟨.ok, .config
    { rate := .r2M, power := 3, channel := 2, txAddr := five 0xE7, pipe0 := ⟨true, true, five 0xE7⟩,
      pipe1 := ⟨true, true, five 0xC2⟩, pipe2 := ⟨false, true, [0xC3]⟩, pipe3 := ⟨false, true, [0xC4]⟩,
      pipe4 := ⟨false, true, [0xC5]⟩, pipe5 := ⟨false, true, [0xC6]⟩ }⟩) := by decide
theorem test_cfgWrite_radio_on : seen (exec (.cfgWrite newConfig) (ready .ptx upChip [])) =
    some ([.ce false] ++ newWrites ++ [.ce true], some ⟨.ok, .none⟩) := by decide
theorem test_cfgWrite_no_value : seen (exec (.cfgWrite newConfig) fresh) = refusedWith .noValue := by decide

/-! ### Lifecycle (V-LIFE, P1) -/

theorem test_init : seen (exec (.init .refChip) State.reset) = some ([.tinit .ok], some ⟨.ok, .none⟩) := by decide
theorem test_init_registers : registersOf (exec (.init .refChip) State.reset) = some (true, none, some 0, none, false) := by
  decide
theorem test_checkDevice_por : seen (exec .checkDevice fresh) =
    some ([.xfer [0x0A] 5 (five 0xE7) .ok, .send2 [0x2A] [0xE7, 0xE8, 0xE9, 0xEA, 0xEB] .ok,
      .xfer [0x0A] 5 [0xE7, 0xE8, 0xE9, 0xEA, 0xEB] .ok, .send2 [0x2A] (five 0xE7) .ok], some ⟨.ok, .none⟩) := by decide
theorem test_checkDevice_absentF : seen (exec .checkDevice { fresh with transport := .absentF }) =
    some ([.xfer [0x0A] 5 (five 0xFF) .ok, .send2 [0x2A] [0xFF, 0, 1, 2, 3] .ok,
      .xfer [0x0A] 5 (five 0xFF) .ok, .send2 [0x2A] (five 0xFF) .ok], some ⟨.identity, .none⟩) := by decide

/-- The trace of step 2 of program P1. -/
def setupTrace : List Event :=
  [.xfer [0x0A] 5 (five 0) .ok, .send2 [0x2A] [0, 1, 2, 3, 4] .ok, .xfer [0x0A] 5 [0, 1, 2, 3, 4] .ok, .send2 [0x2A] (five 0) .ok,
   .xfer [0x00] 1 [0] .ok, .send2 [0x20] [0] .ok, .ce false, .send [0xE1] .ok, .send [0xE2] .ok, .send2 [0x27] [0x70] .ok]
  ++ ([(0x20, 0x0C), (0x21, 0x3F), (0x22, 0x03), (0x23, 0x03), (0x24, 0x29), (0x25, 0x02), (0x26, 0x06), (0x27, 0x70),
       (0x31, 0x20), (0x32, 0x20), (0x33, 0x20), (0x3C, 0x3F), (0x3D, 0x07), (0x26, 0x0E), (0x25, 0x4C), (0x22, 0x07),
       (0x21, 0x03)].map fun (p : Byte × Byte) => .send2 [p.1] [p.2] .ok)
  ++ [.send2 [0x30] [1, 2, 3, 4, 5] .ok, .send2 [0x2A] [1, 2, 3, 4, 5] .ok, .send2 [0x2B] (five 0xC2) .ok,
      .send2 [0x2C] [0xC3] .ok, .send2 [0x2D] [0xC4] .ok, .send2 [0x2E] [0xC5] .ok, .send2 [0x2F] [0xC6] .ok]
  ++ [.xfer [0x00] 1 [0x0C] .ok, .send2 [0x20] [0x0C] .ok, .xfer [0x00] 1 [0x0C] .ok, .send2 [0x20] [0x0E] .ok, .ce true]

theorem test_setup_trace : seen (exec (.setup 0 (some exampleConfig) (some exampleTable)) { fresh with chip := RefChip.zero }) =
    some (setupTrace, some ⟨.ok, .none⟩) := by decide +kernel
theorem test_setup_two_failures :
    (seen (exec (.setup 1 (some exampleConfig) (some (exampleTable.take 2))) { fresh with
      chip := RefChip.zero
      inputs := List.replicate 4 EnvInput.quiet ++ [failing] ++ List.replicate 14 EnvInput.quiet ++ [failing] })).map
        (fun p => ((p.1.filter fun e => !isPinEvent e).length, p.2)) = some (25, some ⟨.transport 2, .none⟩) := by decide
theorem test_deinit : seen (exec .deinit (ready .ptx upChip [])) =
    some ([.xfer [0x00] 1 [0x0E] .ok, .send2 [0x20] [0x0C] .ok, .ce false, .tdeinit], some ⟨.ok, .none⟩) := by decide
theorem test_deinit_registers : registersOf (exec .deinit (ready .ptx upChip [])) = some (false, none, none, some false, false) := by
  decide
theorem test_powerUp : seen (exec .powerUp fresh) =
    some ([.xfer [0x00] 1 [0x08] .ok, .send2 [0x20] [0x0A] .ok], some ⟨.ok, .none⟩) := by decide
theorem test_powerDown : seen (exec .powerDown (ready .ptx upChip [])) =
    some ([.xfer [0x00] 1 [0x0E] .ok, .send2 [0x20] [0x0C] .ok], some ⟨.ok, .none⟩) := by decide
theorem test_radioOn_again : seen (exec .radioOn (ready .ptx upChip [])) = some ([.ce true], some ⟨.ok, .none⟩) := by
  decide
theorem test_radioOff : registersOf (exec .radioOff (ready .ptx upChip [])) = some (true, some .ptx, some 0, some false, false) := by
  decide

/-! ### Steps -/

/-- After reset the next instruction runs: `radioOn` is refused unbound, a wire word reaches the transport. -/
theorem test_step_host_word : seen (step (State.reset.withFetchWord 8 0x66)) = refusedWith .notBound := by decide
/-- Something else moves the pin: the mirror stays, and `cfgWrite` trusts it (R60 b, U13). -/
theorem test_pin_moved : registersOf (step { ready .ptx upChip [] with pending := [.pin false] }) =
    some (true, some .ptx, some 0, some true, false) := by decide
theorem test_pin_moved_at_a_transaction :
    registersOf (exec .statusRead (ready .ptx upChip [⟨[], .ok, [], none, some false⟩])) =
      some (true, some .ptx, some 0, some true, false) := by decide
theorem test_step_radio_event : chipOf (step { ready .ptx fullChip [] with pending := [.radio .txFail] }) =
    some { fullChip with maxRt := true } := by decide

/-! ### Witnesses: a state and operands that meet the hypotheses of each statement, clause by clause -/

theorem quiet_ready (r : Role) : QuietRefChip (ready r RefChip.por []) := ⟨rfl, rfl, sound_por, rfl⟩

theorem quiet_fresh : QuietRefChip fresh := ⟨rfl, rfl, sound_por, rfl⟩

/-- A next state, by name: what the witnesses of whole-machine rules step to. -/
def after (i : Instr) (s : State) : State :=
  match exec i s with
  | .next t => t
  | .fault _ => s
  | .refused _ => s

/-- The answer to a call of a failing and of a working environment. -/
def broken : State := ready .ptx upChip [failing, failing, failing, failing, failing, failing]

theorem test_witness_DecodeOfEncodeIsTheInstruction :
    (Instr.rRegister 0x1F 5).encodable = true ∧ (Instr.wAckPayload 5 (List.replicate 32 0)).encodable = true
      ∧ (Instr.readRegisters 0xFF 255).encodable = true ∧ (Instr.cfgWriteDiff none newConfig).encodable = true
      ∧ (Instr.setup 0xFF (some newConfig) (some exampleTable)).encodable = true ∧ Instr.rxRead.encodable = true := by decide
theorem test_witness_AWireCallMeansOneCommand :
    decodeWireCmd (.xfer [0x61] 32) = .ok (.rRxPayload 32) ∧ decodeWireCmd (.send2 [0xAD] []) = .ok (.wAckPayload 5 []) := by
  decide
theorem test_witness_StepRunsTheDecodedRequest :
    let s := { fresh with pending := [.request (.host 0x66 [])] }
    s.pending = .request (.host 0x66 []) :: [] ∧ decode (.host 0x66 []) = .ok .radioOn
      ∧ { fresh with pending := [.radio .txDone] }.pending = .radio .txDone :: []
      ∧ { fresh with pending := [.pin true] }.pending = .pin true :: [] ∧ fresh.pending = [] := by decide
theorem test_witness_UnknownSelectCodeIsRefused :
    let s := { State.reset with pending := [.request (.host 0x07 [])] }
    s.pending = .request (.host 0x07 []) :: [] ∧ (0x07 : Byte).toNat ∉ selectCodes ∧ (0x68 : Byte).toNat ∉ selectCodes
      ∧ (0xFF : Byte).toNat ∉ selectCodes := by decide
theorem test_witness_UnknownWireCallFaultsRefChip :
    let s := { fresh with pending := [.request (.wire (.xfer [0xFF] 2))] }
    s.pending = .request (.wire (.xfer [0xFF] 2)) :: [] ∧ decodeWireCmd (.xfer [0xFF] 2) = .error .notACommand
      ∧ QuietRefChip s := ⟨rfl, by decide, rfl, rfl, sound_por, rfl⟩

/-- A set-up instance meets the invariant, with a request pending that it takes, and so it does with its pin moved. -/
theorem test_witness_EveryStepKeepsTheInvariant :
    let on := { ready .ptx RefChip.por [] with history := [.ce true] }
    let s := { on with pending := [.request (.host 0x66 [])] }
    s.Inv ∧ step s = .next (respond .ok .none (driveCe true on)) ∧ { on with ce := false }.Inv :=
  ⟨⟨sound_por, ⟨by decide, by decide, by decide, rfl⟩, by simp [ready, State.reset]⟩, rfl,
    ⟨sound_por, ⟨by decide, by decide, by decide, rfl⟩, by simp [ready, State.reset]⟩⟩

/-- A step that finds `faulted` set and one that sets it: the queues of `fullChip` are full. -/
theorem test_witness_FaultedIsNeverCleared :
    let s := { ready .ptx { fullChip with faulted := true } [] with pending := [.request (.wire (.send [0xE1]))] }
    s.chip.faulted = true ∧ step s = .next (after .flushTx (ready .ptx { fullChip with faulted := true } []))
      ∧ (after .flushTx (ready .ptx { fullChip with faulted := true } [])).chip.txq = [] := ⟨rfl, rfl, rfl⟩
theorem test_witness_NoWayFromReadyBackToBound :
    let s := { ready .ptx upChip [] with pending := [.request (.host 0x63 [])] }
    let op := Instr.setup 1 (some newConfig) (some [(0x1D, 0x07)])
    phase s = .ready ∧ step s = .next (after .deinit (ready .ptx upChip []))
      ∧ phase (after .deinit (ready .ptx upChip [])) = .unbound
      ∧ (State.reset.bound = false → State.reset.role = none)
      ∧ exec (.init .refChip) State.reset = .next (after (.init .refChip) State.reset) ∧ phase State.reset = .unbound
      ∧ phase (after (.init .refChip) State.reset) = .bound
      ∧ exec op fresh = .next (after op fresh) ∧ phase fresh = .bound ∧ phase (after op fresh) = .ready := by
  exact ⟨by decide, rfl, by decide, fun _ => rfl, rfl, by decide, by decide, rfl, by decide, by decide⟩

theorem test_witness_UnboundInstanceRefusesOperations :
    Instr.isHost (.setup 0 none none) = true ∧ exemptFromBinding (.setup 0 none none) = false
      ∧ Instr.isHost (.readRegister 0x40) = true ∧ exemptFromBinding (.readRegister 0x40) = false
      ∧ State.reset.bound = false := by decide
theorem test_witness_RefusedOperationsChangeNothing :
    Instr.isHost (.setAckPipe 6) = true
      ∧ exec (.setAckPipe 6) fresh = .next (respond (.rejected .badOperand) .none fresh)
      ∧ (respond (.rejected .badOperand) .none fresh).response = some ⟨.rejected .badOperand, .none⟩ := ⟨rfl, rfl, rfl⟩

/-- Both sides of the stop of `rxRead`: width 33 stops, 32 does not. -/
theorem test_witness_OnlyAWidthAbove32Stops :
    exec .rxRead (ready .prx rxOne [wide 33]) = .fault .payloadWidthAbove32
      ∧ 32 < (byteOf (.xfer [0x60] 1) (ready .prx rxOne [wide 33])).toNat
      ∧ (seen (exec .rxRead (ready .prx rxOne [wide 32]))).isSome = true := ⟨rfl, by decide, by decide⟩
theorem test_witness_HostOperationsIssueOnlyTheElevenCommands :
    Instr.isHost .deinit = true ∧ exec .deinit (ready .ptx upChip []) = .next (after .deinit (ready .ptx upChip [])) :=
  ⟨rfl, rfl⟩
theorem test_witness_MaxRtIsClearedOnlyExplicitly :
    let s := ready .ptx upChip []
    Instr.isHost .statusClearAll = true ∧ (∀ r, Instr.statusClearAll = .switchRole r → s.role = roleOf r)
      ∧ (∀ r, Instr.switchRole 0 = .switchRole r → s.role = roleOf r)
      ∧ exec .statusClearAll s = .next (after .statusClearAll s)
      ∧ (after .statusClearAll s).history = s.history ++ [.send2 [0x27] [0x60] .ok] :=
  ⟨rfl, by simp, by intro r h; cases h; rfl, rfl, rfl⟩
theorem test_witness_FailureCountsAreBounded :
    Instr.isHost (.switchRole 1) = true ∧ exec (.switchRole 1) broken = .next (after (.switchRole 1) broken)
      ∧ (after (.switchRole 1) broken).response = some ⟨.transport 4, .none⟩ := ⟨rfl, rfl, by decide⟩
theorem test_witness_TransactionsPerOperationAreBounded :
    let s := ready .ptx upChip []
    exec (.switchRole 1) s = .next (after (.switchRole 1) s)
      ∧ (after (.switchRole 1) s).history = s.history ++ (after (.switchRole 1) s).history
      ∧ (after (.switchRole 1) s).history.length = 5 := ⟨rfl, rfl, by decide⟩
theorem test_witness_InstanceRegistersHaveTheirWriters :
    exec (.init .refChip) State.reset = .next (after (.init .refChip) State.reset)
      ∧ (after (.init .refChip) State.reset).bound ≠ State.reset.bound
      ∧ (after (.init .refChip) State.reset).transport ≠ State.reset.transport
      ∧ (after (.init .refChip) State.reset).ackPipe ≠ State.reset.ackPipe
      ∧ (after (.switchRole 1) (ready .ptx upChip [])).role ≠ (ready .ptx upChip []).role
      ∧ (after .radioOn fresh).radioEnabled ≠ fresh.radioEnabled ∧ (after .radioOn fresh).ce ≠ fresh.ce
      ∧ (∀ j ∈ fresh.inputs, j.pin = none) ∧ (∀ b, fresh.radioEnabled = some b → fresh.ce = b)
      ∧ exec .radioOn fresh = .next (after .radioOn fresh) := by
  exact ⟨rfl, by decide, by decide, by decide, by decide, by decide, by decide, by decide, by decide, rfl⟩
theorem test_witness_RoleMattersOnlyToItsReaders :
    (∀ d n, Instr.rxRead ≠ .txWrite d n) ∧ (∀ d n, Instr.rxRead ≠ .txWriteNoAck d n) ∧ (∀ r, Instr.rxRead ≠ .switchRole r)
      ∧ (∀ r, Instr.rxRead ≠ .switchRoleDirectly r) ∧ Instr.rxRead ≠ .getRole := by simp
theorem test_witness_RegisterBytesChangeOnlyWhenWritten :
    fresh.chip.Sound ∧ exec (.writeRegister 0x05 0x4C) fresh = .next (after (.writeRegister 0x05 0x4C) fresh)
      ∧ (after (.writeRegister 0x05 0x4C) fresh).history = fresh.history ++ [.send2 [0x25] [0x4C] .ok]
      ∧ ∀ e ∈ [Event.send2 [0x25] [0x4C] .ok], ¬ WritesRegister e (0x30 / 8) :=
  ⟨sound_por, rfl, rfl, by simp [WritesRegister]⟩

/-- An input that fails and one that does not, each with a radio event and a width override, on each transport; a call that
is a command and one that is none. -/
theorem test_witness_EnvironmentAnswersACall :
    let i : EnvInput := ⟨[.rxArrive 1 [7]], .fail, [1, 2], some 9, none⟩
    let j : EnvInput := ⟨[.rxArrive 1 [7]], .ok, [1, 2], some 9, some true⟩
    (ready .ptx upChip [i]).inputs = i :: [] ∧ (ready .ptx upChip [j]).inputs = j :: [] ∧ fresh.inputs = []
      ∧ 1 < readLen (.xfer [0x05] 3) ∧ i.bytes[1]? = some 2 ∧ i.rc = .fail ∧ j.rc = .ok
      ∧ (ready .ptx upChip [i]).transport = .refChip ∧ decodeWireCmd (.xfer [0x60] 1) = .ok .rRxPlWid
      ∧ decodeWireCmd (.send [0xFF]) = .error .notACommand
      ∧ { ready .ptx upChip [i] with transport := .blackBox }.transport = .blackBox
      ∧ { ready .ptx upChip [i] with transport := .absent0 }.transport = .absent0
      ∧ { ready .ptx upChip [i] with transport := .absentF }.transport = .absentF := by decide

theorem test_witness_Accessible :
    Accessible RefChip.por .rRxPlWid ∧ Accessible original (.wTxPayload [1]) ∧ ¬ Accessible original .rRxPlWid
      ∧ Accessible { original with activated := true } .rRxPlWid ∧ ¬ Accessible original (.rRegister 0x1C 1)
      ∧ Accessible original (.rRegister 0x16 1) := by decide

/-- The radio event before the call, and the overridden width (R101, R107). -/
theorem test_input_events_then_reaction :
    let s := ready .ptx upChip [⟨[.rxArrive 1 [7]], .ok, [], some 9, none⟩]
    (reply (.xfer [0x60] 1) s).bytes = [9] ∧ (reply (.xfer [0x07] 1) s).bytes = [0x42]
      ∧ (reply (.xfer [0x61] 1) s).bytes = [7] := by decide
theorem test_witness_RunsGoOnAndModifyReadsThenWrites :
    rcOf (.xfer [0x00] 1) broken = .fail ∧ rcOf (.xfer [0x00] 1) fresh = .ok := by decide
theorem test_witness_IntegerViewOfResults :
    1 ≤ 17 ∧ Result.noData ≠ .transport 0 ∧ Result.ok ≠ .transport 0 ∧ Result.transport 3 ≠ .transport 0 := by decide
theorem test_witness_DerivedRegistersOfRefChip :
    RefChip.por.rxq = [] ∧ fullChip.rxq = ⟨0, [1]⟩ :: [⟨5, [2]⟩, ⟨1, [3]⟩] := by decide
theorem test_witness_RegisterAccessOnRefChip :
    RefChip.por.Sound ∧ [(0x4C : Byte)].length = 1 ∧ (five 1).length = 5 ∧ 0x00 ∈ singleAddrs ∧ 0x1D ∈ singleAddrs
      ∧ 0x0A ∈ fiveAddrs ∧ 0x10 ∈ fiveAddrs ∧ 0x07 ∈ derivedAddrs ∧ 0x17 ∈ derivedAddrs ∧ 0x18 ∈ unmappedAddrs
      ∧ 0x1F ∈ unmappedAddrs :=
  ⟨sound_por, by decide, by decide, by decide, by decide, by decide, by decide, by decide, by decide, by decide, by decide⟩

/-- The four lists hold every register address once. -/
theorem test_addresses_partition :
    (singleAddrs ++ fiveAddrs ++ derivedAddrs ++ unmappedAddrs).Nodup
      ∧ (singleAddrs ++ fiveAddrs ++ derivedAddrs ++ unmappedAddrs).length = 32 := by decide
theorem test_witness_FifoCommandsOnRefChip :
    RefChip.por.rxq = [] ∧ rxOne.rxq = ⟨1, [0x48, 0x49]⟩ :: [] ∧ RefChip.por.txq.length < 3
      ∧ (List.replicate 32 (0 : Byte)).length ≤ 32 ∧ 3 ≤ fullChip.txq.length ∧ ([] : List Byte).length = 0
      ∧ (5 : BitVec 3).toNat ≤ 5 ∧ RefChip.por.variant = .refChip ∧ original.variant = .nrf24l01 := by decide
theorem test_witness_RadioEventsOnRefChip :
    RefChip.por.rxq.length < 3 ∧ 3 ≤ fullChip.rxq.length ∧ RefChip.por.txq = [] ∧ fullChip.txReuse = false
      ∧ fullChip.txq ≠ [] ∧ { fullChip with txReuse := true }.txReuse = true
      ∧ fullChip.txq = ⟨.plain, [0]⟩ :: [⟨.noack, [1]⟩, ⟨.ack 2, [2]⟩] ∧ original.variant ≠ .refChip
      ∧ { original with txq := [⟨.noack, [1]⟩] }.txq = ⟨.noack, [1]⟩ :: []
      ∧ 1 ≤ [(1 : Byte)].length ∧ (List.replicate 32 (0 : Byte)).length ≤ 32 := by decide
theorem test_witness_WireCommandsReachRefChip :
    (WireCmd.rRegister 0x1F 5).wf = true ∧ (WireCmd.wTxPayload []).wf = true ∧ (WireCmd.wAckPayload 5 [1]).wf = true
      ∧ QuietRefChip (ready .ptx RefChip.por []) := ⟨by decide, by decide, by decide, quiet_ready .ptx⟩

theorem test_witness_masks : contiguous 0x80 = true ∧ contiguous 0xFF = true ∧ contiguous 0x00 = false
    ∧ contiguous 0x81 = false ∧ (7 : Byte).toNat < 2 ^ maskWidth 0x70 := by decide
theorem test_witness_ContiguousMasksAreThe36 :
    fresh.bound = true ∧ (0x1F : Byte).toNat ≤ 0x1F ∧ contiguous 0x05 = false := by decide
theorem test_witness_RegisterOperationsAreOneFrame :
    fresh.bound = true ∧ (0x1F : Byte).toNat ≤ 0x1F ∧ 0x1F < (0x20 : Byte).toNat ∧ State.reset.bound = false
      ∧ (five 1).length ≤ 5 ∧ 5 < (List.replicate 6 (0 : Byte)).length := by decide
theorem test_witness_ModifyRegisterBitsIsReadModifyWrite :
    fresh.bound = true ∧ broken.bound = true ∧ contiguous 0x02 = true ∧ contiguous 0x05 = false
      ∧ rcOf (.xfer [0x00] 1) broken = .fail ∧ rcOf (.xfer [0x00] 1) fresh = .ok := by decide
theorem test_witness_bound_and_unbound : fresh.bound = true ∧ State.reset.bound = false := by decide
theorem test_witness_TxWriteByRole :
    let t := ready .ptx upChip []
    let r := ready .prx upChip []
    t.bound = true ∧ t.role = some .ptx ∧ r.role = some .prx ∧ r.ackPipe = some 0 ∧ fresh.role = none
      ∧ { r with ackPipe := none }.ackPipe = none ∧ (List.replicate 32 (0 : Byte)).length ≤ 32 ∧ 33 ≠ [(0 : Byte)].length := by
  decide
theorem test_witness_TxWriteNoAckByRoleAndPolicy :
    (ready .prx upChip []).noackInPrx = .reject ∧ { ready .prx upChip [] with noackInPrx := .legacy }.noackInPrx = .legacy
      ∧ (ready .prx upChip []).role = some .prx ∧ fresh.role = none := by decide
theorem test_witness_AckPipeIsSticky :
    fresh.bound = true ∧ 5 < (6 : Byte).toNat ∧ (5 : Byte).toNat = (5 : Fin 6).val ∧ fresh.ackPipe = some 0
      ∧ { fresh with ackPipe := none }.ackPipe = none
      ∧ exec (.switchRole 1) (ready .ptx upChip []) = .next (after (.switchRole 1) (ready .ptx upChip [])) :=
  ⟨rfl, by decide, rfl, rfl, rfl, rfl⟩

/-- The clauses of `rxRead` at their borders: widths 0, 1, 32 and 33. -/
theorem test_witness_RxReadByTheWidthDelivered :
    (byteOf (.xfer [0x60] 1) (ready .prx RefChip.por [])).toNat = 0
      ∧ (byteOf (.xfer [0x60] 1) (ready .prx rxOne [wide 1])).toNat = 1
      ∧ (byteOf (.xfer [0x60] 1) (ready .prx rxOne [wide 32])).toNat = 32
      ∧ (byteOf (.xfer [0x60] 1) (ready .prx rxOne [wide 33])).toNat = 33 := by decide
theorem test_witness_DecoderIsTheTableOfSixBits :
    (0x1E : Byte).getLsbD 4 = true ∧ (0x0E : Byte).getLsbD 4 = false ∧ (0x8F : Byte) &&& 0x7E = 0x0E := by decide
theorem test_witness_SwitchRoleClearsThenSetsTheBit :
    let s := ready .ptx upChip []
    s.bound = true ∧ 1 < (2 : Byte).toNat ∧ fresh.role = none ∧ (1 : Byte) = (if Role.prx = .prx then 1 else 0)
      ∧ s.role = some .ptx ∧ Role.prx ≠ .ptx := by decide
theorem test_witness_DirectSwitchAndRoleQuery :
    (ready .prx upChip []).role = some .prx ∧ (0 : Byte) = (if Role.ptx = .prx then 1 else 0) ∧ fresh.role = none := by decide
/-- Configurations at the borders of the bounds of R62. -/
theorem test_witness_configurations :
    ConfigWellFormed newConfig ∧ ConfigWellFormed { newConfig with channel := 125, power := 0 }
      ∧ ¬ ConfigWellFormed { newConfig with channel := 126 } ∧ ¬ ConfigWellFormed { newConfig with power := 4 }
      ∧ (∀ o ∈ some exampleConfig, ConfigWellFormed o) ∧ (∀ o ∈ (none : Option RadioConfig), ConfigWellFormed o)
      ∧ ¬ (ConfigWellFormed newConfig ∧ ∀ o ∈ some { newConfig with txAddr := [] }, ConfigWellFormed o)
      ∧ fresh.bound = true :=
  ⟨by decide, by decide, by decide, by decide, by rintro _ ⟨⟩; decide, by simp, fun h => absurd (h.2 _ rfl) (by decide), rfl⟩
theorem test_witness_ConfigWriteBracketsTheRadio :
    fresh.radioEnabled = none ∧ (ready .ptx upChip []).radioEnabled = some true
      ∧ (after .radioOff (ready .ptx upChip [])).radioEnabled = some false ∧ ConfigWellFormed newConfig := by decide
theorem test_witness_ConfigurationRoundTrip : ConfigWellFormed newConfig ∧ fresh.bound = true ∧ QuietRefChip fresh :=
  ⟨by decide, rfl, quiet_fresh⟩
theorem test_witness_InitBindsTheTransport :
    fresh.bound = true ∧ State.reset.bound = false ∧ State.reset.inputs = []
      ∧ { State.reset with inputs := [failing] }.inputs = failing :: []
      ∧ initRc .blackBox { State.reset with inputs := [failing] } = .fail
      ∧ initRc .refChip State.reset = .ok := by decide
theorem test_witness_CheckDeviceIssuesFourTransactions :
    let absent := { fresh with transport := .absent0 }
    absent.bound = true ∧ readBackOf absent ≠ perturbed absent ∧ readBackOf fresh = perturbed fresh := by decide
theorem test_witness_CheckDeviceRestoresTheAddress :
    fresh.bound = true ∧ QuietRefChip fresh ∧ { fresh with transport := .absentF }.transport = .absentF :=
  ⟨rfl, quiet_fresh, rfl⟩
theorem test_witness_SetupRunsItsNineSteps :
    let absent := { fresh with transport := .absent0 }
    1 < (2 : Byte).toNat ∧ ¬ (∀ c ∈ some { newConfig with power := 4 }, ConfigWellFormed c)
      ∧ ¬ (∀ l ∈ some [((0x08 : Byte), (1 : Byte))], TableWellFormed l)
      ∧ ¬ (∀ l ∈ some [((0x17 : Byte), (1 : Byte))], TableWellFormed l)
      ∧ (∀ l ∈ some [((0x07 : Byte), (1 : Byte)), (0x11, 1), (0x16, 1), (0x1C, 1)], TableWellFormed l)
      ∧ (∀ l ∈ some exampleTable, TableWellFormed l)
      ∧ checkOutcome absent ≠ .ok ∧ checkOutcome fresh = .ok ∧ (1 : Byte) = (if Role.prx = .prx then 1 else 0) :=
  ⟨by decide, fun h => absurd (h _ rfl) (by decide), fun h => absurd ((tableOk_iff _).2 (h _ rfl)) (by decide),
    fun h => absurd ((tableOk_iff _).2 (h _ rfl)) (by decide), by rintro _ ⟨⟩; exact (tableOk_iff _).1 (by decide),
    by rintro _ ⟨⟩; exact (tableOk_iff _).1 (by decide), by decide, by decide, rfl⟩
theorem test_witness_SetupLeavesTableUnderConfiguration :
    fresh.bound = true ∧ QuietRefChip fresh ∧ (0 : Byte) = (if Role.ptx = .prx then 1 else 0)
      ∧ (∀ c ∈ some newConfig, ConfigWellFormed c) ∧ (∀ l ∈ some exampleTable, TableWellFormed l) :=
  ⟨rfl, quiet_fresh, rfl, by rintro _ ⟨⟩; decide, by rintro _ ⟨⟩; exact (tableOk_iff _).1 (by decide)⟩

/-- `setup` always goes on. -/
theorem setup_next (b : Byte) (c : Option RadioConfig) (l : Option (List (Byte × Byte))) (s : State) :
    exec (.setup b c l) s = .next (after (.setup b c l) s) := by
  have h : ∃ t, exec (.setup b c l) s = .next t := by
    simp only [exec, execSetup, whenBound, reject, answer]
    repeat' split
    all_goals exact ⟨_, rfl⟩
  obtain ⟨t, h⟩ := h
  simp only [after, h]

/-- Two set-ups one after the other. -/
theorem test_witness_SetupIsIdempotent :
    let op := Instr.setup 1 (some newConfig) (some [(0x1D, 0x07)])
    fresh.bound = true ∧ QuietRefChip fresh ∧ (∀ c ∈ some newConfig, ConfigWellFormed c)
      ∧ (∀ l ∈ some [((0x1D : Byte), (0x07 : Byte))], TableWellFormed l) ∧ exec op fresh = .next (after op fresh)
      ∧ exec op (after op fresh) = .next (after op (after op fresh)) :=
  ⟨rfl, quiet_fresh, by rintro _ ⟨⟩; decide, by rintro _ ⟨⟩; exact (tableOk_iff _).1 (by decide),
    setup_next _ _ _ _, setup_next _ _ _ _⟩

end Sys2Proof.Tests
end

/-! PROOFS. The transport contract and the result type of 00_scope.md: what the environment answers to a call on each
transport (R9, R92, R93, R105 to R109, R198), what one transaction leaves (R63, R190), and the integer view (R10). -/

namespace Sys2Proof.Machine

open Sys2Proof.Claims

/-! ### What the chip does with a call, by what the call decodes to -/

theorem behindActivate_eq_needsActivate (d : WireCmd) : behindActivate d = needsActivate d := by cases d <;> rfl

/-- The chip's own check of access is R198's condition. -/
theorem allows_iff_accessible (c : RefChip) (d : WireCmd) : c.allows d = true ↔ Accessible c d := by
  rw [RefChip.allows, behindActivate_eq_needsActivate]
  unfold Accessible
  cases c.variant with
  | nrf24l01 => cases c.activated <;> simp
  | _ => simp

section React

variable {c : RefChip} {w : Option Byte} {drawn : List Byte} {call : Call} {d : WireCmd}

theorem react_of_accessible (h : decodeWireCmd call = .ok d) (ha : Accessible c d) :
    c.react w drawn call = c.run w d := by
  simp [RefChip.react, h, (allows_iff_accessible c d).2 ha]

theorem react_of_not_accessible (h : decodeWireCmd call = .ok d) (ha : ¬ Accessible c d) :
    c.react w drawn call = (c, drawn) := by
  simp [RefChip.react, h, mt (allows_iff_accessible c d).1 ha]

theorem react_of_not_command {e : DecodeError} (h : decodeWireCmd call = .error e) :
    c.react w drawn call = ({ c with faulted := true }, List.replicate (readLen call) 0) := by
  simp [RefChip.react, h]

end React

/-! ### What each transport answers -/

/-- What an input gives of the bytes is delivered; only the missing ones are free (R92). -/
theorem drawnBytes_getElem? {c : Call} {i : EnvInput} {k : Nat} {b : Byte} (h : List Event) (hk : k < readLen c)
    (hb : i.bytes[k]? = some b) : (drawnBytes h i c)[k]? = some b := by
  simp [drawnBytes, hk, hb]

section Reply

variable {s : State} {c : Call}

theorem reply_absent0 (h : s.transport = .absent0) : reply c s = ⟨s.chip, .ok, List.replicate (readLen c) 0x00⟩ := by
  simp [reply, h, absentReply]

theorem reply_absentF (h : s.transport = .absentF) : reply c s = ⟨s.chip, .ok, List.replicate (readLen c) 0xFF⟩ := by
  simp [reply, h, absentReply]

theorem reply_blackBox_nil (h : s.transport = .blackBox) (hi : s.inputs = []) :
    reply c s = ⟨s.chip, Config.oracleRc s.history c, drawnBytes s.history EnvInput.quiet c⟩ := by
  simp [reply, h, blackBoxReply, hi]

theorem reply_blackBox_cons {i : EnvInput} {rest : List EnvInput} (h : s.transport = .blackBox)
    (hi : s.inputs = i :: rest) : reply c s = ⟨s.chip, i.rc, drawnBytes s.history i c⟩ := by
  simp [reply, h, blackBoxReply, hi]

/-- The black box leaves the chip of the state alone (assumption 13). -/
theorem reply_blackBox_chip (h : s.transport = .blackBox) : (reply c s).chip = s.chip := by
  cases hi : s.inputs with
  | nil => rw [reply_blackBox_nil h hi]
  | cons i rest => rw [reply_blackBox_cons h hi]

/-- With nothing pending the chip reacts at once, and with no override (R99 to R105). -/
theorem reply_refChip_nil (h : s.transport = .refChip) (hi : s.inputs = []) :
    ∃ drawn : List Byte,
      reply c s = ⟨(s.chip.react none drawn c).1, .ok, (s.chip.react none drawn c).2⟩ :=
  ⟨drawnBytes s.history EnvInput.quiet c, by
    simp [reply, h, hi, refChipReply, EnvInput.quiet, RefChip.radios]⟩

variable {i : EnvInput} {rest : List EnvInput}

/-- An injected failure: the radio events, and nothing after them (R107, R108). -/
theorem reply_refChip_fail (h : s.transport = .refChip) (hi : s.inputs = i :: rest) (hrc : i.rc = .fail) :
    reply c s = ⟨s.chip.radios i.events, .fail, List.replicate (readLen c) 0⟩ := by
  simp [reply, h, hi, refChipReply, hrc]

/-- Without one, the chip reacts after the radio events, with the input's override and its draw (R101, R107). -/
theorem reply_refChip_ok (h : s.transport = .refChip) (hi : s.inputs = i :: rest) (hrc : i.rc = .ok) :
    let r := (s.chip.radios i.events).react i.width (drawnBytes s.history i c) c
    reply c s = ⟨r.1, .ok, r.2⟩ := by
  simp [reply, h, hi, refChipReply, hrc]

end Reply

/-! ### The integer view -/

theorem resultInt_mk (n : Nat) : resultInt (mk n) = (n : Int) := by
  by_cases hn : n = 0
  · simp [mk, hn, resultInt]
  · simp [mk, hn, resultInt]

theorem resultInt_eq_zero_iff {r : Result} (h : r ≠ .transport 0) : resultInt r = 0 ↔ r = .ok := by
  cases r with
  | transport n =>
    have hn : n ≠ 0 := fun e => h (e ▸ rfl)
    simp [resultInt, hn]
  | _ => simp [resultInt]

end Sys2Proof.Machine

namespace Sys2Proof.Proofs

open Sys2Proof Sys2Proof.Machine Sys2Proof.Claims

/-- Settles O29: one law of `reply` per transport and pending input, and on RefChip one law of `react` per way the call
decodes. -/
theorem environmentAnswersACall : Obligations.EnvironmentAnswersACall := by
  intro s c
  refine ⟨reply_absent0, reply_absentF, fun h => ⟨reply_blackBox_chip h, reply_length c s⟩, ?_, ?_⟩
  · intro d h hi hd ha
    obtain ⟨drawn, hr⟩ := reply_refChip_nil (c := c) h hi
    rw [hr, react_of_accessible hd ha]
  intro i rest hi
  rw [← RefChip.radios]
  refine ⟨fun h => ?blackBox, fun h hrc => reply_refChip_fail h hi hrc, fun d h hrc hd ha => ?command,
    fun d h hrc hd ha => ?withoutAccess, fun e h hrc he => ?notACommand⟩
  case blackBox =>
    rw [reply_blackBox_cons h hi]
    exact ⟨rfl, fun k b hk hb => drawnBytes_getElem? s.history hk hb⟩
  case command => rw [reply_refChip_ok h hi hrc, react_of_accessible hd ha]
  case withoutAccess =>
    refine ⟨?_, ?_, reply_length c s⟩
    · rw [reply_refChip_ok h hi hrc, react_of_not_accessible hd ha]
    · rw [reply_refChip_ok h hi hrc]
  case notACommand => rw [reply_refChip_ok h hi hrc, react_of_not_command he]

/-- Settles O22: the bytes are `reply_length`, and the frame is what `transact` writes. -/
theorem transactionLeavesOneEvent : Obligations.TransactionLeavesOneEvent :=
  fun c s => ⟨reply_length c s, rfl⟩

/-- Settles O24. -/
theorem integerViewOfResults : Obligations.IntegerViewOfResults :=
  ⟨rfl, fun _ => rfl, rfl, rfl, fun _ => rfl, rfl, rfl, (mk_ok_iff 0).2 rfl,
    fun _ hn => if_neg (Nat.ne_of_gt hn), resultInt_mk, fun _ => resultInt_eq_zero_iff⟩

end Sys2Proof.Proofs

/-! PROOFS. The registers of the block (10_state.md): what each instruction can do to them, said once (R31 to R34, R38,
R64), and from it the invariant and the writers of each register. -/

namespace Sys2Proof.Machine

open Sys2Proof.Claims

/-! ### The last level driven on the pin (R34, R63) -/

@[simp] theorem lastDriven_append_ce (h : List Event) (b : Bool) : lastDriven (h ++ [.ce b]) = some b := by
  simp [lastDriven]

@[simp] theorem lastDriven_append_tinit (h : List Event) (rc : Rc) :
    lastDriven (h ++ [.tinit rc]) = lastDriven h := by simp [lastDriven]

@[simp] theorem lastDriven_append_tdeinit (h : List Event) : lastDriven (h ++ [.tdeinit]) = lastDriven h := by
  simp [lastDriven]

/-- A bus transaction drives no level. -/
@[simp] theorem lastDriven_append_eventIn (h : List Event) (c : Call) (s : State) :
    lastDriven (h ++ [eventIn c s]) = lastDriven h := by
  cases c <;> simp [lastDriven, eventIn, eventOf]

/-! ### What leaves the block alone -/

/-- `t` has the registers of the block, the port and the parameter of `s`; the block has driven no level on the way, has
at most used pending inputs up, and the pin moved only if one of them moves it. -/
structure Kept (s t : State) : Prop where
  bound : t.bound = s.bound
  role : t.role = s.role
  ackPipe : t.ackPipe = s.ackPipe
  radioEnabled : t.radioEnabled = s.radioEnabled
  transport : t.transport = s.transport
  pending : t.pending = s.pending
  noackInPrx : t.noackInPrx = s.noackInPrx
  driven : lastDriven t.history = lastDriven s.history
  inputs : ∀ j ∈ t.inputs, j ∈ s.inputs
  pin : (∀ j ∈ s.inputs, j.pin = none) → t.ce = s.ce

theorem Kept.refl (s : State) : Kept s s := by constructor <;> simp

theorem Kept.trans {s t u : State} (h : Kept s t) (k : Kept t u) : Kept s u where
  bound := k.bound.trans h.bound
  role := k.role.trans h.role
  ackPipe := k.ackPipe.trans h.ackPipe
  radioEnabled := k.radioEnabled.trans h.radioEnabled
  transport := k.transport.trans h.transport
  pending := k.pending.trans h.pending
  noackInPrx := k.noackInPrx.trans h.noackInPrx
  driven := k.driven.trans h.driven
  inputs := fun j hj => h.inputs j (k.inputs j hj)
  pin := fun hs => (k.pin fun j hj => hs j (h.inputs j hj)).trans (h.pin hs)

theorem kept_transact (c : Call) (s : State) : Kept s (transact c s) :=
  { bound := rfl, role := rfl, ackPipe := rfl, radioEnabled := rfl, transport := rfl, pending := rfl, noackInPrx := rfl
    driven := lastDriven_append_eventIn _ c s
    inputs := fun _ hj => List.mem_of_mem_tail hj
    pin := movedPin_of_still }

theorem kept_issueAll (cs : List Call) (s : State) : Kept s (issueAll cs s) := by
  induction cs generalizing s with
  | nil => exact .refl s
  | cons c cs ih => exact (kept_transact c s).trans (ih _)

theorem kept_modifyBits (a : BitVec 5) (m v : Byte) (s : State) : Kept s (modifyBits a m v s) := by
  rcases modifyBits_run a m v s with h | ⟨b, h⟩ <;> rw [h] <;> exact kept_issueAll _ s

theorem kept_writeRoleBit (r : Role) (s : State) : Kept s (writeRoleBit r s) := kept_modifyBits _ _ _ s

theorem kept_writePower (v : Byte) (s : State) : Kept s (writePower v s) := kept_modifyBits _ _ _ s

theorem kept_checkState (s : State) : Kept s (checkState s) := kept_issueAll _ s

/-! ### What an instruction does to the registers of the block -/

/-- The state an instruction reaches before it responds: one that keeps the block's registers, or what one of the nine writers of
R31 to R34 makes of it. -/
inductive Effect (s : State) : Instr → State → Prop where
  | kept {i : Instr} {t : State} : Kept s t → Effect s i t
  | setAckPipe (b : Byte) (p : Fin 6) : s.bound = true → Effect s (.setAckPipe b) { s with ackPipe := some p }
  | switchRole (b : Byte) (r : Role) {t : State} : s.bound = true → s.role ≠ none →
      Kept { s with role := some r } t → Effect s (.switchRole b) t
  | switchRoleDirectly (b : Byte) (r : Role) {t : State} : s.bound = true → s.role ≠ none →
      Kept { s with role := some r } t → Effect s (.switchRoleDirectly b) t
  | cfgWrite (c : RadioConfig) {t : State} : s.radioEnabled = some true →
      Kept (driveCe false s) t → Effect s (.cfgWrite c) (driveCe true t)
  | initFailed (x : Transport) : Effect s (.init x) (transportInit x s)
  | initBound (x : Transport) : s.bound = false →
      Effect s (.init x) { transportInit x s with bound := true, ackPipe := some 0, transport := x }
  | setup (b : Byte) (c : Option RadioConfig) (l : Option (List (Byte × Byte))) (r : Role) {t u v : State} :
      s.bound = true → Kept s t → Kept (driveCe false t) u → Kept { u with role := some r } v →
      Effect s (.setup b c l) (driveCe true v)
  | deinit {t : State} : Kept s t → Effect s .deinit (release (driveCe false t))
  | radioOn : Effect s .radioOn (driveCe true s)
  | radioOff : Effect s .radioOff (driveCe false s)

/-- The outcome is a response, with at least one failure if it counts failures, in a state that meets `P`. -/
def Answers (P : State → Prop) (o : Host.Outcome State Fault Refusal) : Prop :=
  ∀ t, o = .next t → ∃ r out u, t = respond r out u ∧ r ≠ .transport 0 ∧ P u

theorem mk_ne_transport_zero (n : Nat) : mk n ≠ .transport 0 := fun h => absurd (mk_transport h).2 (by decide)

section Answers

variable {P Q : State → Prop} {s u : State} {k : Host.Outcome State Fault Refusal}

theorem Answers.mono (h : Answers P k) (hPQ : ∀ u, P u → Q u) : Answers Q k := by
  intro t ht
  obtain ⟨r, out, u, hu, hr, hp⟩ := h t ht
  exact ⟨r, out, u, hu, hr, hPQ u hp⟩

theorem answers_answer {r : Result} (hr : r ≠ .transport 0) (out : Output) (hu : P u) : Answers P (answer r out u) :=
  fun _ ht => ⟨r, out, u, answer_eq_next.1 ht, hr, hu⟩

theorem answers_mk (n : Nat) (out : Output) (hu : P u) : Answers P (answer (mk n) out u) :=
  answers_answer (mk_ne_transport_zero n) out hu

theorem answers_ok (out : Output) (hu : P u) : Answers P (answer .ok out u) := answers_answer (by simp) out hu

theorem answers_reject (r : Reason) (hs : P s) : Answers P (reject r s) := answers_answer (by simp) .none hs

theorem answers_whenBound (hs : P s) (h : s.bound = true → Answers P k) : Answers P (whenBound s k) := by
  intro t ht
  rcases whenBound_next ht with ⟨-, rfl⟩ | ⟨hb, hk⟩
  · exact ⟨_, _, s, rfl, by simp, hs⟩
  · exact h hb t hk

theorem answers_ite {b : Prop} [Decidable b] {k' : Host.Outcome State Fault Refusal} (h : b → Answers P k)
    (h' : ¬ b → Answers P k') : Answers P (if b then k else k') := by
  split
  · exact h ‹_›
  · exact h' ‹_›

end Answers

/-! #### The operations that write no register of the block -/

section KeptOps

variable {s : State} {k : Host.Outcome State Fault Refusal}

theorem kept_single (c : Call) (s : State) : Answers (Kept s) (single c s) := answers_mk _ _ (kept_transact c s)

theorem kept_wireStep (c : WireCmd) (s : State) : Answers (Kept s) (wireStep c s) :=
  answers_mk _ _ (kept_transact c.call s)

theorem kept_undecoded (r : Request) (s : State) : Answers (Kept s) (undecoded r s) := by
  cases r with
  | host op w => exact answers_reject _ (.refl s)
  | wire c => exact answers_mk _ _ (kept_transact c s)

theorem kept_reject (r : Reason) (s : State) : Answers (Kept s) (reject r s) := answers_reject r (.refl s)

theorem kept_whenBound (h : Answers (Kept s) k) : Answers (Kept s) (whenBound s k) :=
  answers_whenBound (.refl s) fun _ => h

/-- A check of an operand, then the operation (R305). -/
theorem kept_checked {b : Prop} [Decidable b] (h : Answers (Kept s) k) (r : Reason) :
    Answers (Kept s) (if b then k else reject r s) := answers_ite (fun _ => h) fun _ => kept_reject r s

theorem kept_fifoQuery (q : Byte → Bool) (s : State) : Answers (Kept s) (fifoQuery q s) :=
  kept_whenBound (answers_ok _ (kept_transact _ s))

theorem kept_execTxWrite (d : List Byte) (n : Nat) (s : State) : Answers (Kept s) (execTxWrite d n s) := by
  refine kept_whenBound (kept_checked ?_ _)
  split
  · exact kept_reject _ s
  · exact kept_reject _ s
  · exact kept_single _ s
  · exact kept_single _ s

theorem kept_execTxWriteNoAck (d : List Byte) (n : Nat) (s : State) : Answers (Kept s) (execTxWriteNoAck d n s) := by
  refine kept_whenBound (kept_checked ?_ _)
  split
  · exact kept_reject _ s
  · exact kept_reject _ s
  · exact kept_single _ s
  · exact kept_single _ s

theorem kept_execRxRead (s : State) : Answers (Kept s) (execRxRead s) := by
  refine kept_whenBound (answers_ite (fun _ => ?_) fun _ => answers_ite (fun _ => ?_) fun _ => ?_)
  · exact answers_answer (by simp) _ (kept_transact _ s)
  · exact fun _ ht => absurd ht (by simp)
  · exact answers_mk _ _ (kept_issueAll _ s)

end KeptOps

theorem checkResult_ne_transport_zero (s : State) : checkResult s ≠ .transport 0 := by
  unfold checkResult
  split
  · simp
  · exact mk_ne_transport_zero _

/-! #### The nine writers -/

theorem effect_execSetAckPipe (b : Byte) (s : State) :
    Answers (Effect s (.setAckPipe b)) (execSetAckPipe b s) := by
  refine answers_whenBound (.kept (.refl s)) fun hb => ?_
  split
  · exact answers_ok _ (.setAckPipe b _ hb)
  · exact answers_reject _ (.kept (.refl s))

theorem effect_execSwitchRole (b : Byte) (s : State) :
    Answers (Effect s (.switchRole b)) (execSwitchRole b s) := by
  refine answers_whenBound (.kept (.refl s)) fun hb => ?_
  split
  case h_1 => exact answers_reject _ (.kept (.refl s))
  case h_2 => exact answers_reject _ (.kept (.refl s))
  case h_3 r current _ hrole =>
    refine answers_ite (fun _ => answers_ok _ (.kept (.refl s))) fun _ => answers_mk _ _ ?_
    exact .switchRole b r hb (by simp [hrole]) ((kept_issueAll _ _).trans (kept_writeRoleBit _ _))

theorem effect_execSwitchRoleDirectly (b : Byte) (s : State) :
    Answers (Effect s (.switchRoleDirectly b)) (execSwitchRoleDirectly b s) := by
  refine answers_whenBound (.kept (.refl s)) fun hb => ?_
  split
  case h_1 => exact answers_reject _ (.kept (.refl s))
  case h_2 => exact answers_reject _ (.kept (.refl s))
  case h_3 r current _ hrole =>
    exact answers_mk _ _ (.switchRoleDirectly b r hb (by simp [hrole]) (kept_writeRoleBit _ _))

theorem effect_execCfgWrite (c : RadioConfig) (s : State) : Answers (Effect s (.cfgWrite c)) (execCfgWrite c s) := by
  refine answers_whenBound (.kept (.refl s)) fun _ =>
    answers_ite (fun _ => ?_) fun _ => answers_reject _ (.kept (.refl s))
  split
  case h_1 => exact answers_reject _ (.kept (.refl s))
  case h_2 => exact answers_mk _ _ (.kept (kept_issueAll _ s))
  case h_3 hon => exact answers_mk _ _ (.cfgWrite c hon (kept_issueAll _ _))

theorem effect_execInit (x : Transport) (s : State) : Answers (Effect s (.init x)) (execInit x s) := by
  unfold execInit
  refine answers_ite (fun _ => answers_reject _ (.kept (.refl s))) fun hb => ?_
  split
  · exact answers_answer (by simp) _ (.initFailed x)
  · exact answers_ok _ (.initBound x (by simpa using hb))

theorem effect_execSetup (b : Byte) (c : Option RadioConfig) (l : Option (List (Byte × Byte))) (s : State) :
    Answers (Effect s (.setup b c l)) (execSetup b c l s) := by
  have hrefused (r : Reason) : Answers (Effect s (.setup b c l)) (reject r s) := answers_reject r (.kept (.refl s))
  refine answers_whenBound (.kept (.refl s)) fun hb => ?_
  split
  · exact hrefused _
  · refine answers_ite (fun _ => hrefused _) fun _ => answers_ite (fun _ => hrefused _) fun _ =>
      answers_ite (fun _ => answers_mk _ _ ?_) fun _ => answers_answer (checkResult_ne_transport_zero s) _ ?_
    · exact .setup b c l _ hb ((kept_checkState s).trans (kept_writePower 0 _)) (kept_issueAll _ _)
        ((kept_writeRoleBit _ _).trans (kept_writePower 1 _))
    · exact .kept (kept_checkState s)

theorem effect_execDeinit (s : State) : Answers (Effect s .deinit) (execDeinit s) :=
  answers_ite (fun _ => answers_mk _ _ (.deinit (kept_writePower 0 s))) fun _ => answers_ok _ (.kept (.refl s))

/-- What an instruction that goes on does to the registers of the block, and that it then responds. -/
theorem exec_effect (i : Instr) (s : State) : Answers (Effect s i) (exec i s) := by
  have keeps {k : Host.Outcome State Fault Refusal} (h : Answers (Kept s) k) : Answers (Effect s i) k :=
    h.mono fun _ => .kept
  cases i with
  | rRegister a n => exact keeps (kept_wireStep _ s)
  | wRegister a d => exact keeps (kept_wireStep _ s)
  | rRxPayload n => exact keeps (kept_wireStep _ s)
  | wTxPayload d => exact keeps (kept_wireStep _ s)
  | flushTx => exact keeps (kept_wireStep _ s)
  | flushRx => exact keeps (kept_wireStep _ s)
  | reuseTxPl => exact keeps (kept_wireStep _ s)
  | wireActivate => exact keeps (kept_wireStep _ s)
  | rRxPlWid => exact keeps (kept_wireStep _ s)
  | wAckPayload p d => exact keeps (kept_wireStep _ s)
  | wTxPayloadNoack d => exact keeps (kept_wireStep _ s)
  | getBits b m => exact keeps (kept_checked (answers_ok _ (.refl s)) _)
  | setBits b m v => exact keeps (kept_checked (answers_ok _ (.refl s)) _)
  | readRegister a => exact keeps (kept_whenBound (kept_checked (answers_mk _ _ (kept_transact _ s)) _))
  | writeRegister a b => exact keeps (kept_whenBound (kept_checked (kept_single _ s) _))
  | readRegisters a n => exact keeps (kept_whenBound (kept_checked (answers_mk _ _ (kept_transact _ s)) _))
  | writeRegisters a bs => exact keeps (kept_whenBound (kept_checked (kept_single _ s) _))
  | modifyRegisterBits a m v =>
    exact keeps (kept_whenBound (answers_ite (fun _ => kept_reject _ s) fun _ =>
      answers_ite (fun _ => kept_reject _ s) fun _ => answers_mk _ _ (kept_modifyBits _ m v s)))
  | reuseTx => exact keeps (kept_whenBound (kept_single _ s))
  | activate => exact keeps (kept_whenBound (kept_single _ s))
  | txHasSpace => exact keeps (kept_fifoQuery _ s)
  | txIsEmpty => exact keeps (kept_fifoQuery _ s)
  | txWrite d n => exact keeps (kept_execTxWrite d n s)
  | txWriteNoAck d n => exact keeps (kept_execTxWriteNoAck d n s)
  | setAckPipe b => exact effect_execSetAckPipe b s
  | getAckPipe =>
    refine keeps (kept_whenBound ?_)
    split
    · exact answers_ok _ (.refl s)
    · exact kept_reject _ s
  | rxHasData => exact keeps (kept_fifoQuery _ s)
  | rxIsFull => exact keeps (kept_fifoQuery _ s)
  | rxRead => exact keeps (kept_execRxRead s)
  | txFlush => exact keeps (kept_whenBound (kept_single _ s))
  | rxFlush => exact keeps (kept_whenBound (kept_single _ s))
  | statusRead => exact keeps (kept_whenBound (answers_ok _ (kept_transact _ s)))
  | statusClear sel => exact keeps (kept_whenBound (kept_single _ s))
  | statusClearAll => exact keeps (kept_whenBound (kept_single _ s))
  | clearTxFail => exact keeps (kept_whenBound (kept_single _ s))
  | decode b => exact keeps (answers_ok _ (.refl s))
  | switchRole b => exact effect_execSwitchRole b s
  | switchRoleDirectly b => exact effect_execSwitchRoleDirectly b s
  | getRole =>
    refine keeps (kept_whenBound ?_)
    split
    · exact answers_ok _ (.refl s)
    · exact kept_reject _ s
  | cfgWriteDirectly c => exact keeps (kept_whenBound (kept_checked (answers_mk _ _ (kept_issueAll _ s)) _))
  | cfgWriteDiff o c => exact keeps (kept_whenBound (kept_checked (answers_mk _ _ (kept_issueAll _ s)) _))
  | cfgRead => exact keeps (kept_whenBound (answers_mk _ _ (kept_issueAll _ s)))
  | cfgWrite c => exact effect_execCfgWrite c s
  | init x => exact effect_execInit x s
  | checkDevice =>
    exact keeps (kept_whenBound (answers_answer (checkResult_ne_transport_zero s) _ (kept_checkState s)))
  | setup b c l => exact effect_execSetup b c l s
  | deinit => exact effect_execDeinit s
  | powerUp => exact keeps (kept_whenBound (answers_mk _ _ (kept_writePower 1 s)))
  | powerDown => exact keeps (kept_whenBound (answers_mk _ _ (kept_writePower 0 s)))
  | radioOn => exact answers_whenBound (.kept (.refl s)) fun _ => answers_ok _ .radioOn
  | radioOff => exact answers_whenBound (.kept (.refl s)) fun _ => answers_ok _ .radioOff

/-! ### The invariant of the lifecycle (R64, R315) -/

/-- The lifecycle looks at the registers of the block and the last level driven only. -/
theorem lifecycle_of_eq {s t : State} (hs : s.Lifecycle) (hb : t.bound = s.bound) (hr : t.role = s.role)
    (ha : t.ackPipe = s.ackPipe) (he : t.radioEnabled = s.radioEnabled)
    (hd : lastDriven t.history = lastDriven s.history) : t.Lifecycle where
  unbound := by rw [hb, hr, ha]; exact hs.unbound
  bound := by rw [hb, ha]; exact hs.bound
  ready := by rw [hr, he]; exact hs.ready
  mirror := by rw [he, hd]; exact hs.mirror

theorem Kept.lifecycle {s t : State} (h : Kept s t) (hs : s.Lifecycle) : t.Lifecycle :=
  lifecycle_of_eq hs h.bound h.role h.ackPipe h.radioEnabled h.driven

/-- The block's own `T.ce` sets the mirror with the pin (R286, R287). -/
theorem lifecycle_driveCe {s : State} (hs : s.Lifecycle) (b : Bool) : (driveCe b s).Lifecycle where
  unbound := hs.unbound
  bound := hs.bound
  ready := by simp
  mirror := by simp

/-- A role is stored on a bound block whose radio flag has a value (R251, R252, R282). -/
theorem lifecycle_setRole {s : State} (hs : s.Lifecycle) (hb : s.bound = true) (he : s.radioEnabled ≠ none)
    (r : Role) : ({ s with role := some r } : State).Lifecycle where
  unbound := fun hu => absurd (hb.symm.trans hu) (by decide)
  bound := hs.bound
  ready := fun _ => he
  mirror := hs.mirror

theorem lifecycle_setAckPipe {s : State} (hs : s.Lifecycle) (hb : s.bound = true) (p : Fin 6) :
    ({ s with ackPipe := some p } : State).Lifecycle where
  unbound := fun hu => absurd (hb.symm.trans hu) (by decide)
  bound := by simp
  ready := hs.ready
  mirror := hs.mirror

theorem lifecycle_transportInit {s : State} (hs : s.Lifecycle) (x : Transport) : (transportInit x s).Lifecycle :=
  lifecycle_of_eq hs rfl rfl rfl rfl (by simp)

theorem lifecycle_bind {s : State} (hs : s.Lifecycle) (x : Transport) :
    ({ s with bound := true, ackPipe := some 0, transport := x } : State).Lifecycle where
  unbound := by simp
  bound := by simp
  ready := hs.ready
  mirror := hs.mirror

theorem lifecycle_release {s : State} (hs : s.Lifecycle) : (release s).Lifecycle where
  unbound := by simp
  bound := by simp
  ready := by simp
  mirror := by simpa using hs.mirror

theorem Effect.lifecycle {i : Instr} {s t : State} (h : Effect s i t) (hs : s.Lifecycle) : t.Lifecycle := by
  cases h with
  | kept hk => exact hk.lifecycle hs
  | setAckPipe b p hb => exact lifecycle_setAckPipe hs hb p
  | switchRole b r hb hr hk => exact hk.lifecycle (lifecycle_setRole hs hb (hs.ready hr) r)
  | switchRoleDirectly b r hb hr hk => exact hk.lifecycle (lifecycle_setRole hs hb (hs.ready hr) r)
  | cfgWrite c _ hk => exact lifecycle_driveCe (hk.lifecycle (lifecycle_driveCe hs false)) true
  | initFailed x => exact lifecycle_transportInit hs x
  | initBound x _ => exact lifecycle_bind (lifecycle_transportInit hs x) x
  | setup b c l r hb hk₁ hk₂ hk₃ =>
    have hoff := hk₂.lifecycle (lifecycle_driveCe (hk₁.lifecycle hs) false)
    have hnamed := lifecycle_setRole hoff (by rw [hk₂.bound, driveCe_bound, hk₁.bound, hb])
      (by rw [hk₂.radioEnabled]; simp) r
    exact lifecycle_driveCe (hk₃.lifecycle hnamed) true
  | deinit hk => exact lifecycle_release (lifecycle_driveCe (hk.lifecycle hs) false)
  | radioOn => exact lifecycle_driveCe hs true
  | radioOff => exact lifecycle_driveCe hs false

/-! ### The invariant of the machine -/

theorem counted_iff (r : Response) : r.Counted ↔ r.result ≠ .transport 0 := by
  constructor
  · intro h h0
    exact absurd (h 0 h0) (by decide)
  · intro h n hn
    exact Nat.pos_of_ne_zero fun h0 => h (h0 ▸ hn)

/-- A state that keeps the chip sound and the lifecycle meets the invariant once it has responded. -/
theorem inv_respond {r : Result} {u : State} (hr : r ≠ .transport 0) (out : Output) (hc : u.chip.Sound)
    (hl : u.Lifecycle) : (respond r out u).Inv where
  chip := hc
  lifecycle := lifecycle_of_eq hl rfl rfl rfl rfl rfl
  counted := fun q hq => (counted_iff q).2 (by obtain rfl := Option.some.inj hq; exact hr)

theorem inv_takeItem {s : State} (hs : s.Inv) (rest : List PortItem) : (takeItem rest s).Inv :=
  ⟨hs.chip, lifecycle_of_eq hs.lifecycle rfl rfl rfl rfl rfl, hs.counted⟩

theorem inv_radioEvent {s : State} (hs : s.Inv) (e : ChipEvent) : (radioEvent e s).Inv :=
  ⟨sound_radio hs.chip e, lifecycle_of_eq hs.lifecycle rfl rfl rfl rfl rfl, hs.counted⟩

theorem inv_pinMove {s : State} (hs : s.Inv) (b : Bool) : (pinMove b s).Inv :=
  ⟨hs.chip, lifecycle_of_eq hs.lifecycle rfl rfl rfl rfl rfl, hs.counted⟩

theorem exec_inv {i : Instr} {s t : State} (hs : s.Inv) (h : exec i s = .next t) : t.Inv := by
  have hc : t.chip.Sound := (exec_path h).sound hs.chip
  obtain ⟨r, out, u, rfl, hr, hu⟩ := exec_effect i s t h
  exact inv_respond hr out hc (hu.lifecycle hs.lifecycle)

theorem undecoded_sound {r : Request} {s t : State} (hs : s.chip.Sound) (h : undecoded r s = .next t) :
    t.chip.Sound := by
  cases r with
  | host op w => obtain rfl := reject_eq_next.1 h; exact hs
  | wire c => obtain rfl := answer_eq_next.1 h; exact reply_sound c hs

theorem undecoded_inv {r : Request} {s t : State} (hs : s.Inv) (h : undecoded r s = .next t) : t.Inv := by
  have hc := undecoded_sound hs.chip h
  obtain ⟨q, out, u, rfl, hq, hu⟩ := kept_undecoded r s t h
  exact inv_respond hq out hc (hu.lifecycle hs.lifecycle)

end Sys2Proof.Machine

namespace Sys2Proof.Proofs

open Sys2Proof Sys2Proof.Machine Sys2Proof.Claims

/-- Settles O8. -/
theorem powerOnMeetsTheInvariant : Obligations.PowerOnMeetsTheInvariant where
  chip := sound_por
  lifecycle := ⟨fun _ => ⟨rfl, rfl⟩, by simp [State.reset], by simp [State.reset], rfl⟩
  counted := by simp [State.reset]

/-- Settles O9, by the item the step takes off the ports: `exec_effect` says what an instruction leaves of the block's
registers, and `exec_path` that the chip stays sound. -/
theorem everyStepKeepsTheInvariant : Obligations.EveryStepKeepsTheInvariant := by
  intro s t hs h
  unfold step at h
  split at h
  case h_1 => obtain rfl := Host.Outcome.next.inj h; exact hs
  case h_2 e rest _ =>
    obtain rfl := Host.Outcome.next.inj h
    exact inv_radioEvent (inv_takeItem hs rest) e
  case h_3 b rest _ =>
    obtain rfl := Host.Outcome.next.inj h
    exact inv_pinMove (inv_takeItem hs rest) b
  case h_4 r rest _ =>
    split at h
    · exact exec_inv (inv_takeItem hs rest) h
    · exact undecoded_inv (inv_takeItem hs rest) h

end Sys2Proof.Proofs

/-! PROOFS. Rules over every operation: the binding check (R31), the writers of the block's registers (R31 to R34, R38),
and the commands a host operation issues (R136, R190). -/

namespace Sys2Proof.Machine

open Sys2Proof.Claims

/-- Every host operation but the five exempt ones begins with the check of the binding (R31). -/
theorem exec_eq_whenBound {i : Instr} (hi : i.isHost = true) (he : exemptFromBinding i = false) (s : State) :
    ∃ k, exec i s = whenBound s k := by
  cases i with
  | rRegister | wRegister | rRxPayload | wTxPayload | flushTx | flushRx | reuseTxPl | wireActivate | rRxPlWid
  | wAckPayload | wTxPayloadNoack => exact nomatch hi
  | getBits | setBits | decode | init | deinit => exact nomatch he
  | _ => exact ⟨_, rfl⟩

/-! ### The registers and their writers -/

theorem Kept.registers {s t : State} (h : Kept s t) :
    t.bound = s.bound ∧ t.role = s.role ∧ t.ackPipe = s.ackPipe ∧ t.radioEnabled = s.radioEnabled ∧
      t.transport = s.transport ∧ t.pending = s.pending ∧ t.noackInPrx = s.noackInPrx :=
  ⟨h.bound, h.role, h.ackPipe, h.radioEnabled, h.transport, h.pending, h.noackInPrx⟩

/-- Where the block drives no level, only a pending input moves the pin (R60 b). -/
theorem Kept.moved {s t : State} (h : Kept s t) (hce : t.ce ≠ s.ce) : ∃ j ∈ s.inputs, j.pin ≠ none := by
  by_contra hno
  exact hce (h.pin fun j hj => by_contra fun hp => hno ⟨j, hj, hp⟩)

/-! ### The pin and its mirror -/

/-- The pin stands at the level of the block's mirror, where the mirror has a value (R34). -/
def Mirrored (s : State) : Prop := ∀ b, s.radioEnabled = some b → s.ce = b

/-- Where no pending input moves the pin, an instruction other than `init` keeps it at the level of its mirror. -/
theorem Effect.mirrored {i : Instr} {s t : State} (h : Effect s i t) (hi : ∀ x, i ≠ .init x)
    (hstill : ∀ j ∈ s.inputs, j.pin = none) (hm : Mirrored s) : Mirrored t := by
  have keeps {u v : State} (hk : Kept u v) (hu : ∀ j ∈ u.inputs, j.pin = none) (hm : Mirrored u) : Mirrored v := by
    intro b hb
    rw [hk.pin hu]
    exact hm b (hk.radioEnabled ▸ hb)
  have driven (b : Bool) (u : State) : Mirrored (driveCe b u) := fun _ hc => Option.some.inj hc
  cases h with
  | kept hk => exact keeps hk hstill hm
  | setAckPipe b p _ => exact hm
  | switchRole b r _ _ hk => exact keeps hk hstill hm
  | switchRoleDirectly b r _ _ hk => exact keeps hk hstill hm
  | initFailed x => exact absurd rfl (hi x)
  | initBound x _ => exact absurd rfl (hi x)
  | @deinit u _ => exact driven false u
  | cfgWrite => exact driven true _
  | setup => exact driven true _
  | radioOn => exact driven true s
  | radioOff => exact driven false s

/-! ### The commands a host operation issues -/

/-- The frame of one of the 11 commands, within its lengths (R134). -/
def IsCommand (c : Call) : Prop := ∃ d : WireCmd, d.wf = true ∧ c = d.call

theorem isCommand_readByteCall (a : BitVec 5) : IsCommand (readByteCall a) := ⟨.rRegister a 1, rfl, rfl⟩

theorem isCommand_writeByteCall (a : BitVec 5) (b : Byte) : IsCommand (writeByteCall a b) :=
  ⟨.wRegister a [b], rfl, rfl⟩

theorem isCommand_modifyCall {a : BitVec 5} {c : Call} (h : ModifyCall a c) : IsCommand c := by
  rcases h with rfl | ⟨b, rfl⟩
  · exact isCommand_readByteCall a
  · exact isCommand_writeByteCall a b

theorem isCommand_softClear : ∀ c ∈ softClearCalls, IsCommand c := by
  simp only [softClearCalls, List.forall_mem_cons]
  exact ⟨⟨.flushTx, rfl, rfl⟩, ⟨.flushRx, rfl, rfl⟩, isCommand_writeByteCall _ _, by simp⟩

theorem isCommand_checkCall {c : Call} (h : CheckCall c) : IsCommand c := by
  rcases h with rfl | ⟨bs, hbs, rfl⟩
  · exact ⟨.rRegister regRxAddrP0 5, rfl, rfl⟩
  · exact ⟨.wRegister regRxAddrP0 bs, by simp [WireCmd.wf, countOk, hbs], rfl⟩

theorem isCommand_tableCall {t : List (Byte × Byte)} {c : Call} (h : c ∈ tableCalls t) : IsCommand c := by
  obtain ⟨p, -, rfl⟩ := List.mem_map.1 h
  exact isCommand_writeByteCall _ _

/-- A well-formed configuration gives each governed register one byte or five (R260 to R265). -/
theorem governed_bytes_length {c : RadioConfig} (h : configOk c = true) (g : Governed) :
    (g.bytes c).length = g.width := by
  obtain ⟨-, -, htx, h0, h1, -⟩ := (configOk_iff c).1 h
  cases g <;> simp [Governed.bytes, Governed.width, htx, h0, h1]

theorem isCommand_configCall {cfg : RadioConfig} {c : Call} (hcfg : configOk cfg = true) (h : c ∈ configCalls cfg) :
    IsCommand c := by
  obtain ⟨g, -, rfl⟩ := List.mem_map.1 h
  refine ⟨.wRegister g.addr (g.bytes cfg), ?_, rfl⟩
  rw [WireCmd.wf, governed_bytes_length hcfg]
  cases g <;> rfl

theorem isCommand_readConfigCall {c : Call} (h : c ∈ readConfigCalls) : IsCommand c := by
  obtain ⟨g, -, rfl⟩ := List.mem_map.1 h
  exact ⟨.rRegister g.addr g.width, by cases g <;> rfl, rfl⟩

/-- A host operation issues only frames of the 11 commands (R136, R190). -/
theorem MayIssue.isCommand {i : Instr} {c : Call} (hi : i.isHost = true) (h : MayIssue i c) : IsCommand c := by
  cases i with
  | rRegister | wRegister | rRxPayload | wTxPayload | flushTx | flushRx | reuseTxPl | wireActivate | rRxPlWid
  | wAckPayload | wTxPayloadNoack => exact nomatch hi
  | getBits | setBits | setAckPipe | getAckPipe | decode | getRole | init | radioOn | radioOff => exact h.elim
  | readRegister | txHasSpace | txIsEmpty | rxHasData | rxIsFull | statusRead => exact h ▸ isCommand_readByteCall _
  | writeRegister | statusClear | statusClearAll | clearTxFail => exact h ▸ isCommand_writeByteCall _ _
  | modifyRegisterBits | switchRoleDirectly | deinit | powerUp | powerDown => exact isCommand_modifyCall h
  | reuseTx => exact ⟨.reuseTxPl, rfl, h⟩
  | activate => exact ⟨.activate, rfl, h⟩
  | txFlush => exact ⟨.flushTx, rfl, h⟩
  | rxFlush => exact ⟨.flushRx, rfl, h⟩
  | readRegisters a n => exact ⟨.rRegister (regAddr a) n, h⟩
  | writeRegisters a bs => exact ⟨.wRegister (regAddr a) bs, h⟩
  | txWrite d n =>
    obtain ⟨hd, rfl | ⟨p, rfl⟩⟩ := h
    · exact ⟨.wTxPayload d, by simpa [WireCmd.wf] using hd, rfl⟩
    · exact ⟨.wAckPayload (BitVec.ofNat 3 p.val) d, by simp [WireCmd.wf, hd]; omega, rfl⟩
  | txWriteNoAck d n => exact ⟨.wTxPayloadNoack d, by simpa [WireCmd.wf] using h.1, h.2⟩
  | rxRead =>
    obtain rfl | rfl | ⟨n, h1, h32, rfl⟩ := h
    · exact ⟨.rRxPlWid, rfl, rfl⟩
    · exact isCommand_readByteCall _
    · exact ⟨.rRxPayload n, by simp [WireCmd.wf, h1, h32], rfl⟩
  | switchRole r =>
    rcases h with h | h
    · exact isCommand_softClear c h
    · exact isCommand_modifyCall h
  | cfgWriteDirectly | cfgWriteDiff | cfgWrite => exact isCommand_configCall h.1 h.2
  | cfgRead => exact isCommand_readConfigCall h
  | checkDevice => exact isCommand_checkCall h
  | setup b cfg t =>
    rcases h with h | h | h | h | ⟨hok, h⟩
    · exact isCommand_checkCall h
    · exact isCommand_modifyCall h
    · exact isCommand_softClear c h
    · exact isCommand_tableCall h
    · exact isCommand_configCall hok h

theorem PinEvent.isPinEvent {e : Event} (h : PinEvent e) : isPinEvent e = true := by
  rcases h with ⟨b, rfl⟩ | ⟨rc, rfl⟩ | rfl <;> rfl

end Sys2Proof.Machine

namespace Sys2Proof.Proofs

open Sys2Proof Sys2Proof.Machine Sys2Proof.Claims

/-- Settles O12: an unbound block stops at the check of the binding. -/
theorem unboundInstanceRefusesOperations : Obligations.UnboundInstanceRefusesOperations := by
  intro i s hi he hb
  obtain ⟨k, hk⟩ := exec_eq_whenBound hi he s
  exact hk.trans (whenBound_false hb k)

/-- Settles O15: along the path of a host operation every call is a command. -/
theorem hostOperationsIssueOnlyTheElevenCommands : Obligations.HostOperationsIssueOnlyTheElevenCommands := by
  intro i s t hi h
  obtain ⟨es, hes, hall⟩ := (exec_path h).history
  refine ⟨es, hes, fun e he => ?_⟩
  rcases hall e he with hpin | ⟨c, rc, bs, hc, rfl⟩
  · exact .inl hpin.isPinEvent
  · obtain ⟨d, hd, rfl⟩ := hc.isCommand hi
    exact .inr ⟨d, rc, bs, hd, rfl⟩

/-- Settles O19, by what the instruction does to them. -/
theorem instanceRegistersHaveTheirWriters : Obligations.InstanceRegistersHaveTheirWriters := by
  intro i s t h
  have hvariant := (exec_path h).variant
  obtain ⟨r, out, u, rfl, -, hu⟩ := exec_effect i s t h
  refine ⟨?bound, ?transport, ?role, ?ackPipe, ?radioEnabled, ?pin,
    fun hstill hi hm => hu.mirrored hi hstill hm, ?pending, ?noack, hvariant⟩
  case pin =>
    intro hce
    cases hu with
    | kept hk | switchRole _ _ _ _ hk | switchRoleDirectly _ _ _ _ hk => simp [hk.moved hce]
    | setAckPipe => exact absurd rfl hce
    | _ => simp
  all_goals
    cases hu with
    | kept hk | switchRole _ _ _ _ hk | switchRoleDirectly _ _ _ _ hk | deinit hk => simp [hk.registers]
    | cfgWrite _ hon hk => simp [hk.registers, hon]
    | setup _ _ _ _ _ hk₁ hk₂ hk₃ => simp [hk₁.registers, hk₂.registers, hk₃.registers]
    | _ => simp

end Sys2Proof.Proofs

/-! PROOFS. The block on a quiet RefChip: what its runs of commands leave in the chip (R99, R100, R106), and with that the
state after `setup` (R67, R281, R282). -/

namespace Sys2Proof.Machine

open Sys2Proof.Claims

/-! ### A command's call decodes to the command (R134, R137) -/

theorem classify_read : ∀ a : BitVec 5, classify (0x00 ||| a.setWidth 8) = some (.rRegister a) := by decide

theorem classify_write : ∀ a : BitVec 5, classify (0x20 ||| a.setWidth 8) = some (.wRegister a) := by decide

theorem classify_ackPayload : ∀ p : BitVec 3, p.toNat ≤ 5 → classify (0xA8 ||| p.setWidth 8) = some (.wAckPayload p) := by
  decide

theorem lengthChecked_of_wf {d : WireCmd} (h : d.wf = true) : lengthChecked d = .ok d := if_pos h

theorem decodeWireCmd_call {d : WireCmd} (h : d.wf = true) : decodeWireCmd d.call = .ok d := by
  cases d with
  | rRegister a n => simp only [WireCmd.call, decodeWireCmd, classify_read]; exact lengthChecked_of_wf h
  | wRegister a d => simp only [WireCmd.call, decodeWireCmd, classify_write]; exact lengthChecked_of_wf h
  | wAckPayload p d =>
    have hp : p.toNat ≤ 5 := of_decide_eq_true (Bool.and_eq_true_iff.1 h).1
    simp only [WireCmd.call, decodeWireCmd, classify_ackPayload p hp]
    exact lengthChecked_of_wf h
  | rRxPayload | wTxPayload | wTxPayloadNoack => exact lengthChecked_of_wf h
  | flushTx | flushRx | reuseTxPl | activate | rRxPlWid => rfl

/-! ### One command on a quiet RefChip -/

section Quiet

variable {s : State}

theorem quiet_sound (hq : QuietRefChip s) : s.chip.Sound := by
  obtain ⟨-, -, hc, -⟩ := hq
  exact hc

theorem quiet_transact (hq : QuietRefChip s) (c : Call) : QuietRefChip (transact c s) := by
  obtain ⟨ht, hi, hc, hv⟩ := hq
  exact ⟨ht, by simp [hi], reply_sound c hc, (reply_variant c s).trans hv⟩

theorem quiet_issueAll (hq : QuietRefChip s) (cs : List Call) : QuietRefChip (issueAll cs s) := by
  induction cs generalizing s with
  | nil => exact hq
  | cons c cs ih => exact ih (quiet_transact hq c)

theorem quiet_modifyBits (hq : QuietRefChip s) (a : BitVec 5) (m v : Byte) :
    QuietRefChip (modifyBits a m v s) := by
  rcases modifyBits_run a m v s with h | ⟨b, h⟩ <;> rw [h] <;> exact quiet_issueAll hq _

/-- A quiet RefChip runs a command and returns `ok`. -/
theorem reply_quiet (hq : QuietRefChip s) {d : WireCmd} (hd : d.wf = true) :
    reply d.call s = ⟨(s.chip.run none d).1, .ok, (s.chip.run none d).2⟩ := by
  obtain ⟨ht, hi, -, hv⟩ := hq
  obtain ⟨drawn, hr⟩ := reply_refChip_nil (c := d.call) ht hi
  have haccess : Accessible s.chip d := fun h => absurd (hv.symm.trans h) (by decide)
  rw [hr, react_of_accessible (decodeWireCmd_call hd) haccess]

theorem failed_quiet (hq : QuietRefChip s) {c : Call} (hc : IsCommand c) : failed c s = 0 := by
  obtain ⟨d, hd, rfl⟩ := hc
  simp [failed, reply_quiet hq hd, cnt]

/-- No command fails on a quiet RefChip. -/
theorem failures_quiet (hq : QuietRefChip s) {cs : List Call} (hcs : ∀ c ∈ cs, IsCommand c) : failures cs s = 0 := by
  induction cs generalizing s with
  | nil => rfl
  | cons c cs ih =>
    rw [failures_cons, failed_quiet hq (hcs c (by simp)), ih (quiet_transact hq c) fun d hd => hcs d (by simp [hd])]

end Quiet

/-! ### One register after a write (R99, R100) -/

theorem regKey_inj {a b : BitVec 5} {i j : Nat} (hi : i < 8) (hj : j < 8) :
    regKey a i = regKey b j ↔ a = b ∧ i = j := by
  rw [← BitVec.toNat_inj]
  unfold regKey
  omega

section WriteReg

variable {c : RefChip} {a b : BitVec 5} {d : List Byte}

/-- A write leaves every other register's bytes alone. -/
theorem regByte_writeReg_of_ne (hc : c.Sound) (hab : b ≠ a) (hd : d.length ≤ 8) {i : Nat} (hi : i < 8) :
    regByte (c.writeReg a d) b i = regByte c b i := by
  have hkey {j : Nat} (hj : j < 8) : regKey b i ≠ regKey a j := fun h => hab ((regKey_inj hi hj).1 h).1
  unfold RefChip.writeReg
  split
  · simp [regByte, Memory.read_write _ hc.regs_wf, hkey]
  · simp only [regByte, Memory.read_writeBytes _ hc.regs_wf]
    refine if_neg fun h => ?_
    have hlt : regKey b i - regKey a 0 < 8 := by omega
    exact hkey hlt (by simp only [regKey] at h ⊢; omega)
  all_goals rfl

theorem regByte_writeReg_one (hc : c.Sound) (ha : regKind a = .one) : regByte (c.writeReg a d) a 0 = d.headD 0 := by
  simp [regByte, RefChip.writeReg, ha, Memory.read_write _ hc.regs_wf]

theorem regFive_writeReg (hc : c.Sound) (ha : regKind a = .five) (hd : d.length = 5) :
    regFive (c.writeReg a d) a = d := by
  have hbyte (i : Nat) (hi : i < 5) : regByte (c.writeReg a d) a i = d.getD i 0 := by
    simp [regByte, RefChip.writeReg, ha, Memory.read_writeBytes _ hc.regs_wf, regKey, hd, hi]
  refine List.ext_getElem (by simp [regFive, hd]) fun i h₁ h₂ => ?_
  simp [regFive, hbyte i (hd ▸ h₂), h₂]

theorem readReg_one (ha : regKind a = .one) : c.readReg a 1 = [regByte c a 0] := by
  simp [RefChip.readReg, ha, regByte]

theorem readReg_five (ha : regKind a = .five) : c.readReg a 5 = regFive c a := by
  simp [RefChip.readReg, ha, regFive, regByte, Memory.readBytes, regKey]

/-- Writing what was read back over other bytes restores the register space. -/
theorem Memory.writeBytes_restore (m : Memory) (hm : Memory.wf m = true) (k : Nat) (bs : List Byte) :
    Memory.writeBytes (Memory.writeBytes m k bs) k (Memory.readBytes m k bs.length) = m := by
  have hm₁ := Memory.wf_writeBytes m hm k bs
  refine Memory.ext_of_read _ _ (Memory.wf_writeBytes _ hm₁ k _) hm fun j => ?_
  have hlen : (Memory.readBytes m k bs.length).length = bs.length := by simp [Memory.readBytes]
  rw [Memory.read_writeBytes _ hm₁, Memory.read_writeBytes m hm, hlen]
  split
  case isTrue hj =>
    have hlt : j - k < bs.length := by omega
    have hadd : k + (j - k) = j := by omega
    simp [Memory.readBytes, hlt, hadd]
  case isFalse => rfl

/-- Writing its bytes back to a five-byte register restores the chip (R281). -/
theorem writeReg_restore (hc : c.Sound) (ha : regKind a = .five) (hd : d.length = 5) :
    (c.writeReg a d).writeReg a (c.readReg a 5) = c := by
  have hregs := Memory.writeBytes_restore c.regs hc.regs_wf (regKey a 0) d
  rw [hd] at hregs
  simp [RefChip.writeReg, RefChip.readReg, ha, hregs]

end WriteReg

/-! ### The read-modify-write (R178) -/

section Modify

variable {s : State} {a : BitVec 5}

theorem firstByte_quiet (hq : QuietRefChip s) (ha : regKind a = .one) :
    firstByte (readByteCall a) s = regByte s.chip a 0 := by
  simp [firstByte, readByteCall, reply_quiet hq, WireCmd.wf, countOk, RefChip.run, readReg_one ha]

theorem modifyFailures_quiet (hq : QuietRefChip s) (a : BitVec 5) (m v : Byte) : modifyFailures a m v s = 0 := by
  have hrc : failed (readByteCall a) s = 0 := failed_quiet hq (isCommand_readByteCall a)
  rcases modifyBits_eq a m v s with ⟨-, -, h⟩ | ⟨-, h, -⟩
  · simp [failed, h, cnt] at hrc
  · rw [h]
    exact failed_quiet (quiet_transact hq _) (isCommand_writeByteCall _ _)

/-- On a quiet RefChip the field is replaced in the byte that stands in the register. -/
theorem modifyBits_chip_quiet (hq : QuietRefChip s) (ha : regKind a = .one) (m v : Byte) :
    (modifyBits a m v s).chip = s.chip.writeReg a [setBits (regByte s.chip a 0) m v] := by
  have hread := reply_quiet hq (d := .rRegister a 1) rfl
  have hwrite := reply_quiet (quiet_transact hq (readByteCall a))
    (d := .wRegister a [setBits (firstByte (readByteCall a) s) m v]) rfl
  rcases modifyBits_eq a m v s with ⟨-, -, h⟩ | ⟨h, -, -⟩
  · simp [readByteCall, hread] at h
  · rw [h]
    simp only [issueAll_cons, issueAll_nil, transact_chip, modifyCall, writeByteCall]
    rw [hwrite, firstByte_quiet hq ha]
    simp [RefChip.run, readByteCall, hread]

end Modify

/-! ### Runs of register writes -/

/-- The calls of a run of register writes, and the chip after them. -/
def writeCalls (ws : List (BitVec 5 × List Byte)) : List Call := ws.map fun w => (WireCmd.wRegister w.1 w.2).call
def writeAll (c : RefChip) (ws : List (BitVec 5 × List Byte)) : RefChip :=
  ws.foldl (fun c w => c.writeReg w.1 w.2) c

theorem issueAll_writeCalls_chip {s : State} (hq : QuietRefChip s) {ws : List (BitVec 5 × List Byte)}
    (hws : ∀ w ∈ ws, countOk w.2.length = true) :
    (issueAll (writeCalls ws) s).chip = writeAll s.chip ws := by
  induction ws generalizing s with
  | nil => rfl
  | cons w ws ih =>
    have hw : (WireCmd.wRegister w.1 w.2).wf = true := hws w (by simp)
    have hchip : (transact (WireCmd.wRegister w.1 w.2).call s).chip = s.chip.writeReg w.1 w.2 := by
      rw [transact_chip, reply_quiet hq hw]
      rfl
    have htail := ih (quiet_transact hq (WireCmd.wRegister w.1 w.2).call) fun v hv => hws v (by simp [hv])
    rw [hchip] at htail
    exact htail

section WriteAll

variable {c : RefChip}

theorem sound_writeAll (hc : c.Sound) (ws : List (BitVec 5 × List Byte)) : (writeAll c ws).Sound := by
  induction ws generalizing c with
  | nil => exact hc
  | cons w ws ih => exact ih (sound_writeReg hc w.1 w.2)

theorem writeAll_append (c : RefChip) (ws vs : List (BitVec 5 × List Byte)) :
    writeAll c (ws ++ vs) = writeAll (writeAll c ws) vs := List.foldl_append

/-- A run of writes leaves the registers that none of them names alone. -/
theorem regByte_writeAll_of_ne (hc : c.Sound) {ws : List (BitVec 5 × List Byte)} {b : BitVec 5}
    (hne : ∀ w ∈ ws, b ≠ w.1) (hlen : ∀ w ∈ ws, w.2.length ≤ 8) {i : Nat} (hi : i < 8) :
    regByte (writeAll c ws) b i = regByte c b i := by
  induction ws generalizing c with
  | nil => rfl
  | cons w ws ih =>
    calc regByte (writeAll (c.writeReg w.1 w.2) ws) b i
        = regByte (c.writeReg w.1 w.2) b i :=
          ih (sound_writeReg hc w.1 w.2) (fun v hv => hne v (by simp [hv])) fun v hv => hlen v (by simp [hv])
      _ = regByte c b i := regByte_writeReg_of_ne hc (hne w (by simp)) (hlen w (by simp)) hi

/-- Where no register is written twice, each holds in the end what its own write left there. -/
theorem regByte_writeAll_of_mem (hc : c.Sound) {ws : List (BitVec 5 × List Byte)} {a : BitVec 5} {d : List Byte}
    (hnd : (ws.map Prod.fst).Nodup) (hlen : ∀ w ∈ ws, w.2.length ≤ 8) (hm : (a, d) ∈ ws) :
    ∃ c' : RefChip, c'.Sound ∧ ∀ i < 8, regByte (writeAll c ws) a i = regByte (c'.writeReg a d) a i := by
  obtain ⟨xs, ys, rfl⟩ := List.append_of_mem hm
  refine ⟨writeAll c xs, sound_writeAll hc xs, fun i hi => ?_⟩
  have hys : ∀ w ∈ ys, a ≠ w.1 := by
    rintro w hw rfl
    simp only [List.map_append, List.map_cons, List.nodup_append, List.nodup_cons] at hnd
    obtain ⟨-, ⟨hnotin, -⟩, -⟩ := hnd
    exact hnotin (List.mem_map_of_mem hw)
  rw [writeAll_append]
  exact regByte_writeAll_of_ne (sound_writeReg (sound_writeAll hc xs) a d) hys
    (fun w hw => hlen w (by simp [hw])) hi

end WriteAll

/-! ### The register table (R67) -/

/-- The writes of a register table, in list order (R282, step 5). -/
def tableWrites (t : List (Byte × Byte)) : List (BitVec 5 × List Byte) := t.map fun p => (regAddr p.1, [p.2])

theorem tableCalls_eq (t : List (Byte × Byte)) : tableCalls t = writeCalls (tableWrites t) := by
  simp [tableCalls, writeCalls, tableWrites, writeByteCall]

theorem lastWritten_cons (p : Byte × Byte) (t : List (Byte × Byte)) (a old : Byte) :
    lastWritten (p :: t) a old = lastWritten t a (if p.1 = a then p.2 else old) := by
  unfold lastWritten
  by_cases hp : p.1 = a
  · cases hl : (t.filter fun q => q.1 = a).getLast? <;> simp [hp, List.getLast?_cons, hl]
  · simp [hp]

theorem regAddr_eq_iff {x : Byte} (hx : x.toNat < 32) (a : BitVec 5) : regAddr x = a ↔ x = a.setWidth 8 := by
  rw [← BitVec.toNat_inj, ← BitVec.toNat_inj]
  have ha := a.isLt
  simp only [regAddr, BitVec.toNat_setWidth]
  omega

theorem table_addr_lt {t : List (Byte × Byte)} (ht : TableWellFormed t) {p : Byte × Byte} (hp : p ∈ t) :
    p.1.toNat < 32 := by
  have := ht p hp
  omega

/-- A single-byte register holds the table's last value for it, or what it held before (R67). -/
theorem regByte_writeAll_table {c : RefChip} (hc : c.Sound) {a : BitVec 5} (ha : regKind a = .one)
    {t : List (Byte × Byte)} (ht : TableWellFormed t) :
    regByte (writeAll c (tableWrites t)) a 0 = lastWritten t (a.setWidth 8) (regByte c a 0) := by
  induction t generalizing c with
  | nil => rfl
  | cons p t ih =>
    have hfirst : regByte (c.writeReg (regAddr p.1) [p.2]) a 0
        = if p.1 = a.setWidth 8 then p.2 else regByte c a 0 := by
      simp only [← regAddr_eq_iff (table_addr_lt ht (List.mem_cons_self ..)) a]
      split
      case isTrue hp => rw [hp]; exact regByte_writeReg_one hc ha
      case isFalse hp => exact regByte_writeReg_of_ne hc (Ne.symm hp) (by simp) (by decide)
    rw [lastWritten_cons, ← hfirst]
    exact ih (sound_writeReg hc _ _) fun q hq => ht q (by simp [hq])

/-- A table's value does not depend on the old one, or is the old one. -/
theorem lastWritten_cases (t : List (Byte × Byte)) (a : Byte) :
    (∃ v, ∀ old, lastWritten t a old = v) ∨ ∀ old, lastWritten t a old = old := by
  unfold lastWritten
  cases (t.filter fun q => q.1 = a).getLast? with
  | none => exact .inr fun _ => rfl
  | some p => exact .inl ⟨p.2, fun _ => rfl⟩

/-! ### The configuration (R260 to R266) -/

/-- The writes of a configuration, in the order of R266. -/
def configWrites (cfg : RadioConfig) : List (BitVec 5 × List Byte) := governedOrder.map fun g => (g.addr, g.bytes cfg)

theorem configCalls_eq (cfg : RadioConfig) : configCalls cfg = writeCalls (configWrites cfg) := by
  simp [configCalls, writeCalls, configWrites, Governed.writeCall]

theorem mem_governedOrder (g : Governed) : g ∈ governedOrder := by cases g <;> decide

theorem governed_width (g : Governed) : g.width = 1 ∨ g.width = 5 := by cases g <;> decide

theorem regKind_governed (g : Governed) : regKind g.addr = if g.width = 1 then .one else .five := by cases g <;> rfl

section Config

variable {c : RefChip} {cfg : RadioConfig}

theorem configWrites_length (hcfg : configOk cfg = true) :
    ∀ w ∈ configWrites cfg, w.2.length = 1 ∨ w.2.length = 5 := by
  intro w hw
  obtain ⟨g, -, rfl⟩ := List.mem_map.1 hw
  rw [governed_bytes_length hcfg]
  exact governed_width g

theorem configWrites_le (hcfg : configOk cfg = true) : ∀ w ∈ configWrites cfg, w.2.length ≤ 8 := fun w hw => by
  have := configWrites_length hcfg w hw
  omega

theorem regByte_writeAll_config (hc : c.Sound) (hcfg : configOk cfg = true) (g : Governed) :
    ∃ c' : RefChip, c'.Sound ∧
      ∀ i < 8, regByte (writeAll c (configWrites cfg)) g.addr i = regByte (c'.writeReg g.addr (g.bytes cfg)) g.addr i := by
  refine regByte_writeAll_of_mem hc ?_ (configWrites_le hcfg)
    (List.mem_map.2 ⟨g, mem_governedOrder g, rfl⟩)
  rw [configWrites, List.map_map]
  exact (by decide : (governedOrder.map Governed.addr).Nodup)

/-- A governed single-byte register holds the configuration's byte. -/
theorem regByte_config (hc : c.Sound) (hcfg : configOk cfg = true) {g : Governed} (hg : g.width = 1) :
    regByte (writeAll c (configWrites cfg)) g.addr 0 = (g.bytes cfg).headD 0 := by
  have hone : regKind g.addr = .one := by simp [regKind_governed, hg]
  obtain ⟨c', hc', h⟩ := regByte_writeAll_config hc hcfg g
  rw [h 0 (by decide), regByte_writeReg_one hc' hone]

/-- A governed five-byte register holds the configuration's address. -/
theorem regFive_config (hc : c.Sound) (hcfg : configOk cfg = true) {g : Governed} (hg : g.width = 5) :
    regFive (writeAll c (configWrites cfg)) g.addr = g.bytes cfg := by
  have hfive : regKind g.addr = .five := by simp [regKind_governed, hg]
  obtain ⟨c', hc', h⟩ := regByte_writeAll_config hc hcfg g
  have hbytes : regFive (writeAll c (configWrites cfg)) g.addr = regFive (c'.writeReg g.addr (g.bytes cfg)) g.addr :=
    List.map_congr_left fun i hi => h i (by have := List.mem_range.1 hi; omega)
  rw [hbytes, regFive_writeReg hc' hfive (by rw [governed_bytes_length hcfg, hg])]

/-- A register the configuration does not govern is left alone. -/
theorem regByte_config_of_ungoverned (hc : c.Sound) (hcfg : configOk cfg = true) {a : BitVec 5}
    (ha : ∀ g ∈ governedOrder, a ≠ g.addr) :
    regByte (writeAll c (configWrites cfg)) a 0 = regByte c a 0 := by
  refine regByte_writeAll_of_ne hc (fun w hw => ?_) (configWrites_le hcfg) (by decide)
  obtain ⟨g, hg, rfl⟩ := List.mem_map.1 hw
  exact ha g hg

end Config

theorem encRfSetup_eq (c : RadioConfig) : encRfSetup c = rfSetupByte c := by
  unfold encRfSetup rfSetupByte
  cases c.rate <;> rfl

theorem encEnRxaddr_eq (c : RadioConfig) : encEnRxaddr c = pipeFlags PipeConfig.enabled c := rfl

theorem encEnAa_eq (c : RadioConfig) : encEnAa c = pipeFlags PipeConfig.autoAck c := rfl

end Sys2Proof.Machine

/-! PROOFS. `setup` on a quiet RefChip: the identity check passes and restores the chip (R281), and the chip and the
block's registers are those of R67 and R282. -/

namespace Sys2Proof.Machine

open Sys2Proof.Claims

/-! ### The identity check (R281) -/

section Check

variable {s : State}

theorem backup_quiet (hq : QuietRefChip s) : backup s = s.chip.readReg regRxAddrP0 5 := by
  rw [backup, backupCall, reply_quiet hq rfl]
  rfl

theorem backupCall_chip_quiet (hq : QuietRefChip s) : (transact backupCall s).chip = s.chip := by
  rw [transact_chip, backupCall, reply_quiet hq rfl]
  rfl

theorem writeP0_chip_quiet (hq : QuietRefChip s) {bs : List Byte} (hbs : bs.length = 5) :
    (transact (writeP0Call bs) s).chip = s.chip.writeReg regRxAddrP0 bs := by
  rw [transact_chip, writeP0Call, reply_quiet hq (by simp [WireCmd.wf, countOk, hbs])]
  rfl

theorem perturbed_length (s : State) : (perturb (backup s)).length = 5 := by rw [perturb_length, backup_length]

/-- The chip while the perturbed address stands in it. -/
theorem perturbed_chip_quiet (hq : QuietRefChip s) :
    (issueAll [backupCall, writeP0Call (perturb (backup s))] s).chip
      = s.chip.writeReg regRxAddrP0 (perturb (backup s)) := by
  have h := writeP0_chip_quiet (quiet_transact hq backupCall) (perturbed_length s)
  rwa [backupCall_chip_quiet hq] at h

theorem readBack_quiet (hq : QuietRefChip s) : readBack s = perturb (backup s) := by
  have hq₂ := quiet_issueAll hq [backupCall, writeP0Call (perturb (backup s))]
  calc readBack s
      = (s.chip.writeReg regRxAddrP0 (perturb (backup s))).readReg regRxAddrP0 5 := by
        rw [← perturbed_chip_quiet hq]
        exact backup_quiet hq₂
    _ = perturb (backup s) := by
        rw [readReg_five rfl, regFive_writeReg (quiet_sound hq) rfl (perturbed_length s)]

theorem checkResult_quiet (hq : QuietRefChip s) : checkResult s = .ok := by
  have hcalls : ∀ c ∈ checkCalls s, IsCommand c := fun c hc => isCommand_checkCall (checkCalls_check s c hc)
  rw [checkResult, if_neg (not_not.2 (readBack_quiet hq)), failures_quiet hq hcalls]
  rfl

theorem checkState_chip_quiet (hq : QuietRefChip s) : (checkState s).chip = s.chip := by
  have hq₂ := quiet_issueAll hq [backupCall, writeP0Call (perturb (backup s))]
  have hq₃ := quiet_transact hq₂ backupCall
  calc (checkState s).chip
      = (s.chip.writeReg regRxAddrP0 (perturb (backup s))).writeReg regRxAddrP0 (backup s) := by
        rw [← perturbed_chip_quiet hq, ← backupCall_chip_quiet hq₂]
        exact writeP0_chip_quiet hq₃ (backup_length s)
    _ = s.chip := by
        rw [backup_quiet hq]
        exact writeReg_restore (quiet_sound hq) rfl (by rw [← backup_quiet hq, perturbed_length])

end Check

/-! ### `softClear` (R234) -/

/-- The chip after `softClear`. -/
def RefChip.softCleared (c : RefChip) : RefChip :=
  { c with txq := [], rxq := [], txReuse := false, rxDr := false, txDs := false, maxRt := false }

theorem sound_softCleared {c : RefChip} (hc : c.Sound) : c.softCleared.Sound :=
  ⟨hc.regs_wf, by simp [RefChip.softCleared], by simp [RefChip.softCleared], by simp [RefChip.softCleared],
    by simp [RefChip.softCleared]⟩

theorem clearFlags_all (c : RefChip) : c.clearFlags 0x70 = { c with rxDr := false, txDs := false, maxRt := false } := by
  simp [RefChip.clearFlags]

theorem softClear_chip_quiet {s : State} (hq : QuietRefChip s) :
    (issueAll softClearCalls s).chip = s.chip.softCleared := by
  have h₁ := reply_quiet hq (d := .flushTx) rfl
  have hq₁ := quiet_transact hq WireCmd.flushTx.call
  have h₂ := reply_quiet hq₁ (d := .flushRx) rfl
  have h₃ := reply_quiet (quiet_transact hq₁ WireCmd.flushRx.call) (d := .wRegister regStatus [0x70]) rfl
  have hstatus (c : RefChip) : c.writeReg regStatus [0x70] = c.clearFlags 0x70 := rfl
  simp only [softClearCalls, issueAll_cons, issueAll_nil, transact_chip, h₁, h₂, h₃, RefChip.run, hstatus,
    clearFlags_all]
  rfl

/-! ### What register writes leave of a chip after `softClear` -/

/-- Empty queues and clear flags. -/
def RefChip.Idle (c : RefChip) : Prop :=
  c.txq = [] ∧ c.rxq = [] ∧ c.rxDr = false ∧ c.txDs = false ∧ c.maxRt = false

theorem idle_softCleared (c : RefChip) : c.softCleared.Idle := ⟨rfl, rfl, rfl, rfl, rfl⟩

theorem idle_writeReg {c : RefChip} (hc : c.Idle) (a : BitVec 5) (d : List Byte) : (c.writeReg a d).Idle := by
  unfold RefChip.writeReg
  split
  case h_3 =>
    obtain ⟨htx, hrx, hdr, hds, hrt⟩ := hc
    exact ⟨htx, hrx, by simp [RefChip.clearFlags, hdr], by simp [RefChip.clearFlags, hds],
      by simp [RefChip.clearFlags, hrt]⟩
  all_goals exact hc

theorem idle_writeAll {c : RefChip} (hc : c.Idle) (ws : List (BitVec 5 × List Byte)) : (writeAll c ws).Idle := by
  induction ws generalizing c with
  | nil => exact hc
  | cons w ws ih => exact ih (idle_writeReg hc w.1 w.2)

/-! ### The chip after `setup` (R67, R282) -/

/-- A field of a single-byte register replaced. -/
def RefChip.modify (c : RefChip) (a : BitVec 5) (m v : Byte) : RefChip :=
  c.writeReg a [setBits (regByte c a 0) m v]

/-- The chip after steps 2 to 6 of `setup`, and at its end. -/
def RefChip.configured (c : RefChip) (cfg : RadioConfig) (tbl : List (Byte × Byte)) : RefChip :=
  writeAll (writeAll (c.modify regConfig maskPwrUp 0).softCleared (tableWrites tbl)) (configWrites cfg)
def RefChip.setUp (c : RefChip) (r : Role) (cfg : RadioConfig) (tbl : List (Byte × Byte)) : RefChip :=
  ((c.configured cfg tbl).modify regConfig maskPrimRx (roleCode r)).modify regConfig maskPwrUp 1

theorem writePower_chip_quiet {s : State} (hq : QuietRefChip s) (v : Byte) :
    (writePower v s).chip = s.chip.modify regConfig maskPwrUp v := modifyBits_chip_quiet hq rfl _ _

theorem writeRoleBit_chip_quiet {s : State} (hq : QuietRefChip s) (r : Role) :
    (writeRoleBit r s).chip = s.chip.modify regConfig maskPrimRx (roleCode r) := modifyBits_chip_quiet hq rfl _ _

section Setup

variable {s : State} {cfg : RadioConfig} {tbl : List (Byte × Byte)} {r : Role}

theorem quiet_setupOff (hq : QuietRefChip s) : QuietRefChip (setupOff s) :=
  quiet_modifyBits hq regConfig maskPwrUp 0

theorem quiet_setupNamed (hq : QuietRefChip s) : QuietRefChip (setupNamed r cfg tbl s) :=
  quiet_issueAll (quiet_setupOff hq) (setupWrites cfg tbl)

theorem quiet_setupRoled (hq : QuietRefChip s) : QuietRefChip (setupRoled r cfg tbl s) :=
  quiet_modifyBits (quiet_setupNamed hq) _ _ _

theorem isCommand_setupWrites (hcfg : configOk cfg = true) : ∀ c ∈ setupWrites cfg tbl, IsCommand c := by
  intro c hc
  simp only [setupWrites, List.mem_append] at hc
  rcases hc with (hc | hc) | hc
  · exact isCommand_softClear c hc
  · exact isCommand_tableCall hc
  · exact isCommand_configCall hcfg hc

theorem setupFailures_quiet (hq : QuietRefChip s) (hcfg : configOk cfg = true) : setupFailures r cfg tbl s = 0 := by
  have hoff : powerFailures 0 s = 0 := modifyFailures_quiet hq _ _ _
  have hwrites := failures_quiet (quiet_setupOff hq) (isCommand_setupWrites (tbl := tbl) hcfg)
  have hrole : roleBitFailures r (setupNamed r cfg tbl s) = 0 := modifyFailures_quiet (quiet_setupNamed hq) _ _ _
  have hon : powerFailures 1 (setupRoled r cfg tbl s) = 0 := modifyFailures_quiet (quiet_setupRoled hq) _ _ _
  rw [setupFailures, hoff, hwrites, hrole, hon]

theorem setupWritten_chip_quiet (hq : QuietRefChip s) (hcfg : configOk cfg = true) :
    (setupWritten cfg tbl s).chip = s.chip.configured cfg tbl := by
  have hq₁ := quiet_setupOff hq
  have hq₂ := quiet_issueAll hq₁ softClearCalls
  have hq₃ := quiet_issueAll hq₂ (writeCalls (tableWrites tbl))
  have htable : ∀ w ∈ tableWrites tbl, countOk w.2.length = true := by
    intro w hw
    obtain ⟨p, -, rfl⟩ := List.mem_map.1 hw
    rfl
  have hconfig : ∀ w ∈ configWrites cfg, countOk w.2.length = true := by
    intro w hw
    rcases configWrites_length hcfg w hw with h | h <;> simp [countOk, h]
  rw [setupWritten, setupWrites, issueAll_append, issueAll_append, tableCalls_eq, configCalls_eq,
    issueAll_writeCalls_chip hq₃ hconfig, issueAll_writeCalls_chip hq₂ htable, softClear_chip_quiet hq₁]
  rw [setupOff, driveCe_chip, writePower_chip_quiet hq]
  rfl

theorem setupEnd_chip_quiet (hq : QuietRefChip s) (hcfg : configOk cfg = true) :
    (setupEnd r cfg tbl s).chip = s.chip.setUp r cfg tbl := by
  have hnamed : (setupNamed r cfg tbl s).chip = s.chip.configured cfg tbl := setupWritten_chip_quiet hq hcfg
  rw [setupEnd, driveCe_chip, writePower_chip_quiet (quiet_setupRoled hq), setupRoled,
    writeRoleBit_chip_quiet (quiet_setupNamed hq), hnamed]
  rfl

end Setup

/-! ### The registers of that chip (R67) -/

section SetUp

variable {c : RefChip} {cfg : RadioConfig} {tbl : List (Byte × Byte)} {r : Role}

theorem sound_modify (hc : c.Sound) (a : BitVec 5) (m v : Byte) : (c.modify a m v).Sound := sound_writeReg hc _ _

theorem regByte_modify_same (hc : c.Sound) {a : BitVec 5} (ha : regKind a = .one) (m v : Byte) :
    regByte (c.modify a m v) a 0 = setBits (regByte c a 0) m v := regByte_writeReg_one hc ha

theorem regByte_modify_of_ne (hc : c.Sound) {a b : BitVec 5} (hab : b ≠ a) (m v : Byte) {i : Nat} (hi : i < 8) :
    regByte (c.modify a m v) b i = regByte c b i := regByte_writeReg_of_ne hc hab (by simp) hi

/-- The chip that the table is written to. -/
theorem sound_off (hc : c.Sound) : (c.modify regConfig maskPwrUp 0).softCleared.Sound :=
  sound_softCleared (sound_modify hc _ _ _)

theorem sound_tabled (hc : c.Sound) (tbl : List (Byte × Byte)) :
    (writeAll (c.modify regConfig maskPwrUp 0).softCleared (tableWrites tbl)).Sound :=
  sound_writeAll (sound_off hc) _

theorem sound_configured (hc : c.Sound) : (c.configured cfg tbl).Sound := sound_writeAll (sound_tabled hc tbl) _

theorem idle_setUp : (c.setUp r cfg tbl).Idle :=
  idle_writeReg (idle_writeReg (idle_writeAll (idle_writeAll (idle_softCleared _) _) _) _ _) _ _

/-- The last two steps write `CONFIG` alone. -/
theorem regByte_setUp_of_ne (hc : c.Sound) {a : BitVec 5} (ha : a ≠ regConfig) {i : Nat} (hi : i < 8) :
    regByte (c.setUp r cfg tbl) a i = regByte (c.configured cfg tbl) a i := by
  have hs := sound_configured (cfg := cfg) (tbl := tbl) hc
  rw [RefChip.setUp, regByte_modify_of_ne (sound_modify hs _ _ _) ha _ _ hi, regByte_modify_of_ne hs ha _ _ hi]

theorem governed_ne_config (g : Governed) : g.addr ≠ regConfig := by cases g <;> decide

theorem regByte_setUp_governed (hc : c.Sound) (hcfg : configOk cfg = true) {g : Governed} (hg : g.width = 1) :
    regByte (c.setUp r cfg tbl) g.addr 0 = (g.bytes cfg).headD 0 := by
  rw [regByte_setUp_of_ne hc (governed_ne_config g) (by decide)]
  exact regByte_config (sound_tabled hc tbl) hcfg hg

/-- A one-byte address, as the configuration writes it. -/
theorem singleton_headD {l : List Byte} (h : l.length = 1) : [l.headD 0] = l := by
  obtain ⟨b, rfl⟩ := List.length_eq_one_iff.1 h
  rfl

theorem regFive_setUp_governed (hc : c.Sound) (hcfg : configOk cfg = true) {g : Governed} (hg : g.width = 5) :
    regFive (c.setUp r cfg tbl) g.addr = g.bytes cfg := by
  have hbytes : regFive (c.setUp r cfg tbl) g.addr = regFive (c.configured cfg tbl) g.addr :=
    List.map_congr_left fun i hi =>
      regByte_setUp_of_ne hc (governed_ne_config g) (by have := List.mem_range.1 hi; omega)
  rw [hbytes]
  exact regFive_config (sound_tabled hc tbl) hcfg hg

/-- An ungoverned single-byte register, `CONFIG` among them, holds after step 6 what the table left there. -/
theorem regByte_configured_table (hc : c.Sound) (hcfg : configOk cfg = true) (ht : TableWellFormed tbl)
    {a : BitVec 5} (hone : regKind a = .one) (ha : ∀ g ∈ governedOrder, a ≠ g.addr) :
    regByte (c.configured cfg tbl) a 0
      = lastWritten tbl (a.setWidth 8) (regByte (c.modify regConfig maskPwrUp 0) a 0) := by
  rw [RefChip.configured, regByte_config_of_ungoverned (sound_tabled hc tbl) hcfg ha,
    regByte_writeAll_table (sound_off hc) hone ht]
  rfl

theorem ungoverned_facts : ∀ a ∈ ungovernedSingles,
    regKind a = .one ∧ a ≠ regConfig ∧ ∀ g ∈ governedOrder, a ≠ g.addr := by decide

theorem regByte_setUp_ungoverned (hc : c.Sound) (hcfg : configOk cfg = true) (ht : TableWellFormed tbl)
    {a : BitVec 5} (ha : a ∈ ungovernedSingles) :
    regByte (c.setUp r cfg tbl) a 0 = lastWritten tbl (a.setWidth 8) (regByte c a 0) := by
  obtain ⟨hone, hne, hgov⟩ := ungoverned_facts a ha
  rw [regByte_setUp_of_ne hc hne (by decide), regByte_configured_table hc hcfg ht hone hgov,
    regByte_modify_of_ne hc hne _ _ (by decide)]

/-- The role bit and the power-up bit go into the two low bits (R40). -/
theorem setBits_role_power (r : Role) : ∀ x : Byte,
    setBits (setBits x maskPrimRx (roleCode r)) maskPwrUp 1 = (x &&& 0xFC) ||| 0x02 ||| roleCode r := by
  cases r <;> decide

theorem setBits_power_off_high : ∀ x : Byte, setBits x maskPwrUp 0 &&& 0xFC = x &&& 0xFC := by decide

theorem regByte_setUp_config (hc : c.Sound) (hcfg : configOk cfg = true) (ht : TableWellFormed tbl) :
    regByte (c.setUp r cfg tbl) regConfig 0
      = (lastWritten tbl 0x00 (regByte c regConfig 0) &&& 0xFC) ||| 0x02 ||| roleCode r := by
  have hs := sound_configured (cfg := cfg) (tbl := tbl) hc
  have hold : lastWritten tbl 0x00 (setBits (regByte c regConfig 0) maskPwrUp 0) &&& 0xFC
      = lastWritten tbl 0x00 (regByte c regConfig 0) &&& 0xFC := by
    rcases lastWritten_cases tbl 0x00 with ⟨v, hv⟩ | hkeep
    · rw [hv, hv]
    · rw [hkeep, hkeep, setBits_power_off_high]
  rw [RefChip.setUp, regByte_modify_same (sound_modify hs _ _ _) rfl, regByte_modify_same hs rfl, setBits_role_power,
    regByte_configured_table hc hcfg ht rfl (by decide), regByte_modify_same hc rfl]
  exact congrArg (· ||| 0x02 ||| roleCode r) hold

end SetUp

/-! ### The operands of `setup`, and the default ones (R65, R66) -/

theorem defaultRegTable_limits : tableOk defaultRegTable = true ∧ defaultRegTable.length = 13 ∧
    ∀ q ∈ ([(0x00, 0x0C), (0x01, 0x3F), (0x03, 0x03), (0x04, 0x29), (0x05, 0x02), (0x1C, 0x3F), (0x1D, 0x07)]
      : List (Byte × Byte)), q ∈ defaultRegTable ∧ ∀ p ∈ defaultRegTable, p.1 = q.1 → p.2 = q.2 := by
  have h := defaultRegTable_ok
  simp only [defaultTableOk, Bool.and_eq_true, beq_iff_eq, List.all_eq_true, List.contains_iff_mem, Bool.or_eq_true,
    bne_iff_ne] at h
  obtain ⟨⟨hok, hlen⟩, hvalues⟩ := h
  refine ⟨hok, hlen, fun q hq => ?_⟩
  obtain ⟨hmem, hall⟩ := hvalues q hq
  exact ⟨hmem, fun p hp he => (hall p hp).resolve_left (not_not.2 he)⟩

theorem all_configOk {config : Option RadioConfig} (h : ∀ c ∈ config, ConfigWellFormed c) :
    config.all configOk = true := by
  cases config with
  | none => rfl
  | some c => exact (configOk_iff c).2 (h c rfl)

theorem all_tableOk {table : Option (List (Byte × Byte))} (h : ∀ l ∈ table, TableWellFormed l) :
    table.all tableOk = true := by
  cases table with
  | none => rfl
  | some l => exact (tableOk_iff l).2 (h l rfl)

theorem configOk_getD {config : Option RadioConfig} (h : config.all configOk = true) :
    configOk (config.getD defaultUserConfig) = true := by
  cases config with
  | none => exact defaultUserConfig_ok
  | some c => exact h

theorem tableOk_getD {table : Option (List (Byte × Byte))} (h : table.all tableOk = true) :
    tableOk (table.getD defaultRegTable) = true := by
  cases table with
  | none => exact defaultRegTable_limits.1
  | some l => exact h

theorem roleCode_eq (r : Role) : roleCode r = if r = .prx then 1 else 0 := by cases r <;> rfl

theorem roleOf_roleCode (r : Role) : roleOf (roleCode r) = some r := by cases r <;> rfl

/-- `setup` with admitted operands, when its identity check passes (R282). -/
theorem exec_setup_of_checked {r : Role} {config : Option RadioConfig} {table : Option (List (Byte × Byte))} {s : State}
    (hb : s.bound = true) (hcfg : config.all configOk = true) (htbl : table.all tableOk = true)
    (hcheck : checkResult s = .ok) :
    let cfg := config.getD defaultUserConfig
    let tbl := table.getD defaultRegTable
    exec (.setup (roleCode r) config table) s
      = .next (respond (mk (setupFailures r cfg tbl (checkState s))) .none (setupEnd r cfg tbl (checkState s))) := by
  simp [exec, execSetup, whenBound_true hb, roleOf_roleCode, hcfg, htbl, hcheck, answer]

theorem setupEnd_bound (r : Role) (cfg : RadioConfig) (tbl : List (Byte × Byte)) (s : State) :
    (setupEnd r cfg tbl s).bound = s.bound := by
  simp [setupEnd, writePower, setupRoled, writeRoleBit, setupNamed, setupWritten, setupOff]

theorem setupEnd_role (r : Role) (cfg : RadioConfig) (tbl : List (Byte × Byte)) (s : State) :
    (setupEnd r cfg tbl s).role = some r := by
  simp [setupEnd, writePower, setupRoled, writeRoleBit, setupNamed]

theorem setupEnd_ackPipe (r : Role) (cfg : RadioConfig) (tbl : List (Byte × Byte)) (s : State) :
    (setupEnd r cfg tbl s).ackPipe = s.ackPipe := by
  simp [setupEnd, writePower, setupRoled, writeRoleBit, setupNamed, setupWritten, setupOff]

end Sys2Proof.Machine

namespace Sys2Proof.Proofs

open Sys2Proof Sys2Proof.Machine Sys2Proof.Claims

/-- Settles O57: on a quiet RefChip no command fails, the identity check restores the chip, and the nine steps leave
`RefChip.setUp`, whose registers are read off write by write. -/
theorem setupLeavesTableUnderConfiguration : Obligations.SetupLeavesTableUnderConfiguration := by
  intro b r config table s hbound hq hb hconfig htable c tbl
  rw [← roleCode_eq] at hb
  subst hb
  have hcfg : configOk c = true := configOk_getD (all_configOk hconfig)
  have htbl : TableWellFormed tbl := (tableOk_iff _).1 (tableOk_getD (all_tableOk htable))
  refine ⟨(configOk_iff c).1 hcfg, htbl, fun hnone => by subst hnone; exact defaultRegTable_limits.2, ?_⟩
  have hexec := exec_setup_of_checked (r := r) hbound (all_configOk hconfig) (all_tableOk htable) (checkResult_quiet hq)
  have hqc : QuietRefChip (checkState s) := quiet_issueAll hq _
  have hchip : (setupEnd r c tbl (checkState s)).chip = s.chip.setUp r c tbl := by
    rw [setupEnd_chip_quiet hqc hcfg, checkState_chip_quiet hq]
  obtain ⟨htxq, hrxq, hdr, hds, hrt⟩ := idle_setUp (c := s.chip) (cfg := c) (tbl := tbl) (r := r)
  obtain ⟨-, -, -, -, -, h2, h3, h4, h5⟩ := (configOk_iff c).1 hcfg
  have hs := quiet_sound hq
  have hone {g : Governed} (hg : g.width = 1) := regByte_setUp_governed (r := r) (tbl := tbl) hs hcfg hg
  have hfive {g : Governed} (hg : g.width = 5) := regFive_setUp_governed (r := r) (tbl := tbl) hs hcfg hg
  have haddr {g : Governed} {l : List Byte} (hg : g.width = 1) (hl : l.length = 1) (hbytes : g.bytes c = [l.headD 0]) :
      [regByte (s.chip.setUp r c tbl) g.addr 0] = l := by
    rw [hone hg, hbytes]
    exact singleton_headD hl
  refine ⟨_, hexec, ?_⟩
  rw [respond_chip, hchip]
  refine ⟨?response, (setupEnd_bound ..).trans ?bound, setupEnd_role .., (setupEnd_ackPipe ..).trans ?ackPipe, rfl, rfl,
    htxq, hrxq, hdr, hds, hrt, (hone (g := .rfSetup) rfl).trans (encRfSetup_eq c), hone (g := .rfCh) rfl,
    (hone (g := .enRxaddr) rfl).trans (encEnRxaddr_eq c), (hone (g := .enAa) rfl).trans (encEnAa_eq c),
    hfive (g := .txAddr) rfl, hfive (g := .rxAddrP0) rfl, hfive (g := .rxAddrP1) rfl,
    haddr (g := .rxAddrP2) rfl h2 rfl, haddr (g := .rxAddrP3) rfl h3 rfl, haddr (g := .rxAddrP4) rfl h4 rfl,
    haddr (g := .rxAddrP5) rfl h5 rfl, fun a ha => regByte_setUp_ungoverned hs hcfg htbl ha,
    regByte_setUp_config hs hcfg htbl⟩
  case response =>
    rw [respond_response, setupFailures_quiet hqc hcfg]
    rfl
  case bound => exact (kept_checkState s).bound.trans hbound
  case ackPipe => exact (kept_checkState s).ackPipe

end Sys2Proof.Proofs

/-! PROOFS. The chip under a step (20_memory.md): `faulted` stays set (R97), and bytes that are no command (R105). -/

namespace Sys2Proof.Machine

open Sys2Proof.Claims

/-! ### What a step runs, by the item on the ports -/

section Step

variable {s t : State} {rest : List PortItem} {r : Request}

theorem step_of_undecoded {e : DecodeError} (hp : s.pending = .request r :: rest) (hd : decode r = .error e) :
    step s = undecoded r (takeItem rest s) := by
  simp [step, hp, hd]

/-- What a step that answers a next state has run. -/
theorem step_next (h : step s = .next t) :
    (s.pending = [] ∧ t = s) ∨
    (∃ e rest, s.pending = .radio e :: rest ∧ t = radioEvent e (takeItem rest s)) ∨
    (∃ b rest, s.pending = .pin b :: rest ∧ t = pinMove b (takeItem rest s)) ∨
    (∃ r rest i, s.pending = .request r :: rest ∧ decode r = .ok i ∧ exec i (takeItem rest s) = .next t) ∨
    ∃ r rest e, s.pending = .request r :: rest ∧ decode r = .error e ∧ undecoded r (takeItem rest s) = .next t := by
  unfold step at h
  split at h
  case h_1 hp => exact .inl ⟨hp, (Host.Outcome.next.inj h).symm⟩
  case h_2 e rest hp => exact .inr (.inl ⟨e, rest, hp, (Host.Outcome.next.inj h).symm⟩)
  case h_3 b rest hp => exact .inr (.inr (.inl ⟨b, rest, hp, (Host.Outcome.next.inj h).symm⟩))
  case h_4 r rest hp =>
    split at h
    case h_1 i hd => exact .inr (.inr (.inr (.inl ⟨r, rest, i, hp, hd, h⟩)))
    case h_2 e hd => exact .inr (.inr (.inr (.inr ⟨r, rest, e, hp, hd, h⟩)))

theorem undecoded_faulted (hs : s.chip.faulted = true) (h : undecoded r s = .next t) : t.chip.faulted = true := by
  cases r with
  | host op w => obtain rfl := reject_eq_next.1 h; exact hs
  | wire c => obtain rfl := answer_eq_next.1 h; exact reply_faulted c hs

end Step

/-! ### One transaction on a quiet RefChip -/

section QuietTransaction

variable {s : State} {c : Call}

/-- A quiet RefChip marks bytes that are no command, and answers zeros (R105). -/
theorem reply_quiet_of_not_command (hq : QuietRefChip s) {e : DecodeError} (he : decodeWireCmd c = .error e) :
    reply c s = ⟨{ s.chip with faulted := true }, .ok, List.replicate (readLen c) 0⟩ := by
  obtain ⟨ht, hi, -, -⟩ := hq
  obtain ⟨drawn, hr⟩ := reply_refChip_nil (c := c) ht hi
  rw [hr, react_of_not_command he]

/-- A transaction on a quiet RefChip moves no pin and uses no input up. -/
theorem transact_quiet (hq : QuietRefChip s) (c : Call) :
    transact c s = { s with chip := (reply c s).chip, history := s.history ++ [eventIn c s] } := by
  obtain ⟨-, hi, -, -⟩ := hq
  simp [transact, movedPin, hi]

/-- What the wire port answers to a call that a quiet RefChip has answered with `ok` (R190). -/
theorem answer_transact_quiet (hq : QuietRefChip s) {chip : RefChip} {bs : List Byte}
    (hr : reply c s = ⟨chip, .ok, bs⟩) :
    answer (mk (failed c s)) (.bytes (reply c s).bytes) (transact c s) =
      .next { s with
        chip := chip
        history := s.history ++ [eventOf c .ok bs]
        response := some ⟨.ok, .bytes bs⟩ } := by
  simp [answer, respond, transact_quiet hq, failed, eventIn, hr, cnt, mk]

end QuietTransaction

theorem exec_toInstr (d : WireCmd) (s : State) : exec d.toInstr s = wireStep d s := by cases d <;> rfl

end Sys2Proof.Machine

namespace Sys2Proof.Proofs

open Sys2Proof Sys2Proof.Machine Sys2Proof.Claims

/-- Settles O10, by what the step has run: no radio event and no transport call clears the bit, and the path of an
instruction is made of these and of moves that leave the chip alone. -/
theorem faultedIsNeverCleared : Obligations.FaultedIsNeverCleared := by
  intro s t h hs
  rcases step_next h with ⟨-, rfl⟩ | ⟨e, rest, -, rfl⟩ | ⟨b, rest, -, rfl⟩ | ⟨r, rest, i, -, -, hx⟩ |
    ⟨r, rest, e, -, -, hu⟩
  · exact hs
  · exact (radio_faulted s.chip e).trans hs
  · exact hs
  · exact (exec_path hx).faulted hs
  · exact undecoded_faulted (s := takeItem rest s) hs hu

/-- Settles O6: the port passes the bytes on as one transaction, and a quiet RefChip answers it with `faulted` and zeros. -/
theorem unknownWireCallFaultsRefChip : Obligations.UnknownWireCallFaultsRefChip := by
  intro s c rest e hp he hq
  have hq' : QuietRefChip (takeItem rest s) := hq
  have hd : decode (.wire c) = .error e := by simp [decode, he, Decoded.map]
  rw [step_of_undecoded hp hd]
  exact answer_transact_quiet hq' (reply_quiet_of_not_command hq' he)

/-- Settles O31: a wire command is one transaction, and a quiet RefChip answers it with its reaction to the command. -/
theorem wireCommandsReachRefChip : Obligations.WireCommandsReachRefChip := by
  intro s d hd hq
  rw [exec_toInstr]
  exact answer_transact_quiet hq (reply_quiet hq hd)

end Sys2Proof.Proofs

/-! PROOFS. The register space under an instruction (20_memory.md): the one call that changes a byte is a W_REGISTER to its
register (R84, R90, R100). -/

namespace Sys2Proof.Machine

open Sys2Proof.Claims

/-! ### The one call that is a W_REGISTER (R131, R136) -/

section Decode

variable {a : BitVec 5} {d : List Byte}

theorem classify_eq_wRegister {b : Byte} (h : classify b = some (.wRegister a)) : b = 0x20 ||| a.setWidth 8 := by
  have hall : ∀ b : Byte, ∀ op ∈ classify b, ∀ a, op = .wRegister a → b = 0x20 ||| a.setWidth 8 := by decide
  exact hall b _ h a rfl

theorem decodeSend_ne_wRegister (op : WireOp) (rest : List Byte) : decodeSend op rest ≠ .ok (.wRegister a d) := by
  unfold decodeSend
  split
  case h_4 => split <;> simp
  all_goals simp

theorem decodeXfer_ne_wRegister (op : WireOp) (n : Nat) : decodeXfer op n ≠ .ok (.wRegister a d) := by
  intro h
  unfold decodeXfer at h
  split at h
  case h_3 => split at h <;> simp at h
  case h_4 => simp at h
  all_goals exact absurd (lengthChecked_ok h).1 (by simp)

theorem decodeSend2_eq_wRegister {op : WireOp} {x : List Byte} (h : decodeSend2 op x = .ok (.wRegister a d)) :
    op = .wRegister a ∧ x = d := by
  unfold decodeSend2 at h
  split at h
  case h_1 => cases (lengthChecked_ok h).1; exact ⟨rfl, rfl⟩
  case h_5 => simp at h
  all_goals exact absurd (lengthChecked_ok h).1 (by simp)

theorem decodeWireCmd_eq_wRegister {c : Call} (h : decodeWireCmd c = .ok (.wRegister a d)) :
    c = (WireCmd.wRegister a d).call := by
  unfold decodeWireCmd at h
  split at h
  case h_2 =>
    split at h
    · simp at h
    · exact absurd h (decodeSend_ne_wRegister _ _)
  case h_3 b x =>
    split at h
    · simp at h
    · rename_i hop
      obtain ⟨rfl, rfl⟩ := decodeSend2_eq_wRegister h
      rw [classify_eq_wRegister hop, WireCmd.call]
  case h_6 =>
    split at h
    · simp at h
    · exact absurd h (decodeXfer_ne_wRegister _ _)
  all_goals simp at h

end Decode

/-! ### A byte that no W_REGISTER reaches (R90) -/

/-- A write changes no byte of another register. -/
theorem read_writeReg_of_ne {c : RefChip} (hc : c.Sound) {a : BitVec 5} {d : List Byte} (hd : d.length ≤ 8) {k : Nat}
    (hk : k / 8 ≠ a.toNat) : Memory.read (c.writeReg a d).regs k = Memory.read c.regs k := by
  unfold RefChip.writeReg
  split
  · exact (Memory.read_write _ hc.regs_wf _ _ _).trans (if_neg (by unfold regKey; omega))
  · exact (Memory.read_writeBytes _ hc.regs_wf _ _ _).trans (if_neg (by unfold regKey; omega))
  all_goals rfl

/-- What a call can do to the chip: the radio events before it happen, and then nothing or the chip's reaction. -/
theorem reply_chip (c : Call) (s : State) :
    ∃ es, (reply c s).chip = s.chip.radios es ∨
      ∃ w drawn, (reply c s).chip = ((s.chip.radios es).react w drawn c).1 := by
  unfold reply
  split
  · refine ⟨[], .inl ?_⟩
    unfold blackBoxReply
    split <;> rfl
  · refine ⟨(s.inputs.headD EnvInput.quiet).events, ?_⟩
    unfold refChipReply
    dsimp only
    split
    · exact .inl rfl
    · exact .inr ⟨_, _, rfl⟩
  · exact ⟨[], .inl rfl⟩
  · exact ⟨[], .inl rfl⟩

theorem writesRegister_eventOf_wRegister (a : BitVec 5) (d : List Byte) (rc : Rc) (bs : List Byte) :
    WritesRegister (eventOf (WireCmd.wRegister a d).call rc bs) a.toNat := by
  have hbyte : ∀ a : BitVec 5, (0x20 : Byte) ||| a.setWidth 8 = BitVec.ofNat 8 (0x20 + a.toNat) := by decide
  exact ⟨d, rc, by simp only [WireCmd.call, eventOf, hbyte]⟩

/-- A call whose event is no W_REGISTER to a byte's register leaves the byte alone, whatever the environment. -/
theorem reply_read (c : Call) {s : State} (hs : s.chip.Sound) {k : Nat} (hk : ¬ WritesRegister (eventIn c s) (k / 8)) :
    Memory.read (reply c s).chip.regs k = Memory.read s.chip.regs k := by
  by_cases hc : ∃ a d, decodeWireCmd c = .ok (.wRegister a d)
  · obtain ⟨a, d, hd⟩ := hc
    obtain rfl := decodeWireCmd_eq_wRegister hd
    have hwf : 1 ≤ d.length ∧ d.length ≤ 5 := of_decide_eq_true (decodeWireCmd_ok hd).1
    have ha : k / 8 ≠ a.toNat := fun h => hk (h ▸ writesRegister_eventOf_wRegister a d _ _)
    obtain ⟨es, h | ⟨w, drawn, h⟩⟩ := reply_chip (WireCmd.wRegister a d).call s
    · rw [h, radios_regs]
    · rw [h]
      by_cases hacc : Accessible (s.chip.radios es) (.wRegister a d)
      · rw [react_of_accessible hd hacc]
        exact (read_writeReg_of_ne (sound_radios hs es) (by omega) ha).trans (by rw [radios_regs])
      · rw [react_of_not_accessible hd hacc, radios_regs]
  · rw [reply_regs c s fun a d hd => hc ⟨a, d, hd⟩]

/-- Along a path a byte changes only when a W_REGISTER to its register is among the events added. -/
theorem Path.read {P : Call → Prop} {s t : State} (h : Path P s t) (hs : s.chip.Sound) (k : Nat) :
    ∃ es, t.history = s.history ++ es ∧
      ((∀ e ∈ es, ¬ WritesRegister e (k / 8)) → Memory.read t.chip.regs k = Memory.read s.chip.regs k) := by
  induction h with
  | here => exact ⟨[], by simp, fun _ => rfl⟩
  | @call u c hu _ ih =>
    obtain ⟨es, he, hread⟩ := ih
    refine ⟨es ++ [eventIn c u], by simp [he], fun hes => ?_⟩
    exact (reply_read c (hu.sound hs) (hes _ (by simp))).trans (hread fun e hm => hes e (by simp [hm]))
  | inside fs _ _ hc hh ih =>
    obtain ⟨es, he, hread⟩ := ih
    exact ⟨es ++ fs, by simp [hh, he], fun hes => hc ▸ hread fun e hm => hes e (by simp [hm])⟩
  | @tinit u x _ ih =>
    obtain ⟨es, he, hread⟩ := ih
    have hregs : (initChip x u).regs = u.chip.regs := by
      unfold initChip
      split
      · exact radios_regs _ _
      all_goals rfl
    exact ⟨es ++ [.tinit (initRc x u)], by simp [he], fun hes => by
      rw [transportInit_chip, hregs, hread fun e hm => hes e (by simp [hm])]⟩

end Sys2Proof.Machine

namespace Sys2Proof.Proofs

open Sys2Proof Sys2Proof.Machine Sys2Proof.Claims

/-- Settles O21: along the path of an instruction a byte changes only by a W_REGISTER to its register, and the events added
are fixed by the history. -/
theorem registerBytesChangeOnlyWhenWritten : Obligations.RegisterBytesChangeOnlyWhenWritten := by
  intro i s t es k hs h hes hnone
  obtain ⟨fs, hfs, hread⟩ := (exec_path h).read hs k
  obtain rfl : es = fs := List.append_cancel_left (hes.symm.trans hfs)
  exact hread hnone

end Sys2Proof.Proofs

/-! PROOFS. What a command and a radio event do to the chip (20_memory.md): the derived registers bit by bit (R98), the
register space (R84, R97, R99, R100), the FIFOs (R101 to R104, R197, R198) and the radio events (R107, R201). -/

namespace Sys2Proof.Machine

open Sys2Proof.Claims

/-! ### The derived registers (R98) -/

@[simp] theorem getElem_bitAt (i k : Nat) (hk : k < 8) (b : Bool) : (bitAt i b)[k] = (b && decide (i = k)) := by
  cases b with
  | false => simp [bitAt]
  | true =>
    show (BitVec.ofNat 8 (1 <<< i))[k] = decide (i = k)
    rw [BitVec.getElem_eq_testBit_toNat, BitVec.toNat_ofNat, Nat.testBit_mod_two_pow, Nat.one_shiftLeft,
      Nat.testBit_two_pow]
    simp [hk]

theorem topPipe_nil {c : RefChip} (h : c.rxq = []) : c.topPipe = 7 := by simp [RefChip.topPipe, h]

theorem topPipe_cons {c : RefChip} {e : RxEntry} {q : List RxEntry} (h : c.rxq = e :: q) :
    c.topPipe = BitVec.ofNat 8 e.pipe.val := by simp [RefChip.topPipe, h]

/-- The pipe number is a three-bit field. -/
theorem topPipe_lt (c : RefChip) : c.topPipe.toNat < 2 ^ 3 := by
  cases h : c.rxq with
  | nil => rw [topPipe_nil h]; decide
  | cons e q =>
    rw [topPipe_cons h, BitVec.toNat_ofNat]
    have := e.pipe.isLt
    omega

theorem getElem_topPipe (c : RefChip) (k : Nat) (hk : k < 8) (h3 : 3 ≤ k) : c.topPipe[k] = false := by
  rw [BitVec.getElem_eq_testBit_toNat]
  exact Nat.testBit_lt_two_pow ((topPipe_lt c).trans_le (Nat.pow_le_pow_right (by decide) h3))

theorem pipeField_status (c : RefChip) : pipeField c.status = c.topPipe.setWidth 3 := by
  ext i hi
  interval_cases i <;> simp [pipeField, RefChip.status]

/-! ### The register map by address (R97) -/

theorem regKind_singleAddrs : ∀ a ∈ singleAddrs, regKind a = .one := by decide

theorem regKind_fiveAddrs : ∀ a ∈ fiveAddrs, regKind a = .five := by decide

theorem regKind_unmappedAddrs : ∀ a ∈ unmappedAddrs, regKind a = .unmapped := by decide

theorem regKind_unstored : ∀ a, a ∈ derivedAddrs ∨ a ∈ unmappedAddrs → regKind a ≠ .one ∧ regKind a ≠ .five := by
  decide

theorem regKind_eq_status : ∀ a, regKind a = .status ↔ a = 0x07 := by decide

section Registers

variable {c : RefChip} {a b : BitVec 5} {n : Nat} {d : List Byte}

theorem readReg_single (ha : regKind a = .one) : c.readReg a n = List.replicate n (regByte c a 0) := by
  simp [RefChip.readReg, ha, regByte]

theorem readReg_take (ha : regKind a = .five) (hn : n ≤ 5) : c.readReg a n = (regFive c a).take n := by
  simp [RefChip.readReg, ha, regFive, regByte, Memory.readBytes, regKey, ← List.map_take, List.take_range, hn]

theorem readReg_unmapped (ha : regKind a = .unmapped) : c.readReg a n = List.replicate n 0 := by
  simp [RefChip.readReg, ha]

/-- A write to a single-byte register stores the first byte, and no other. -/
theorem regByte_writeReg_single (hc : c.Sound) (ha : regKind a = .one) {i : Nat} (hi : i < 8) :
    regByte (c.writeReg a d) b i = if b = a ∧ i = 0 then d.headD 0 else regByte c b i := by
  simp [regByte, RefChip.writeReg, ha, Memory.read_write _ hc.regs_wf, regKey_inj hi]

/-- A write to a five-byte register stores the bytes given, and no other. -/
theorem regByte_writeReg_five (hc : c.Sound) (ha : regKind a = .five) (hd : d.length ≤ 8) {i : Nat} (hi : i < 8) :
    regByte (c.writeReg a d) b i = if b = a ∧ i < d.length then d.getD i 0 else regByte c b i := by
  by_cases hb : b = a
  · subst hb
    simp [regByte, RefChip.writeReg, ha, Memory.read_writeBytes _ hc.regs_wf, regKey]
  · rw [if_neg fun h => hb h.1]
    exact regByte_writeReg_of_ne hc hb hd hi

/-- A write to a register that stores nothing changes no byte. -/
theorem writeReg_regs (ha : regKind a ≠ .one ∧ regKind a ≠ .five) : (c.writeReg a d).regs = c.regs := by
  unfold RefChip.writeReg
  split
  case h_1 h => exact absurd h ha.1
  case h_2 h => exact absurd h ha.2
  all_goals rfl

theorem writeReg_status (ha : regKind a = .status) : c.writeReg a d = c.clearFlags (d.headD 0) := by
  simp [RefChip.writeReg, ha]

/-- Only a write to `STATUS` changes more than the register space. -/
theorem writeReg_frame (ha : regKind a ≠ .status) :
    c.writeReg a d = { c with regs := (c.writeReg a d).regs } := by
  unfold RefChip.writeReg
  split
  case h_3 h => exact absurd h ha
  all_goals rfl

end Registers

/-! ### The FIFOs (R101 to R104) -/

section Fifos

variable {c : RefChip} {n : Nat} {d : List Byte} {k : TxKind} {o : Option Byte}

theorem topWidth_nil (h : c.rxq = []) : c.topWidth none = 0 := by simp [RefChip.topWidth, h]

theorem topWidth_cons {e : RxEntry} {q : List RxEntry} (h : c.rxq = e :: q) :
    c.topWidth none = BitVec.ofNat 8 e.data.length := by simp [RefChip.topWidth, h]

theorem firstBytes_eq (n : Nat) (bs : List Byte) : firstBytes n bs = (bs ++ List.replicate n 0).take n := by
  refine List.ext_getElem (by simp [firstBytes]) fun i h₁ h₂ => ?_
  have hi : i < n := by simpa [firstBytes] using h₁
  by_cases hb : i < bs.length <;> simp [firstBytes, hb, List.getElem_append]

theorem popRx_nil (h : c.rxq = []) : c.popRx n = ({ c with faulted := true }, List.replicate n 0) := by
  simp [RefChip.popRx, h]

theorem popRx_cons {e : RxEntry} {q : List RxEntry} (h : c.rxq = e :: q) :
    c.popRx n = ({ c with rxq := q }, (e.data ++ List.replicate n 0).take n) := by
  simp [RefChip.popRx, h, firstBytes_eq]

theorem pushTx_of_fits (hq : c.txq.length < 3) (h1 : 1 ≤ d.length) (h32 : d.length ≤ 32) :
    c.pushTx k d = { c with txq := c.txq ++ [⟨k, d⟩] } := if_pos ⟨hq, h1, h32⟩

theorem pushTx_of_not_fits (h : 3 ≤ c.txq.length ∨ d.length = 0) : c.pushTx k d = { c with faulted := true } :=
  if_neg (by omega)

/-- W_TX_PAYLOAD keeps the reuse on RefChip and ends it on the two other variants (R103, R197). -/
theorem run_wTxPayload : c.run o (.wTxPayload d) =
    ({ c.pushTx .plain d with txReuse := if c.variant = .refChip then c.txReuse else false }, []) := by
  simp only [RefChip.run]
  cases c.variant <;> simp

theorem run_activate_of_ne (h : c.variant ≠ .nrf24l01) : c.run o .activate = (c, []) := by
  simp [RefChip.run, beq_eq_false_iff_ne.2 h]

theorem run_activate (h : c.variant = .nrf24l01) : c.run o .activate = ({ c with activated := !c.activated }, []) := by
  simp [RefChip.run, h]

end Fifos

/-! ### The radio events (R107, R201) -/

section Radio

variable {c : RefChip} {p : Fin 6} {d : List Byte} {e : TxEntry} {q : List TxEntry}

theorem radio_rxArrive (hq : c.rxq.length < 3) (h1 : 1 ≤ d.length) (h32 : d.length ≤ 32) :
    c.radio (.rxArrive p d) = { c with rxq := c.rxq ++ [⟨p, d⟩], rxDr := true } := if_pos ⟨hq, h1, h32⟩

theorem radio_rxArrive_full (hq : 3 ≤ c.rxq.length) : c.radio (.rxArrive p d) = c := if_neg (by omega)

theorem radio_txDone_nil (h : c.txq = []) : c.radio .txDone = c := by simp [RefChip.radio, h]

theorem radio_txFail_nil (h : c.txq = []) : c.radio .txFail = c := by simp [RefChip.radio, h]

theorem radio_txDone_cons (h : c.txq = e :: q) :
    c.radio .txDone = { c with txq := if c.txReuse then c.txq else q, txDs := true } := by
  simp [RefChip.radio, h]

theorem radio_txFail_cons (h : c.txq = e :: q) :
    c.radio .txFail = { c with maxRt := c.maxRt || c.variant == .refChip || e.kind != .noack } := by
  simp [RefChip.radio, h]

end Radio

end Sys2Proof.Machine

namespace Sys2Proof.Proofs

open Sys2Proof Sys2Proof.Machine Sys2Proof.Claims

/-- Settles O25, each bit by the field it comes from; the pipe number reaches no bit above 3:1. -/
theorem derivedRegistersOfRefChip : Obligations.DerivedRegistersOfRefChip := by
  intro c n w
  refine ⟨rfl, rfl, rfl, rfl, ?_, ?_, ?_, ?_, ?_, ?noPipe, ?pipe, ?_⟩
  case noPipe =>
    intro h
    rw [pipeField_status, topPipe_nil h]
    rfl
  case pipe =>
    intro e q h
    rw [pipeField_status, topPipe_cons h, BitVec.toNat_setWidth, BitVec.toNat_ofNat]
    have := e.pipe.isLt
    omega
  all_goals simp [RefChip.status, RefChip.fifoStatus, getElem_topPipe, Bool.beq_eq_decide_eq]

/-- Settles O26: one law of `readReg` and of `writeReg` for each class of address. -/
theorem registerAccessOnRefChip : Obligations.RegisterAccessOnRefChip := by
  refine ⟨fun c a n w _ h5 => ?reads, fun c a b d i w hc _ h5 hi => ?writes⟩
  case reads =>
    refine ⟨fun ha => ?single, fun ha => ?five, fun ha => ?unmapped⟩
    case single => exact congrArg (Prod.mk c) (readReg_single (regKind_singleAddrs a ha))
    case five => exact congrArg (Prod.mk c) (readReg_take (regKind_fiveAddrs a ha) h5)
    case unmapped => exact congrArg (Prod.mk c) (readReg_unmapped (regKind_unmappedAddrs a ha))
  case writes =>
    refine ⟨rfl, fun ha => ?single, fun ha => ?five, fun ha => ?unstored, fun ha => ?status, fun ha => ?frame⟩
    case single => exact regByte_writeReg_single hc (regKind_singleAddrs a ha) (by omega)
    case five => exact regByte_writeReg_five hc (regKind_fiveAddrs a ha) (by omega) (by omega)
    case unstored => exact writeReg_regs (regKind_unstored a ha)
    case status => exact writeReg_status ((regKind_eq_status a).2 ha)
    case frame => exact writeReg_frame (mt (regKind_eq_status a).1 ha)

/-- Settles O27: one law for each command and case of its queue. -/
theorem fifoCommandsOnRefChip : Obligations.FifoCommandsOnRefChip := by
  intro c n d p w o h1 h32 hd hp kept
  refine ⟨fun h => ⟨?_, popRx_nil h⟩, fun e q h => ⟨?_, popRx_cons h⟩, rfl, fun hq hd1 => ?written, fun h => ?refused,
    rfl, rfl, rfl, run_activate_of_ne, run_activate⟩
  · simp only [RefChip.run, topWidth_nil h]
  · simp only [RefChip.run, topWidth_cons h]
  case written =>
    have hpush (k : TxKind) := pushTx_of_fits (k := k) hq hd1 hd
    exact ⟨by rw [run_wTxPayload, hpush], congrArg (·, []) (hpush .noack), congrArg (·, []) (hpush (.ack p))⟩
  case refused =>
    have hpush (k : TxKind) := pushTx_of_not_fits (k := k) h
    exact ⟨by rw [run_wTxPayload, hpush], congrArg (·, []) (hpush .noack), congrArg (·, []) (hpush (.ack p))⟩

/-- Settles O28: one law for each event and case of its queue; on the two other variants of the chip a failed transmission
of an entry without acknowledgement leaves `MAX_RT` as it was. -/
theorem radioEventsOnRefChip : Obligations.RadioEventsOnRefChip := by
  intro c p d h1 h32
  refine ⟨fun hq => radio_rxArrive hq h1 h32, radio_rxArrive_full, fun h => ⟨radio_txDone_nil h, radio_txFail_nil h⟩,
    fun e q h hset => ?failed, fun e q h hv hk => ?noAck, fun e q h hr => ?sent, fun h hr => ?reused⟩
  case failed =>
    rw [radio_txFail_cons h]
    rcases hset with hv | hk
    · simp [hv]
    · simp [hk]
  case noAck => simp [radio_txFail_cons h, beq_eq_false_iff_ne.2 hv, hk]
  case sent => simp [radio_txDone_cons h, hr]
  case reused =>
    obtain ⟨e, q, h⟩ := List.exists_cons_of_ne_nil h
    simp [radio_txDone_cons h, hr]

end Sys2Proof.Proofs

/-! PROOFS. Requests and their instructions (30_encoding.md): decoding undoes encoding (R134, R138, R139), a wire call
that decodes is the call of its command (R130, R137), and what a step does with the item on the ports (R138, R141). -/

namespace Sys2Proof

/-! ### The opcode byte of a wire command (R134, R137) -/

/-- The opcode byte with its field (R131 to R134). -/
def WireOp.byte : WireOp → Byte
  | .rRegister addr => 0x00 ||| addr.setWidth 8
  | .wRegister addr => 0x20 ||| addr.setWidth 8
  | .rRxPayload => 0x61
  | .wTxPayload => 0xA0
  | .flushTx => 0xE1
  | .flushRx => 0xE2
  | .reuseTxPl => 0xE3
  | .activate => 0x50
  | .rRxPlWid => 0x60
  | .wAckPayload pipe => 0xA8 ||| pipe.setWidth 8
  | .wTxPayloadNoack => 0xB0

/-- Classifying loses nothing of the byte. -/
theorem byte_of_classify {b : Byte} {op : WireOp} (h : classify b = some op) : op.byte = b := by
  have hall : ∀ b : Byte, ∀ op ∈ classify b, op.byte = b := by decide
  exact hall b op h

/-! ### A call that decodes is the call of its command (R130) -/

section Call

variable {op : WireOp} {d : WireCmd}

theorem call_of_decodeSend {rest : List Byte} (h : decodeSend op rest = .ok d) : d.call = .send (op.byte :: rest) := by
  unfold decodeSend at h
  split at h
  case h_4 m =>
    split at h
    case isTrue hm => cases h; rw [hm]; rfl
    case isFalse => cases h
  all_goals cases h
  all_goals rfl

theorem call_of_decodeSend2 {data : List Byte} (h : decodeSend2 op data = .ok d) : d.call = .send2 [op.byte] data := by
  unfold decodeSend2 at h
  split at h
  case h_5 => cases h
  all_goals obtain ⟨rfl, -⟩ := Machine.lengthChecked_ok h
  all_goals rfl

theorem call_of_decodeXfer {n : Nat} (h : decodeXfer op n = .ok d) : d.call = .xfer [op.byte] n := by
  unfold decodeXfer at h
  split at h
  case h_3 =>
    split at h
    case isTrue hn => cases h; rw [hn]; rfl
    case isFalse => cases h
  case h_4 => cases h
  all_goals obtain ⟨rfl, -⟩ := Machine.lengthChecked_ok h
  all_goals rfl

theorem call_of_decodeWireCmd {c : Call} (h : decodeWireCmd c = .ok d) : d.call = c := by
  unfold decodeWireCmd at h
  split at h
  case h_2 =>
    split at h
    case h_1 => cases h
    case h_2 hop => rw [call_of_decodeSend h, byte_of_classify hop]
  case h_3 =>
    split at h
    case h_1 => cases h
    case h_2 hop => rw [call_of_decodeSend2 h, byte_of_classify hop]
  case h_6 =>
    split at h
    case h_1 => cases h
    case h_2 hop => rw [call_of_decodeXfer h, byte_of_classify hop]
  all_goals cases h

theorem decode_call (h : d.wf = true) : decode (.wire d.call) = .ok d.toInstr := by
  rw [decode, Machine.decodeWireCmd_call h, Decoded.map]

end Call

/-! ### Reading back the operand bytes of a host request -/

theorem toNat_countByte {n : Nat} (h : n < 256) : (countByte n).toNat = n := by
  rw [countByte, BitVec.toNat_ofNat]
  exact Nat.mod_eq_of_lt h

theorem takeBytes_putBytes {bs : List Byte} (h : bs.length < 256) (w : List Byte) :
    takeBytes (putBytes bs ++ w) = (bs, w) := by
  simp [takeBytes, putBytes, takeByte, toNat_countByte h]

theorem getLsbD_sixBits (b0 b1 b2 b3 b4 b5 : Bool) :
    (sixBits b0 b1 b2 b3 b4 b5).getLsbD 0 = b0 ∧ (sixBits b0 b1 b2 b3 b4 b5).getLsbD 1 = b1 ∧
    (sixBits b0 b1 b2 b3 b4 b5).getLsbD 2 = b2 ∧ (sixBits b0 b1 b2 b3 b4 b5).getLsbD 3 = b3 ∧
    (sixBits b0 b1 b2 b3 b4 b5).getLsbD 4 = b4 ∧ (sixBits b0 b1 b2 b3 b4 b5).getLsbD 5 = b5 := by
  revert b0 b1 b2 b3 b4 b5
  decide

/-- The rate's byte carries it in bit 0. -/
theorem rate_of_byte (r : Rate) :
    (if (if r = .r2M then (1 : Byte) else 0).getLsbD 0 then Rate.r2M else Rate.r1M) = r := by
  cases r <;> rfl

theorem packable_iff (c : RadioConfig) : c.packable = true ↔
    c.txAddr.length < 256 ∧ c.pipe0.addr.length < 256 ∧ c.pipe1.addr.length < 256 ∧ c.pipe2.addr.length < 256 ∧
      c.pipe3.addr.length < 256 ∧ c.pipe4.addr.length < 256 ∧ c.pipe5.addr.length < 256 := by
  simp [RadioConfig.packable]

theorem takeConfig_putConfig {c : RadioConfig} (h : c.packable = true) (w : List Byte) :
    takeConfig (putConfig c ++ w) = (c, w) := by
  obtain ⟨htx, h0, h1, h2, h3, h4, h5⟩ := (packable_iff c).1 h
  obtain ⟨rate, power, channel, tx, p0, p1, p2, p3, p4, p5⟩ := c
  simp only [takeConfig, putConfig, takeByte, List.append_assoc, List.cons_append, List.nil_append,
    takeBytes_putBytes htx, takeBytes_putBytes h0, takeBytes_putBytes h1, takeBytes_putBytes h2, takeBytes_putBytes h3,
    takeBytes_putBytes h4, takeBytes_putBytes h5, getLsbD_sixBits, rate_of_byte]

theorem takeConfig_putConfig_nil {c : RadioConfig} (h : c.packable = true) : takeConfig (putConfig c) = (c, []) := by
  simpa using takeConfig_putConfig h []

theorem takeOptConfig_putOptConfig {c : Option RadioConfig} (h : c.all RadioConfig.packable = true) (w : List Byte) :
    takeOptConfig (putOptConfig c ++ w) = (c, w) := by
  cases c with
  | none => rfl
  | some c => simp [takeOptConfig, putOptConfig, takeByte, takeConfig_putConfig h]

theorem pairsOf_putPairs (t : List (Byte × Byte)) : pairsOf (putPairs t) = t := by
  induction t with
  | nil => rfl
  | cons p t ih => rw [putPairs, pairsOf, ih]

theorem optTable_putOptTable (t : Option (List (Byte × Byte))) : optTable (putOptTable t) = t := by
  cases t with
  | none => rfl
  | some t => simp [optTable, putOptTable, takeByte, pairsOf_putPairs]

theorem transportOf_transportByte (x : Transport) : transportOf (transportByte x) = x := by cases x <;> rfl

/-! ### The select code (R138) -/

/-- A select code outside the table names no operation. -/
theorem decodeHost_unknown {op : Byte} (h : op.toNat ∉ Claims.selectCodes) (w : List Byte) :
    decodeHost op w = .error .unknownSelect := by
  unfold decodeHost
  split
  case h_41 => rfl
  all_goals
    rename_i hop
    exact absurd (hop ▸ by decide) h

/-! ### Decoding undoes encoding -/

/-- A wire command is carried by its call; on the host port the select code alone names an operation whose operands are
plain bytes, and the other operands are read back by the laws above. -/
theorem decode_encode {i : Instr} (h : i.encodable = true) : decode (encode i) = .ok i := by
  cases i with
  | rRegister | wRegister | rRxPayload | wTxPayload | flushTx | flushRx | reuseTxPl | wireActivate | rRxPlWid
  | wAckPayload | wTxPayloadNoack => exact decode_call h
  | readRegisters _ n | txWrite _ n | txWriteNoAck _ n =>
    have hn : n < 256 := of_decide_eq_true h
    simp [encode, decode, decodeHost, byteAt, toNat_countByte hn]
  | cfgWriteDirectly c | cfgWrite c =>
    have hc : c.packable = true := h
    simp [encode, decode, decodeHost, takeConfig_putConfig_nil hc]
  | cfgWriteDiff old new =>
    obtain ⟨hold, hnew⟩ := Bool.and_eq_true_iff.1 h
    simp [encode, decode, decodeHost, takeOptConfig_putOptConfig hold, takeConfig_putConfig_nil hnew]
  | init transport => simp [encode, decode, decodeHost, byteAt, transportOf_transportByte]
  | setup _ config _ =>
    have hc : config.all RadioConfig.packable = true := h
    simp [encode, decode, decodeHost, byteAt, takeOptConfig_putOptConfig hc, optTable_putOptTable]
  | _ => rfl

end Sys2Proof

namespace Sys2Proof.Machine

/-! ### What a step does with the item on the ports (R107, R138, R141) -/

section Item

variable {s : State} {rest : List PortItem}

theorem step_of_decoded {r : Request} {i : Instr} (hp : s.pending = .request r :: rest) (hd : decode r = .ok i) :
    step s = exec i (takeItem rest s) := by
  simp [step, hp, hd]

theorem step_of_radio {e : ChipEvent} (hp : s.pending = .radio e :: rest) :
    step s = .next (radioEvent e (takeItem rest s)) := by
  simp [step, hp]

theorem step_of_pin {b : Bool} (hp : s.pending = .pin b :: rest) : step s = .next (pinMove b (takeItem rest s)) := by
  simp [step, hp]

theorem step_of_nothing (hp : s.pending = []) : step s = .next s := by
  simp [step, hp]

end Item

end Sys2Proof.Machine

namespace Sys2Proof.Proofs

open Sys2Proof Sys2Proof.Machine Sys2Proof.Claims

/-- Settles O2: a wire command is carried by its call, and each operand reader of the host port reads back what its
writer has laid out. -/
theorem decodeOfEncodeIsTheInstruction : Obligations.DecodeOfEncodeIsTheInstruction :=
  fun _ h => decode_encode h

/-- Settles O3: the call is rebuilt from the class of its opcode byte and its shape. -/
theorem aWireCallMeansOneCommand : Obligations.AWireCallMeansOneCommand :=
  fun _ _ h => ⟨call_of_decodeWireCmd h, (decodeWireCmd_ok h).1⟩

/-- Settles O5: the request does not decode, and the host port refuses it. -/
theorem unknownSelectCodeIsRefused : Obligations.UnknownSelectCodeIsRefused := by
  intro s op w rest hp hop
  have hd : decode (.host op w) = .error .unknownSelect := decodeHost_unknown hop w
  rw [step_of_undecoded hp hd]
  rfl

/-- Settles O1: the requests by evaluation, the opcode bytes byte by byte. -/
theorem writtenOutWordsDecode : Obligations.WrittenOutWordsDecode := by
  refine ⟨rfl, rfl, rfl, rfl, rfl, rfl, rfl, rfl, rfl, rfl, rfl, rfl, ?opcodes⟩
  case opcodes => decide

/-- Settles O4: one law of `step` per kind of item. -/
theorem stepRunsTheDecodedRequest : Obligations.StepRunsTheDecodedRequest :=
  ⟨fun _ _ _ _ => step_of_decoded, fun _ _ _ => step_of_radio, fun _ _ _ => step_of_pin, fun _ => step_of_nothing⟩

end Sys2Proof.Proofs

/-! PROOFS. Register access (40_register_access.md): where the set bits of a contiguous mask lie and the law of the
bit-field accessors (R170 to R173), and the register operations on a bound instance (R174 to R178). -/

namespace Sys2Proof.Machine

open Sys2Proof.Claims

/-! ### Contiguous masks and the bit-field accessors (R170 to R173) -/

/-- A contiguous mask in numbers: its run of set bits is not empty and ends within the byte (R170). -/
theorem contiguous_iff : ∀ m : Byte, contiguous m = true ↔
    1 ≤ maskWidth m ∧ maskWidth m + maskShift m ≤ 8 ∧ m.toNat = (2 ^ maskWidth m - 1) * 2 ^ maskShift m := by decide

theorem getLsbD_ofNat_two_pow_sub_one {w i : Nat} (hi : i < 8) :
    (BitVec.ofNat 8 (2 ^ w - 1)).getLsbD i = decide (i < w) := by
  rw [BitVec.getLsbD_ofNat, Nat.testBit_two_pow_sub_one, decide_eq_true hi, Bool.true_and]

section Accessors

variable {m : Byte}

/-- The set bits of a contiguous mask are the `maskWidth m` bits from `maskShift m` on. -/
theorem getLsbD_of_contiguous (hm : contiguous m = true) {i : Nat} (hi : i < 8) :
    m.getLsbD i = decide (maskShift m ≤ i ∧ i < maskShift m + maskWidth m) := by
  have heq : m = BitVec.ofNat 8 (2 ^ maskWidth m - 1) <<< maskShift m := by
    simp only [contiguous, Bool.and_eq_true, beq_iff_eq] at hm
    exact hm.2
  rw [congrArg (BitVec.getLsbD · i) heq, BitVec.getLsbD_shiftLeft, getLsbD_ofNat_two_pow_sub_one (by omega),
    decide_eq_true hi, Bool.true_and, ← decide_not, ← Bool.decide_and]
  exact decide_eq_decide.2 (by omega)

theorem getElem_setBits (b m v : Byte) {i : Nat} (hi : i < 8) :
    (setBits b m v)[i] = if m[i] then (v <<< maskShift m)[i] else b[i] := by
  simp only [setBits, BitVec.getElem_and, BitVec.getElem_or, BitVec.getElem_not]
  cases m[i] <;> simp

/-- The bits outside the mask are those of the byte, whatever the mask. -/
theorem setBits_and_not (b m v : Byte) : setBits b m v &&& ~~~m = b &&& ~~~m := by
  ext i hi
  simp only [BitVec.getElem_and, BitVec.getElem_not, getElem_setBits]
  cases m[i] <;> simp

/-- The bits under the mask are those of the shifted value, whatever the mask. -/
theorem setBits_and (b m v : Byte) : setBits b m v &&& m = (v <<< maskShift m) &&& m := by
  ext i hi
  simp only [BitVec.getElem_and, getElem_setBits]
  cases m[i] <;> simp

/-- Bit `i` of the field is bit `maskShift m + i` of the byte, which lies under the mask just when `i < maskWidth m`. -/
theorem getBits_setBits (hm : contiguous m = true) (b v : Byte) :
    getBits (setBits b m v) m = v &&& BitVec.ofNat 8 (2 ^ maskWidth m - 1) := by
  obtain ⟨-, hle, -⟩ := (contiguous_iff m).1 hm
  refine BitVec.eq_of_getLsbD_eq fun i hi => ?_
  rw [getBits, setBits_and, BitVec.getLsbD_ushiftRight, BitVec.getLsbD_and, BitVec.getLsbD_shiftLeft,
    BitVec.getLsbD_and, getLsbD_ofNat_two_pow_sub_one hi]
  by_cases hin : maskShift m + i < 8
  · rw [getLsbD_of_contiguous hm hin]
    simp [hin]
  · have hw : ¬ i < maskWidth m := by omega
    simp [hin, hw]

theorem and_ofNat_two_pow_sub_one {v : Byte} {w : Nat} (hv : v.toNat < 2 ^ w) :
    v &&& BitVec.ofNat 8 (2 ^ w - 1) = v := by
  refine BitVec.eq_of_getLsbD_eq fun i hi => ?_
  rw [BitVec.getLsbD_and, getLsbD_ofNat_two_pow_sub_one hi]
  by_cases hw : i < w
  · simp [hw]
  · have hzero : v.getLsbD i = false :=
      Nat.testBit_lt_two_pow (hv.trans_le (Nat.pow_le_pow_right (by decide) (by omega)))
    simp [hzero]

variable {s : State}

theorem exec_getBits (hm : contiguous m = true) (b : Byte) :
    exec (.getBits b m) s = .next (respond .ok (.byte (getBits b m)) s) := if_pos hm

theorem exec_setBits (hm : contiguous m = true) (b v : Byte) :
    exec (.setBits b m v) s = .next (respond .ok (.byte (setBits b m v)) s) := if_pos hm

theorem refuses_accessors (hm : contiguous m = false) (b v : Byte) :
    Refuses (.getBits b m) s .badMask ∧ Refuses (.setBits b m v) s .badMask :=
  ⟨if_neg (by simp [hm]), if_neg (by simp [hm])⟩

end Accessors

/-! ### The frames of the register operations (R131, R174 to R177) -/

theorem needsBinding_of_not_exempt {i : Instr} (hi : i.isHost = true) (he : exemptFromBinding i = false) :
    NeedsBinding i := fun s hb => Proofs.unboundInstanceRefusesOperations i s hi he hb

section Frames

variable {addr : Byte}

theorem addrOk_of_le (h : addr.toNat ≤ 0x1F) : addrOk addr = true := decide_eq_true h

theorem addrOk_of_lt (h : 0x1F < addr.toNat) : addrOk addr = false := decide_eq_false (by omega)

theorem setWidth_regAddr (h : addr.toNat ≤ 0x1F) : (regAddr addr).setWidth 8 = addr :=
  ((regAddr_eq_iff (by omega) _).1 rfl).symm

theorem call_rRegister_regAddr (h : addr.toNat ≤ 0x1F) (n : Nat) :
    (WireCmd.rRegister (regAddr addr) n).call = .xfer [addr] n := by
  simp [WireCmd.call, setWidth_regAddr h]

theorem call_wRegister_regAddr (h : addr.toNat ≤ 0x1F) (bs : List Byte) :
    (WireCmd.wRegister (regAddr addr) bs).call = .send2 [0x20 + addr] bs := by
  have hsum : ∀ a : BitVec 5, (0x20 : Byte) ||| a.setWidth 8 = 0x20 + a.setWidth 8 := by decide
  rw [WireCmd.call, hsum, setWidth_regAddr h]

theorem readByteCall_regAddr (h : addr.toNat ≤ 0x1F) : readByteCall (regAddr addr) = .xfer [addr] 1 :=
  call_rRegister_regAddr h 1

theorem writeByteCall_regAddr (h : addr.toNat ≤ 0x1F) (b : Byte) :
    writeByteCall (regAddr addr) b = .send2 [0x20 + addr] [b] :=
  call_wRegister_regAddr h [b]

end Frames

/-! ### The register operations on a bound instance (R174 to R178) -/

section Operations

variable {addr : Byte} {n : Nat} {bs : List Byte} {s : State} (hb : s.bound = true)
include hb

theorem exec_readRegister (ha : addr.toNat ≤ 0x1F) :
    exec (.readRegister addr) s = .next (respond (mk (cnt (rcOf (.xfer [addr] 1) s)))
      (.byte (byteOf (.xfer [addr] 1) s)) (transact (.xfer [addr] 1) s)) := by
  rw [← readByteCall_regAddr ha]
  exact (whenBound_true hb _).trans (if_pos (addrOk_of_le ha))

theorem exec_readRegisters (ha : addr.toNat ≤ 0x1F) (hn : 1 ≤ n ∧ n ≤ 5) :
    exec (.readRegisters addr n) s = .next (respond (mk (cnt (rcOf (.xfer [addr] n) s)))
      (.bytes (reply (.xfer [addr] n) s).bytes) (transact (.xfer [addr] n) s)) := by
  rw [← call_rRegister_regAddr ha]
  exact (whenBound_true hb _).trans (if_pos (by simp [addrOk_of_le ha, countOk, hn]))

theorem isOneCall_writeRegister (ha : addr.toNat ≤ 0x1F) (b : Byte) :
    IsOneCall (.writeRegister addr b) (.send2 [0x20 + addr] [b]) s := by
  rw [← writeByteCall_regAddr ha]
  exact (whenBound_true hb _).trans (if_pos (addrOk_of_le ha))

theorem isOneCall_writeRegisters (ha : addr.toNat ≤ 0x1F) (hn : 1 ≤ bs.length ∧ bs.length ≤ 5) :
    IsOneCall (.writeRegisters addr bs) (.send2 [0x20 + addr] bs) s := by
  rw [← call_wRegister_regAddr ha]
  exact (whenBound_true hb _).trans (if_pos (by simp [addrOk_of_le ha, countOk, hn]))

theorem refuses_singleByte (ha : 0x1F < addr.toNat) (b : Byte) :
    Refuses (.readRegister addr) s .badOperand ∧ Refuses (.writeRegister addr b) s .badOperand :=
  have hno : ¬ addrOk addr = true := by simp [addrOk_of_lt ha]
  ⟨(whenBound_true hb _).trans (if_neg hno), (whenBound_true hb _).trans (if_neg hno)⟩

theorem refuses_readRegisters (h : 0x1F < addr.toNat ∨ n < 1 ∨ 5 < n) :
    Refuses (.readRegisters addr n) s .badOperand :=
  (whenBound_true hb _).trans (if_neg (by simp only [addrOk, countOk, Bool.and_eq_true, decide_eq_true_eq]; omega))

theorem refuses_writeRegisters (h : 0x1F < addr.toNat ∨ bs.length < 1 ∨ 5 < bs.length) :
    Refuses (.writeRegisters addr bs) s .badOperand :=
  (whenBound_true hb _).trans (if_neg (by simp only [addrOk, countOk, Bool.and_eq_true, decide_eq_true_eq]; omega))

theorem refuses_modify_badOperand (ha : 0x1F < addr.toNat) (m v : Byte) :
    Refuses (.modifyRegisterBits addr m v) s .badOperand :=
  (whenBound_true hb _).trans (if_pos (by simp [addrOk_of_lt ha]))

theorem refuses_modify_badMask (ha : addr.toNat ≤ 0x1F) {m : Byte} (hm : contiguous m = false) (v : Byte) :
    Refuses (.modifyRegisterBits addr m v) s .badMask :=
  (whenBound_true hb _).trans ((if_neg (by simp [addrOk_of_le ha])).trans (if_pos (by simp [hm])))

theorem exec_modifyRegisterBits (ha : addr.toNat ≤ 0x1F) {m : Byte} (hm : contiguous m = true) (v : Byte) :
    exec (.modifyRegisterBits addr m v) s = .next (respond (mk (modifyFailures (regAddr addr) m v s)) .none
      (modifyBits (regAddr addr) m v s)) :=
  (whenBound_true hb _).trans ((if_neg (by simp [addrOk_of_le ha])).trans (if_neg (by simp [hm])))

end Operations

section ReadModifyWrite

variable {a : BitVec 5} {s : State}

theorem modify_of_read_fail (h : (reply (readByteCall a) s).rc = .fail) (m v : Byte) :
    modifyBits a m v s = transact (readByteCall a) s ∧ modifyFailures a m v s = 1 := by
  simp [modifyBits, modifyFailures, h]

theorem modify_of_read_ok (h : (reply (readByteCall a) s).rc = .ok) (m v : Byte) :
    modifyBits a m v s = transact (modifyCall a m v s) (transact (readByteCall a) s) ∧
      modifyFailures a m v s = failed (modifyCall a m v s) (transact (readByteCall a) s) := by
  simp [modifyBits, modifyFailures, h]

end ReadModifyWrite

end Sys2Proof.Machine

namespace Sys2Proof.Proofs

open Sys2Proof Sys2Proof.Machine Sys2Proof.Claims

/-- Settles O33: the check of the mask decides. -/
theorem bitFieldAccessorsAnswer : Obligations.BitFieldAccessorsAnswer :=
  fun _ b _ v => ⟨fun hm => ⟨exec_getBits hm b, exec_setBits hm b v⟩, fun hm => refuses_accessors hm b v⟩

/-- Settles O34, bit by bit: the field is the run of bits under the mask. -/
theorem getBitsOfSetBits : Obligations.GetBitsOfSetBits := fun b m v hm =>
  ⟨getBits_setBits hm b v, setBits_and_not b m v, fun hv =>
    (getBits_setBits hm b v).trans (and_ofNat_two_pow_sub_one hv)⟩

/-- Settles O32: the shift and the width of the mask are the two numbers of R170. -/
theorem contiguousMasksAreThe36 : Obligations.ContiguousMasksAreThe36 := by
  refine ⟨fun m => (contiguous_iff m).trans ⟨?shape, ?accepted⟩, ?count, fun _ b _ v hm => refuses_accessors hm b v,
    fun _ _ _ v hb ha hm => refuses_modify_badMask hb ha hm v⟩
  case shape =>
    rintro ⟨hw, hle, hm⟩
    exact ⟨maskShift m, maskWidth m, by omega, hw, by omega, hm, rfl, rfl⟩
  case accepted =>
    rintro ⟨s, w, hs, hw, hle, hm, rfl, rfl⟩
    exact ⟨hw, by omega, hm⟩
  case count => decide

/-- Settles O35: the operand check passes just within the bounds, and the frame's opcode byte carries the address. -/
theorem registerOperationsAreOneFrame : Obligations.RegisterOperationsAreOneFrame := by
  intro addr b n bs
  refine ⟨needsBinding_of_not_exempt rfl rfl, needsBinding_of_not_exempt rfl rfl, needsBinding_of_not_exempt rfl rfl,
    needsBinding_of_not_exempt rfl rfl, fun s hb => ⟨fun ha => ?badAddress, fun hn => ?badCount, fun hn => ?badLength,
    fun ha => exec_readRegister hb ha, fun ha h1 h5 => exec_readRegisters hb ha ⟨h1, h5⟩,
    fun ha => isOneCall_writeRegister hb ha b, fun ha h1 h5 => isOneCall_writeRegisters hb ha ⟨h1, h5⟩⟩⟩
  case badAddress =>
    obtain ⟨hread, hwrite⟩ := refuses_singleByte hb ha b
    exact ⟨hread, refuses_readRegisters hb (.inl ha), hwrite, refuses_writeRegisters hb (.inl ha)⟩
  case badCount => exact refuses_readRegisters hb (.inr hn)
  case badLength => exact refuses_writeRegisters hb (.inr hn)

/-- Settles O36, by the return code of the read. -/
theorem modifyRegisterBitsIsReadModifyWrite : Obligations.ModifyRegisterBitsIsReadModifyWrite := by
  intro reg m v
  refine ⟨needsBinding_of_not_exempt rfl rfl, fun s hb => ⟨fun ha => refuses_modify_badOperand hb ha m v,
    fun ha hm => refuses_modify_badMask hb ha hm v, fun ha hm hrc => ?readFails, fun ha hm hrc => ?readSucceeds⟩⟩
  case readFails =>
    rw [← readByteCall_regAddr ha] at hrc ⊢
    obtain ⟨hstate, hcount⟩ := modify_of_read_fail hrc m v
    rw [exec_modifyRegisterBits hb ha hm, hstate, hcount]
    rfl
  case readSucceeds =>
    rw [← readByteCall_regAddr ha] at hrc ⊢
    obtain ⟨hstate, hcount⟩ := modify_of_read_ok hrc m v
    rw [exec_modifyRegisterBits hb ha hm, hstate, hcount, modifyCall, writeByteCall_regAddr ha]
    rfl

end Sys2Proof.Proofs

/-! PROOFS. The Command Protocol Layer (41_command_protocol.md): the wire commands on their port and the operations that issue
one fixed frame (R190 to R203, R219, R220). -/

namespace Sys2Proof.Machine

open Sys2Proof.Claims

/-! ### The frames of the commands with an operand field (R131, R134)

The model puts the field into the opcode byte bit by bit; the rules write the byte as a sum. -/

theorem call_rRegister (a : BitVec 5) (n : Nat) : (WireCmd.rRegister a n).call = .xfer [a.setWidth 8] n := by
  simp [WireCmd.call]

theorem call_wRegister (a : BitVec 5) (bs : List Byte) :
    (WireCmd.wRegister a bs).call = .send2 [0x20 + a.setWidth 8] bs := by
  have hsum : ∀ a : BitVec 5, (0x20 : Byte) ||| a.setWidth 8 = 0x20 + a.setWidth 8 := by decide
  rw [WireCmd.call, hsum]

theorem call_wAckPayload (p : BitVec 3) (bs : List Byte) :
    (WireCmd.wAckPayload p bs).call = .send2 [0xA8 + p.setWidth 8] bs := by
  have hsum : ∀ p : BitVec 3, (0xA8 : Byte) ||| p.setWidth 8 = 0xA8 + p.setWidth 8 := by decide
  rw [WireCmd.call, hsum]

section OneTransaction

variable {c : Call} {s : State}

/-- What the wire port does with a command, by the call the command makes (R190). -/
theorem exec_toInstr_of_call {d : WireCmd} (h : d.call = c) :
    exec d.toInstr s = .next (respond (mk (cnt (rcOf c s))) (.bytes (reply c s).bytes) (transact c s)) := by
  subst h
  exact exec_toInstr d s

/-- An operation whose meaning is a single transaction under the check of the binding (R301). -/
theorem isOneCall_of_exec_eq_single {i : Instr} (hb : s.bound = true) (hi : exec i s = whenBound s (single c s)) :
    IsOneCall i c s :=
  hi.trans (whenBound_true hb _)

end OneTransaction

end Sys2Proof.Machine

namespace Sys2Proof.Proofs

open Sys2Proof Sys2Proof.Machine Sys2Proof.Claims

/-- Settles O30: the wire port makes the command's call, whose frame is written out for the three commands with an operand
field. -/
theorem wireCommandsAreOneTransaction : Obligations.WireCommandsAreOneTransaction := fun _ a p n d =>
  ⟨exec_toInstr_of_call (call_rRegister a n),
    exec_toInstr_of_call (call_wRegister a d),
    exec_toInstr_of_call (d := .rRxPayload n) rfl,
    exec_toInstr_of_call (d := .wTxPayload d) rfl,
    exec_toInstr_of_call (d := .flushTx) rfl,
    exec_toInstr_of_call (d := .flushRx) rfl,
    exec_toInstr_of_call (d := .reuseTxPl) rfl,
    exec_toInstr_of_call (d := .activate) rfl,
    exec_toInstr_of_call (d := .rRxPlWid) rfl,
    exec_toInstr_of_call (call_wAckPayload p d),
    exec_toInstr_of_call (d := .wTxPayloadNoack d) rfl⟩

/-- Settles O37: each of the four is a single transaction under the check of the binding. -/
theorem plainCommandsAreOneFrame : Obligations.PlainCommandsAreOneFrame :=
  ⟨needsBinding_of_not_exempt rfl rfl, needsBinding_of_not_exempt rfl rfl, needsBinding_of_not_exempt rfl rfl,
    needsBinding_of_not_exempt rfl rfl, fun _ hb => ⟨isOneCall_of_exec_eq_single hb rfl,
    isOneCall_of_exec_eq_single hb rfl, isOneCall_of_exec_eq_single hb rfl, isOneCall_of_exec_eq_single hb rfl⟩⟩

end Sys2Proof.Proofs

/-! PROOFS. The FIFO Manager (42_fifo_manager.md): its frames and results on a bound instance (R210 to R218), and that the
width test of `rxRead` is the one place where the model stops (R218, U8). -/

namespace Sys2Proof.Machine

open Sys2Proof.Claims

/-! ### Operands (R139) -/

theorem payloadOk_length {d : List Byte} (h : d.length ≤ 32) : payloadOk d d.length = true := by
  simp [payloadOk, h]

theorem payloadOk_of_bad_length {d : List Byte} {len : Nat} (h : 32 < len ∨ len ≠ d.length) :
    ¬ payloadOk d len = true := by
  simp only [payloadOk, decide_eq_true_eq]
  omega

theorem pipeOf_of_le {pipe : Byte} {p : Fin 6} (h : pipe.toNat = p.val) : pipeOf pipe = some p :=
  (dif_pos (by omega)).trans (congrArg some (Fin.ext h))

theorem pipeOf_of_lt {pipe : Byte} (h : 5 < pipe.toNat) : pipeOf pipe = none := dif_neg (by omega)

/-- The acknowledgement pipe is the low field of the opcode byte (R131, R212). -/
theorem call_wAckPayload_pipe (p : Fin 6) (d : List Byte) :
    (WireCmd.wAckPayload (BitVec.ofNat 3 p.val) d).call = .send2 [BitVec.ofNat 8 (0xA8 + p.val)] d := by
  have hbyte : ∀ p : Fin 6, (0xA8 : Byte) + (BitVec.ofNat 3 p.val).setWidth 8 = BitVec.ofNat 8 (0xA8 + p.val) := by
    decide
  rw [call_wAckPayload, hbyte]

/-! ### The operations on a bound instance -/

section Bound

variable {s : State} {d : List Byte} {len : Nat} {pipe : Byte} {p : Fin 6} (hb : s.bound = true)
include hb

/-- A query is the read of `FIFO_STATUS`, answered from its byte (R210, R211, R216, R217). -/
theorem fifoQuery_of_bound (q : Byte → Bool) :
    fifoQuery q s = .next (respond .ok (.flag (q (byteOf (.xfer [0x17] 1) s))) (transact (.xfer [0x17] 1) s)) :=
  whenBound_true hb _

theorem refuses_txWrite_badOperand (h : 32 < len ∨ len ≠ d.length) : Refuses (.txWrite d len) s .badOperand :=
  (whenBound_true hb _).trans (if_neg (payloadOk_of_bad_length h))

theorem refuses_txWrite_noRole (hd : d.length ≤ 32) (hr : s.role = none) :
    Refuses (.txWrite d d.length) s .noValue :=
  (whenBound_true hb _).trans ((if_pos (payloadOk_length hd)).trans (by simp [hr, reject, answer]))

theorem refuses_txWrite_noPipe (hd : d.length ≤ 32) (hr : s.role = some .prx) (hp : s.ackPipe = none) :
    Refuses (.txWrite d d.length) s .noValue :=
  (whenBound_true hb _).trans ((if_pos (payloadOk_length hd)).trans (by simp [hr, hp, reject, answer]))

theorem isOneCall_txWrite_ptx (hd : d.length ≤ 32) (hr : s.role = some .ptx) :
    IsOneCall (.txWrite d d.length) (.send2 [0xA0] d) s :=
  isOneCall_of_exec_eq_single hb (by simp [exec, execTxWrite, payloadOk_length hd, hr, WireCmd.call])

theorem isOneCall_txWrite_prx (hd : d.length ≤ 32) (hr : s.role = some .prx) (hp : s.ackPipe = some p) :
    IsOneCall (.txWrite d d.length) (.send2 [BitVec.ofNat 8 (0xA8 + p.val)] d) s :=
  isOneCall_of_exec_eq_single hb
    (by simp [exec, execTxWrite, payloadOk_length hd, hr, hp, ← call_wAckPayload_pipe])

theorem refuses_txWriteNoAck_badOperand (h : 32 < len ∨ len ≠ d.length) :
    Refuses (.txWriteNoAck d len) s .badOperand :=
  (whenBound_true hb _).trans (if_neg (payloadOk_of_bad_length h))

theorem refuses_txWriteNoAck_noRole (hd : d.length ≤ 32) (hr : s.role = none) :
    Refuses (.txWriteNoAck d d.length) s .noValue :=
  (whenBound_true hb _).trans ((if_pos (payloadOk_length hd)).trans (by simp [hr, reject, answer]))

theorem refuses_txWriteNoAck_badRole (hd : d.length ≤ 32) (hr : s.role = some .prx) (hp : s.noackInPrx = .reject) :
    Refuses (.txWriteNoAck d d.length) s .badRole :=
  (whenBound_true hb _).trans ((if_pos (payloadOk_length hd)).trans (by simp [hr, hp, reject, answer]))

theorem isOneCall_txWriteNoAck (hd : d.length ≤ 32)
    (hr : s.role = some .ptx ∨ s.role = some .prx ∧ s.noackInPrx = .legacy) :
    IsOneCall (.txWriteNoAck d d.length) (.send2 [0xB0] d) s := by
  refine isOneCall_of_exec_eq_single hb ?_
  rcases hr with hr | ⟨hr, hp⟩
  · simp [exec, execTxWriteNoAck, payloadOk_length hd, hr, WireCmd.call]
  · simp [exec, execTxWriteNoAck, payloadOk_length hd, hr, hp, WireCmd.call]

theorem refuses_setAckPipe (h : 5 < pipe.toNat) : Refuses (.setAckPipe pipe) s .badOperand :=
  (whenBound_true hb _).trans (by simp [pipeOf_of_lt h, reject, answer])

theorem exec_setAckPipe (h : pipe.toNat = p.val) :
    exec (.setAckPipe pipe) s = .next (respond .ok .none { s with ackPipe := some p }) :=
  (whenBound_true hb _).trans (by simp [pipeOf_of_le h, answer])

theorem exec_getAckPipe (h : s.ackPipe = some p) : exec .getAckPipe s = .next (respond .ok (.pipe p) s) :=
  (whenBound_true hb _).trans (by simp [h, answer])

theorem refuses_getAckPipe (h : s.ackPipe = none) : Refuses .getAckPipe s .noValue :=
  (whenBound_true hb _).trans (by simp [h, reject, answer])

/-! #### `rxRead`, by the width delivered (R218) -/

theorem exec_rxRead_noData (hw : (byteOf (.xfer [0x60] 1) s).toNat = 0) :
    exec .rxRead s = .next (respond .noData .none (transact (.xfer [0x60] 1) s)) :=
  (whenBound_true hb _).trans (if_pos hw)

theorem exec_rxRead_stops (hw : 32 < (byteOf (.xfer [0x60] 1) s).toNat) :
    exec .rxRead s = .fault .payloadWidthAbove32 :=
  have hne : (byteOf (.xfer [0x60] 1) s).toNat ≠ 0 := by omega
  (whenBound_true hb _).trans ((if_neg hne).trans (if_pos hw))

/-- With a width from 1 to 32 it is the run of `rxReadCalls`, answered from its second and third transaction. -/
theorem exec_rxRead_received {w : Nat} (hw : (byteOf (.xfer [0x60] 1) s).toNat = w) (h1 : 1 ≤ w) (h32 : w ≤ 32) :
    let s1 := transact (.xfer [0x60] 1) s
    exec .rxRead s = .next (respond (mk (failures (rxReadCalls w) s))
      (.received (reply (.xfer [0x61] w) (transact (.xfer [0x07] 1) s1)).bytes w
        (pipeField (byteOf (.xfer [0x07] 1) s1))) (issueAll (rxReadCalls w) s)) := by
  subst hw
  exact (whenBound_true hb _).trans ((if_neg (Nat.ne_of_gt h1)).trans (if_neg (Nat.not_lt.2 h32)))

end Bound

/-- The failures of the three transactions of `rxRead`, in order (R218, R302). -/
theorem failures_rxReadCalls (w : Nat) (s : State) :
    let s1 := transact (.xfer [0x60] 1) s
    failures (rxReadCalls w) s = cnt (rcOf (.xfer [0x60] 1) s) + cnt (rcOf (.xfer [0x07] 1) s1)
      + cnt (rcOf (.xfer [0x61] w) (transact (.xfer [0x07] 1) s1)) :=
  (Nat.add_assoc ..).symm

/-! ### Which instructions go on -/

/-- The outcome is a next state: neither a fault nor a refusal of the model. -/
def GoesOn (o : Host.Outcome State Fault Refusal) : Prop := ∃ t, o = .next t

theorem GoesOn.ne_fault {o : Host.Outcome State Fault Refusal} (h : GoesOn o) (f : Fault) : o ≠ .fault f := by
  obtain ⟨t, rfl⟩ := h
  simp

theorem GoesOn.ne_refused {o : Host.Outcome State Fault Refusal} (h : GoesOn o) (r : Refusal) : o ≠ .refused r := by
  obtain ⟨t, rfl⟩ := h
  simp

theorem goesOn_answer (r : Result) (o : Output) (s : State) : GoesOn (answer r o s) := ⟨_, rfl⟩

section GoesOn

variable {s : State} {k k' : Host.Outcome State Fault Refusal}

theorem goesOn_ite {b : Prop} [Decidable b] (h : b → GoesOn k) (h' : ¬ b → GoesOn k') :
    GoesOn (if b then k else k') := by
  split
  · exact h ‹_›
  · exact h' ‹_›

theorem goesOn_whenBound (h : s.bound = true → GoesOn k) : GoesOn (whenBound s k) :=
  goesOn_ite h fun _ => goesOn_answer ..

/-- A check of an operand, then the operation (R305). -/
theorem goesOn_checked {b : Prop} [Decidable b] (h : GoesOn k) (r : Reason) :
    GoesOn (if b then k else reject r s) := goesOn_ite (fun _ => h) fun _ => goesOn_answer ..

end GoesOn

theorem goesOn_execRxRead {s : State} (h : ¬ (s.bound = true ∧ 32 < (byteOf (.xfer [0x60] 1) s).toNat)) :
    GoesOn (execRxRead s) :=
  goesOn_whenBound fun hb => goesOn_ite (fun _ => goesOn_answer ..) fun _ =>
    goesOn_ite (fun hw => absurd ⟨hb, hw⟩ h) fun _ => goesOn_answer ..

/-- Whatever the operands and the registers, every branch of the other operations answers; a refusal of the block is an
answer too (R300, R305). -/
theorem exec_goesOn {i : Instr} (hi : i ≠ .rxRead) (s : State) : GoesOn (exec i s) := by
  cases i with
  | rRegister | wRegister | rRxPayload | wTxPayload | flushTx | flushRx | reuseTxPl | wireActivate | rRxPlWid
  | wAckPayload | wTxPayloadNoack | decode => exact goesOn_answer ..
  | reuseTx | activate | txHasSpace | txIsEmpty | rxHasData | rxIsFull | txFlush | rxFlush | statusRead | statusClear
  | statusClearAll | clearTxFail | cfgRead | checkDevice | powerUp | powerDown | radioOn | radioOff =>
    exact goesOn_whenBound fun _ => goesOn_answer ..
  | readRegister | writeRegister | readRegisters | writeRegisters | cfgWriteDirectly | cfgWriteDiff =>
    exact goesOn_whenBound fun _ => goesOn_checked (goesOn_answer ..) _
  | getBits | setBits => exact goesOn_checked (goesOn_answer ..) _
  | deinit => exact goesOn_ite (fun _ => goesOn_answer ..) fun _ => goesOn_answer ..
  | modifyRegisterBits =>
    exact goesOn_whenBound fun _ => goesOn_ite (fun _ => goesOn_answer ..) fun _ =>
      goesOn_ite (fun _ => goesOn_answer ..) fun _ => goesOn_answer ..
  | setAckPipe | getAckPipe | getRole | switchRoleDirectly =>
    refine goesOn_whenBound fun _ => ?_
    split <;> exact goesOn_answer ..
  | txWrite | txWriteNoAck | cfgWrite =>
    refine goesOn_whenBound fun _ => goesOn_checked ?_ _
    split <;> exact goesOn_answer ..
  | init =>
    refine goesOn_ite (fun _ => goesOn_answer ..) fun _ => ?_
    split <;> exact goesOn_answer ..
  | switchRole =>
    refine goesOn_whenBound fun _ => ?_
    split
    · exact goesOn_answer ..
    · exact goesOn_answer ..
    · exact goesOn_ite (fun _ => goesOn_answer ..) fun _ => goesOn_answer ..
  | setup =>
    refine goesOn_whenBound fun _ => ?_
    split
    · exact goesOn_answer ..
    · exact goesOn_ite (fun _ => goesOn_answer ..) fun _ => goesOn_ite (fun _ => goesOn_answer ..) fun _ =>
        goesOn_ite (fun _ => goesOn_answer ..) fun _ => goesOn_answer ..
  | rxRead => exact absurd rfl hi

/-- An instruction goes on, or it is `rxRead` on a bound instance with a width above 32 and stops (R218, U8). -/
theorem exec_goesOn_or_stops (i : Instr) (s : State) : GoesOn (exec i s) ∨
    i = .rxRead ∧ s.bound = true ∧ 32 < (byteOf (.xfer [0x60] 1) s).toNat ∧
      exec i s = .fault .payloadWidthAbove32 := by
  by_cases hi : i = .rxRead
  · subst hi
    by_cases h : s.bound = true ∧ 32 < (byteOf (.xfer [0x60] 1) s).toNat
    · obtain ⟨hb, hw⟩ := h
      exact .inr ⟨rfl, hb, hw, exec_rxRead_stops hb hw⟩
    · exact .inl (goesOn_execRxRead h)
  · exact .inl (exec_goesOn hi s)

/-- Only `setAckPipe`, `init` and `deinit` write the acknowledgement pipe (R33). -/
theorem exec_ackPipe {i : Instr} {s t : State} (hset : ∀ p, i ≠ .setAckPipe p) (hinit : ∀ x, i ≠ .init x)
    (hdeinit : i ≠ .deinit) (h : exec i s = .next t) : t.ackPipe = s.ackPipe := by
  obtain ⟨-, -, -, hwriters, -⟩ := Proofs.instanceRegistersHaveTheirWriters i s t h
  by_contra hne
  rcases hwriters hne with ⟨p, hp⟩ | ⟨x, hx⟩ | hd
  · exact hset p hp
  · exact hinit x hx
  · exact hdeinit hd

end Sys2Proof.Machine

namespace Sys2Proof.Proofs

open Sys2Proof Sys2Proof.Machine Sys2Proof.Claims

/-- Settles O14: all other instructions go on, and `rxRead` goes on but for a width above 32. -/
theorem onlyAWidthAbove32Stops : Obligations.OnlyAWidthAbove32Stops := by
  refine ⟨fun i s f => ⟨fun h => ?_, ?_⟩, fun i s r h => ?_⟩
  · rcases exec_goesOn_or_stops i s with hgo | ⟨hi, hb, hw, hstop⟩
    · exact absurd h (hgo.ne_fault f)
    · exact ⟨hi, Host.Outcome.fault.inj (h.symm.trans hstop), hb, hw⟩
  · rintro ⟨rfl, rfl, hb, hw⟩
    exact exec_rxRead_stops hb hw
  · rcases exec_goesOn_or_stops i s with hgo | ⟨-, -, -, hstop⟩
    · exact hgo.ne_refused r h
    · exact nomatch h.symm.trans hstop

/-- Settles O38: each query is `fifoQuery` with its own bit of the byte. -/
theorem fifoQueriesReadFifoStatus : Obligations.FifoQueriesReadFifoStatus :=
  ⟨needsBinding_of_not_exempt rfl rfl, needsBinding_of_not_exempt rfl rfl, needsBinding_of_not_exempt rfl rfl,
    needsBinding_of_not_exempt rfl rfl, fun _ hb => ⟨fifoQuery_of_bound hb fifoTxHasSpace,
    fifoQuery_of_bound hb fifoTxIsEmpty, fifoQuery_of_bound hb fifoRxHasData, fifoQuery_of_bound hb fifoRxIsFull⟩⟩

/-- Settles O39, by the length, the role and the acknowledgement pipe. -/
theorem txWriteByRole : Obligations.TxWriteByRole := fun _ _ =>
  ⟨needsBinding_of_not_exempt rfl rfl, fun _ hb => ⟨refuses_txWrite_badOperand hb, refuses_txWrite_noRole hb,
    refuses_txWrite_noPipe hb, isOneCall_txWrite_ptx hb, fun _ => isOneCall_txWrite_prx hb⟩⟩

/-- Settles O40, by the length, the role and the parameter. -/
theorem txWriteNoAckByRoleAndPolicy : Obligations.TxWriteNoAckByRoleAndPolicy := fun _ _ =>
  ⟨needsBinding_of_not_exempt rfl rfl, fun _ hb => ⟨refuses_txWriteNoAck_badOperand hb, refuses_txWriteNoAck_noRole hb,
    refuses_txWriteNoAck_badRole hb, isOneCall_txWriteNoAck hb⟩⟩

/-- Settles O41: stickiness is the register's list of writers (O19). -/
theorem ackPipeIsSticky : Obligations.AckPipeIsSticky :=
  ⟨fun _ => ⟨needsBinding_of_not_exempt rfl rfl, needsBinding_of_not_exempt rfl rfl, fun _ hb =>
    ⟨refuses_setAckPipe hb, fun _ => exec_setAckPipe hb, fun _ => exec_getAckPipe hb, refuses_getAckPipe hb⟩⟩,
    fun _ _ _ => exec_ackPipe⟩

/-- Settles O42, by the width delivered. -/
theorem rxReadByTheWidthDelivered : Obligations.RxReadByTheWidthDelivered := by
  refine ⟨needsBinding_of_not_exempt rfl rfl, fun s hb => ⟨exec_rxRead_noData hb, exec_rxRead_stops hb,
    fun h1 h32 => ?_⟩⟩
  rw [exec_rxRead_received hb rfl h1 h32, failures_rxReadCalls]
  rfl

end Sys2Proof.Proofs

/-! PROOFS. The status operations and the Status/Event Decoder (43_status_decoder.md, R230 to R237). -/

namespace Sys2Proof.Machine

open Sys2Proof.Claims

/-! ### The fields of a status byte (R47, R237) -/

section StatusByte

variable {b m v : Byte} {i : Nat}

theorem toNat_pipeField (b : Byte) : (pipeField b).toNat = b.toNat / 2 % 8 := by
  simp [pipeField, Nat.shiftRight_eq_div_pow]

theorem getLsbD_pipeField (hi : i < 3) : (pipeField b).getLsbD i = b.getLsbD (1 + i) := by
  simp [pipeField, hi]

theorem getLsbD_of_and_eq (h : b &&& m = v) (hi : m.getLsbD i = true) : b.getLsbD i = v.getLsbD i := by
  rw [← h, BitVec.getLsbD_and, hi, Bool.and_true]

theorem pipeField_of_fastExit (h : b &&& 0x7E = 0x0E) : pipeField b = 7 := by
  ext i hi
  rw [← BitVec.getLsbD_eq_getElem, ← BitVec.getLsbD_eq_getElem, getLsbD_pipeField hi]
  interval_cases i <;> exact getLsbD_of_and_eq h rfl

end StatusByte

/-! ### The decoder without its fast exit (R236, R237) -/

/-- The event set of a status byte without `MAX_RT`: `TX_SENT` and `HAS_RXDATA`, "independently combinable" (R235). -/
def okEvents (sent received : Bool) : BitVec 3 :=
  (if sent then evTxSent else evNone) ||| (if received then evHasRxData else evNone)

theorem okEvents_bits : ∀ sent received : Bool, (okEvents sent received).getLsbD 0 = sent ∧
    (okEvents sent received).getLsbD 1 = received ∧ (okEvents sent received).getLsbD 2 = false := by decide

theorem okEvents_mem : ∀ sent received : Bool,
    okEvents sent received ∈ ([0, 1, 2, 3, 4] : List (BitVec 3)) := by decide

/-- "The fast exit changes nothing in the value" (R237). -/
theorem decodeStatus_eq (b : Byte) : decodeStatus b =
    if b.getLsbD 4 then evTxFail else okEvents (b.getLsbD 5) (b.getLsbD 6 || decide (b.toNat / 2 % 8 ≤ 5)) := by
  rw [← toNat_pipeField]
  by_cases h : b &&& 0x7E = 0x0E
  · have h4 : b.getLsbD 4 = false := getLsbD_of_and_eq h rfl
    have h5 : b.getLsbD 5 = false := getLsbD_of_and_eq h rfl
    have h6 : b.getLsbD 6 = false := getLsbD_of_and_eq h rfl
    rw [decodeStatus, if_pos h, h4, h5, h6, pipeField_of_fastExit h]
    rfl
  · have hcombine : ∀ sent received : Bool,
        (if received then (if sent then evNone ||| evTxSent else evNone) ||| evHasRxData
          else if sent then evNone ||| evTxSent else evNone) = okEvents sent received := by decide
    rw [decodeStatus, if_neg h]
    exact congrArg (ite _ _) (hcombine _ _)

theorem decodeStatus_of_txFail {b : Byte} (h : b.getLsbD 4 = true) : decodeStatus b = evTxFail :=
  (decodeStatus_eq b).trans (if_pos h)

theorem decodeStatus_of_not_txFail {b : Byte} (h : b.getLsbD 4 = false) :
    decodeStatus b = okEvents (b.getLsbD 5) (b.getLsbD 6 || decide (b.toNat / 2 % 8 ≤ 5)) :=
  (decodeStatus_eq b).trans (if_neg (Bool.eq_false_iff.1 h))

theorem decodeStatus_mem (b : Byte) : decodeStatus b ∈ ([0, 1, 2, 3, 4] : List (BitVec 3)) := by
  cases h : b.getLsbD 4 with
  | true => rw [decodeStatus_of_txFail h]; decide
  | false => rw [decodeStatus_of_not_txFail h]; exact okEvents_mem _ _

theorem exec_decode (b : Byte) (s : State) :
    exec (.decode b) s = .next (respond .ok (.events (decodeStatus b)) s) := rfl

/-! ### The status register on a bound instance (R230) -/

theorem exec_statusRead {s : State} (hb : s.bound = true) : exec .statusRead s =
    .next (respond .ok (.byte (byteOf (.xfer [0x07] 1) s)) (transact (.xfer [0x07] 1) s)) := whenBound_true hb _

end Sys2Proof.Machine

namespace Sys2Proof.Proofs

open Sys2Proof Sys2Proof.Machine Sys2Proof.Claims

/-- Settles O44: the decoder's value is its slow path's. -/
theorem decoderIsTheTableOfSixBits : Obligations.DecoderIsTheTableOfSixBits := fun s b =>
  ⟨decodeStatus b, exec_decode b s, decodeStatus_of_txFail,
    fun h => decodeStatus_of_not_txFail h ▸ okEvents_bits _ _, decodeStatus_mem b, fun h => if_pos h⟩

/-- Settles O43: the read is one transaction, and each clear is a single one under the check of the binding. -/
theorem statusReadAndClears : Obligations.StatusReadAndClears := fun _ =>
  ⟨needsBinding_of_not_exempt rfl rfl, needsBinding_of_not_exempt rfl rfl, needsBinding_of_not_exempt rfl rfl,
    needsBinding_of_not_exempt rfl rfl, fun _ hb => ⟨exec_statusRead hb, isOneCall_of_exec_eq_single hb rfl,
    isOneCall_of_exec_eq_single hb rfl, isOneCall_of_exec_eq_single hb rfl⟩⟩

end Sys2Proof.Proofs

/-! PROOFS. The Role State Machine (44_role_state_machine.md): the two switches and the query (R251 to R253), and that the
other operations but `txWrite` and `txWriteNoAck` work the same under every role (R32, R254). -/

namespace Sys2Proof.Machine

open Sys2Proof.Claims

/-! ### The operand (R61, R139) -/

theorem roleOf_of_lt {b : Byte} (h : 1 < b.toNat) : roleOf b = none := by
  have h0 : b ≠ 0 := by rintro rfl; exact absurd h (by decide)
  have h1 : b ≠ 1 := by rintro rfl; exact absurd h (by decide)
  rw [roleOf, if_neg h0, if_neg h1]

theorem roleOf_of_le {b : Byte} (h : b.toNat ≤ 1) : ∃ r, roleOf b = some r := by
  have hcases : b = 0 ∨ b = 1 := by bv_omega
  rcases hcases with rfl | rfl
  · exact ⟨.ptx, rfl⟩
  · exact ⟨.prx, rfl⟩

/-! ### The operations on a bound instance -/

section BoundRole

variable {s : State} {b : Byte} {r old : Role} (hb : s.bound = true)
include hb

theorem refuses_switches_badOperand (h : 1 < b.toNat) :
    Refuses (.switchRole b) s .badOperand ∧ Refuses (.switchRoleDirectly b) s .badOperand := by
  have hno := roleOf_of_lt h
  exact ⟨(whenBound_true hb _).trans (by simp [hno, reject, answer]),
    (whenBound_true hb _).trans (by simp [hno, reject, answer])⟩

theorem refuses_switches_noValue (h : b.toNat ≤ 1) (hr : s.role = none) :
    Refuses (.switchRole b) s .noValue ∧ Refuses (.switchRoleDirectly b) s .noValue := by
  obtain ⟨r, hrole⟩ := roleOf_of_le h
  exact ⟨(whenBound_true hb _).trans (by simp [hrole, hr, reject, answer]),
    (whenBound_true hb _).trans (by simp [hrole, hr, reject, answer])⟩

theorem exec_switchRole_same (hr : s.role = some r) :
    exec (.switchRole (roleCode r)) s = .next (respond .ok .none s) :=
  (whenBound_true hb _).trans (by simp [roleOf_roleCode, hr, answer])

theorem exec_switchRole_other (hr : s.role = some old) (hne : r ≠ old) :
    let s1 := issueAll softClearCalls { s with role := some r }
    exec (.switchRole (roleCode r)) s = .next (respond
      (mk (failures softClearCalls { s with role := some r } + roleBitFailures r s1)) .none (writeRoleBit r s1)) :=
  (whenBound_true hb _).trans (by simp [roleOf_roleCode, hr, hne, answer])

theorem exec_switchRoleDirectly (hr : s.role = some old) :
    exec (.switchRoleDirectly (roleCode r)) s = .next (respond
      (mk (roleBitFailures r { s with role := some r })) .none (writeRoleBit r { s with role := some r })) :=
  (whenBound_true hb _).trans (by simp [roleOf_roleCode, hr, answer])

theorem exec_getRole (hr : s.role = some r) : exec .getRole s = .next (respond .ok (.role r) s) :=
  (whenBound_true hb _).trans (by simp [hr, answer])

theorem refuses_getRole (hr : s.role = none) : Refuses .getRole s .noValue :=
  (whenBound_true hb _).trans (by simp [hr, reject, answer])

end BoundRole

/-! ### Under another role (R254)

No shared operation looks at the role, and each hands it on; so the operations built from them do the same under every
role. -/

/-- The state with another role stored. -/
def withRole (r : Option Role) (s : State) : State := { s with role := r }

section WithRole

variable (r : Option Role) (c : Call) (cs : List Call) (s : State)

@[simp] theorem withRole_history : (withRole r s).history = s.history := rfl
@[simp] theorem reply_withRole : reply c (withRole r s) = reply c s := rfl
@[simp] theorem transact_withRole : transact c (withRole r s) = withRole r (transact c s) := rfl
@[simp] theorem failed_withRole : failed c (withRole r s) = failed c s := rfl
@[simp] theorem firstByte_withRole : firstByte c (withRole r s) = firstByte c s := rfl
@[simp] theorem withRole_ackPipe : (withRole r s).ackPipe = s.ackPipe := rfl
@[simp] theorem withRole_radioEnabled : (withRole r s).radioEnabled = s.radioEnabled := rfl
@[simp] theorem driveCe_withRole (b : Bool) : driveCe b (withRole r s) = withRole r (driveCe b s) := rfl

@[simp] theorem issueAll_withRole : issueAll cs (withRole r s) = withRole r (issueAll cs s) := by
  induction cs generalizing s with
  | nil => rfl
  | cons c cs ih => exact ih (transact c s)

@[simp] theorem failures_withRole : failures cs (withRole r s) = failures cs s := by
  induction cs generalizing s with
  | nil => rfl
  | cons c cs ih => exact congrArg (failed c s + ·) (ih (transact c s))

@[simp] theorem delivered_withRole : delivered cs (withRole r s) = delivered cs s := by
  induction cs generalizing s with
  | nil => rfl
  | cons c cs ih => exact congrArg ((reply c s).bytes :: ·) (ih (transact c s))

@[simp] theorem modifyBits_withRole (a : BitVec 5) (m v : Byte) :
    modifyBits a m v (withRole r s) = withRole r (modifyBits a m v s) := by
  unfold modifyBits
  rw [reply_withRole]
  split <;> rfl

@[simp] theorem modifyFailures_withRole (a : BitVec 5) (m v : Byte) :
    modifyFailures a m v (withRole r s) = modifyFailures a m v s := rfl

@[simp] theorem writePower_withRole (v : Byte) : writePower v (withRole r s) = withRole r (writePower v s) :=
  modifyBits_withRole ..

@[simp] theorem powerFailures_withRole (v : Byte) : powerFailures v (withRole r s) = powerFailures v s := rfl

@[simp] theorem checkState_withRole : checkState (withRole r s) = withRole r (checkState s) := issueAll_withRole ..

@[simp] theorem checkResult_withRole : checkResult (withRole r s) = checkResult s := rfl

/-! `setup` stores its own role before the first step that could tell (R282). -/

@[simp] theorem setupNamed_withRole (new : Role) (cfg : RadioConfig) (tbl : List (Byte × Byte)) :
    setupNamed new cfg tbl (withRole r s) = setupNamed new cfg tbl s := by
  simp only [setupNamed, setupWritten, setupOff, writePower_withRole, driveCe_withRole, issueAll_withRole]
  rfl

@[simp] theorem setupEnd_withRole (new : Role) (cfg : RadioConfig) (tbl : List (Byte × Byte)) :
    setupEnd new cfg tbl (withRole r s) = setupEnd new cfg tbl s := by
  simp only [setupEnd, setupRoled, setupNamed_withRole]

@[simp] theorem setupFailures_withRole (new : Role) (cfg : RadioConfig) (tbl : List (Byte × Byte)) :
    setupFailures new cfg tbl (withRole r s) = setupFailures new cfg tbl s := by
  simp only [setupFailures, setupOff, setupRoled, setupNamed_withRole, powerFailures_withRole, writePower_withRole,
    driveCe_withRole, failures_withRole]

end WithRole

/-! ### What the outside sees of an operation under another role -/

section Seen

variable {s t t' : State} {r : Option Role} {k k' l l' : Host.Outcome State Fault Refusal}

/-- The outside sees of an answer its result, its output and the history. -/
theorem seen_answer_congr {x x' : Result} {o o' : Output} (hx : x' = x) (ho : o' = o) (ht : t'.history = t.history) :
    seen (answer x' o' t') = seen (answer x o t) := by
  simp [seen, answer, hx, ho, ht]

theorem seen_reject_withRole (e : Reason) : seen (reject e (withRole r s)) = seen (reject e s) := rfl

theorem seen_single_withRole (c : Call) : seen (single c (withRole r s)) = seen (single c s) := rfl

theorem seen_wireStep_withRole (d : WireCmd) : seen (wireStep d (withRole r s)) = seen (wireStep d s) := rfl

theorem seen_ite_congr {b : Prop} [Decidable b] (hk : b → seen k' = seen k) (hl : ¬ b → seen l' = seen l) :
    seen (if b then k' else l') = seen (if b then k else l) := by
  split
  · exact hk ‹_›
  · exact hl ‹_›

theorem seen_whenBound_withRole (hk : seen k' = seen k) :
    seen (whenBound (withRole r s) k') = seen (whenBound s k) :=
  seen_ite_congr (fun _ => hk) fun _ => seen_reject_withRole _

/-- A check of an operand, then the operation (R305). -/
theorem seen_checked_withRole {b : Prop} [Decidable b] (hk : b → seen k' = seen k) (e : Reason) :
    seen (if b then k' else reject e (withRole r s)) = seen (if b then k else reject e s) :=
  seen_ite_congr hk fun _ => seen_reject_withRole e

theorem seen_fifoQuery_withRole (q : Byte → Bool) : seen (fifoQuery q (withRole r s)) = seen (fifoQuery q s) :=
  seen_whenBound_withRole rfl

theorem seen_execRxRead_withRole : seen (execRxRead (withRole r s)) = seen (execRxRead s) :=
  seen_whenBound_withRole (seen_ite_congr (fun _ => rfl) fun _ => seen_ite_congr (fun _ => rfl) fun _ =>
    seen_answer_congr (by simp) rfl (by simp))

theorem seen_execCfgWrite_withRole (c : RadioConfig) :
    seen (execCfgWrite c (withRole r s)) = seen (execCfgWrite c s) := by
  refine seen_whenBound_withRole (seen_checked_withRole (fun _ => ?_) _)
  rw [withRole_radioEnabled]
  split
  · exact seen_reject_withRole _
  · exact seen_answer_congr (by simp) rfl (by simp)
  · exact seen_answer_congr (by simp) rfl (by simp)

theorem seen_execInit_withRole (x : Transport) : seen (execInit x (withRole r s)) = seen (execInit x s) := by
  refine seen_ite_congr (fun _ => seen_reject_withRole _) fun _ => ?_
  have hinit : initRc x (withRole r s) = initRc x s := rfl
  rw [hinit]
  split <;> rfl

theorem seen_execSetup_withRole (b : Byte) (c : Option RadioConfig) (l : Option (List (Byte × Byte))) :
    seen (execSetup b c l (withRole r s)) = seen (execSetup b c l s) := by
  refine seen_whenBound_withRole ?_
  split
  · exact seen_reject_withRole _
  · refine seen_ite_congr (fun _ => seen_reject_withRole _) fun _ => seen_ite_congr (fun _ => seen_reject_withRole _)
      fun _ => ?_
    simp only [checkResult_withRole, checkState_withRole, setupFailures_withRole, setupEnd_withRole]
    exact seen_ite_congr (fun _ => rfl) fun _ => rfl

theorem seen_execDeinit_withRole : seen (execDeinit (withRole r s)) = seen (execDeinit s) :=
  seen_ite_congr (fun _ => seen_answer_congr (by simp) rfl (by simp [release])) fun _ => rfl

/-- But for the five readers of R32, the outside sees the same whatever the role was. -/
theorem seen_exec_withRole {i : Instr} (hwrite : ∀ d n, i ≠ .txWrite d n) (hnoack : ∀ d n, i ≠ .txWriteNoAck d n)
    (hswitch : ∀ b, i ≠ .switchRole b) (hdirect : ∀ b, i ≠ .switchRoleDirectly b) (hget : i ≠ .getRole)
    (r : Option Role) (s : State) : seen (exec i (withRole r s)) = seen (exec i s) := by
  cases i with
  | txWrite d n => exact absurd rfl (hwrite d n)
  | txWriteNoAck d n => exact absurd rfl (hnoack d n)
  | switchRole b => exact absurd rfl (hswitch b)
  | switchRoleDirectly b => exact absurd rfl (hdirect b)
  | getRole => exact absurd rfl hget
  | rRegister | wRegister | rRxPayload | wTxPayload | flushTx | flushRx | reuseTxPl | wireActivate | rRxPlWid
  | wAckPayload | wTxPayloadNoack => exact seen_wireStep_withRole _
  | decode => rfl
  | getBits | setBits => exact seen_ite_congr (fun _ => rfl) fun _ => rfl
  | readRegister | readRegisters => exact seen_whenBound_withRole (seen_ite_congr (fun _ => rfl) fun _ => rfl)
  | writeRegister | writeRegisters =>
    exact seen_whenBound_withRole (seen_checked_withRole (fun _ => seen_single_withRole _) _)
  | modifyRegisterBits =>
    exact seen_whenBound_withRole (seen_ite_congr (fun _ => rfl) fun _ => seen_ite_congr (fun _ => rfl) fun _ =>
      seen_answer_congr (by simp) rfl (by simp))
  | reuseTx | activate | txFlush | rxFlush | statusClear | statusClearAll | clearTxFail =>
    exact seen_whenBound_withRole (seen_single_withRole _)
  | txHasSpace | txIsEmpty | rxHasData | rxIsFull => exact seen_fifoQuery_withRole _
  | statusRead | radioOn | radioOff => exact seen_whenBound_withRole rfl
  | setAckPipe =>
    refine seen_whenBound_withRole ?_
    split <;> rfl
  | getAckPipe =>
    refine seen_whenBound_withRole ?_
    rw [withRole_ackPipe]
    split <;> rfl
  | rxRead => exact seen_execRxRead_withRole
  | cfgWriteDirectly | cfgWriteDiff =>
    exact seen_whenBound_withRole (seen_checked_withRole (fun _ => seen_answer_congr (by simp) rfl (by simp)) _)
  | cfgRead => exact seen_whenBound_withRole (seen_answer_congr (by simp) (by simp) (by simp))
  | cfgWrite c => exact seen_execCfgWrite_withRole c
  | init x => exact seen_execInit_withRole x
  | checkDevice => exact seen_whenBound_withRole (seen_answer_congr (by simp) rfl (by simp))
  | setup b c l => exact seen_execSetup_withRole b c l
  | deinit => exact seen_execDeinit_withRole
  | powerUp | powerDown => exact seen_whenBound_withRole (seen_answer_congr (by simp) rfl (by simp))

end Seen

end Sys2Proof.Machine

namespace Sys2Proof.Proofs

open Sys2Proof Sys2Proof.Machine Sys2Proof.Claims

/-- Settles O45, by the operand, then the stored role. -/
theorem switchRoleClearsThenSetsTheBit : Obligations.SwitchRoleClearsThenSetsTheBit := by
  refine fun b => ⟨needsBinding_of_not_exempt rfl rfl, fun s hb => ⟨fun h => (refuses_switches_badOperand hb h).1,
    fun h hr => (refuses_switches_noValue hb h hr).1, fun r hcode hr => ?same, fun r old hcode hr hne => ?other⟩⟩
  case same =>
    rw [hcode, ← roleCode_eq]
    exact exec_switchRole_same hb hr
  case other =>
    rw [hcode, ← roleCode_eq]
    exact exec_switchRole_other hb hr hne

/-- Settles O46, by the operand, then the stored role. -/
theorem directSwitchAndRoleQuery : Obligations.DirectSwitchAndRoleQuery := by
  refine fun b => ⟨needsBinding_of_not_exempt rfl rfl, needsBinding_of_not_exempt rfl rfl, fun s hb =>
    ⟨fun h => (refuses_switches_badOperand hb h).2, fun h hr => (refuses_switches_noValue hb h hr).2,
    refuses_getRole hb, fun r old hcode hr => ?direct, fun r => exec_getRole hb⟩⟩
  case direct =>
    rw [hcode, ← roleCode_eq]
    exact exec_switchRoleDirectly hb hr

/-- Settles O20: under either role the outside sees what it sees under the role of `s`. -/
theorem roleMattersOnlyToItsReaders : Obligations.RoleMattersOnlyToItsReaders :=
  fun _ s r₁ r₂ hwrite hnoack hswitch hdirect hget =>
    (seen_exec_withRole hwrite hnoack hswitch hdirect hget r₁ s).trans
      (seen_exec_withRole hwrite hnoack hswitch hdirect hget r₂ s).symm

end Sys2Proof.Proofs

/-! PROOFS. The User Configuration Model (45_configuration_model.md): the frames of its writes and reads, in bytes (R260 to
R266, R271), the operations on a bound instance (R267 to R273), and the round trip on a quiet RefChip (R272). -/

namespace Sys2Proof.Machine

open Sys2Proof.Claims

/-! ### The frames in bytes (R260 to R266, R268, R271) -/

/-- The write of a governed register, written out in bytes (R260 to R266). -/
def Governed.frame (g : Governed) (c : RadioConfig) : Call :=
  match g with
  | .rfSetup => .send2 [0x26] [rfSetupByte c]
  | .rfCh => .send2 [0x25] [c.channel]
  | .enRxaddr => .send2 [0x22] [pipeFlags PipeConfig.enabled c]
  | .enAa => .send2 [0x21] [pipeFlags PipeConfig.autoAck c]
  | .txAddr => .send2 [0x30] c.txAddr
  | .rxAddrP0 => .send2 [0x2A] c.pipe0.addr
  | .rxAddrP1 => .send2 [0x2B] c.pipe1.addr
  | .rxAddrP2 => .send2 [0x2C] c.pipe2.addr
  | .rxAddrP3 => .send2 [0x2D] c.pipe3.addr
  | .rxAddrP4 => .send2 [0x2E] c.pipe4.addr
  | .rxAddrP5 => .send2 [0x2F] c.pipe5.addr

/-- A filtered run of writes, one possible frame for each register. -/
theorem map_filter_eq_flatMap (gs : List Governed) (p : Governed → Bool) (f : Governed → Call) :
    (gs.filter p).map f = gs.flatMap fun g => whenDiffers (p g) (f g) := by
  induction gs with
  | nil => rfl
  | cons g gs ih => cases hp : p g <;> simp [hp, ih, whenDiffers]

section Frames

variable {o c : RadioConfig}

/-- A well-formed configuration writes a one-byte address as it stands. -/
theorem writeCall_eq_frame (h : ConfigWellFormed c) (g : Governed) : g.writeCall c = g.frame c := by
  obtain ⟨-, -, -, -, -, h2, h3, h4, h5⟩ := h
  have hcall (a : BitVec 5) {l : List Byte} (hl : l.length = 1) :
      (WireCmd.wRegister a [l.headD 0]).call = (WireCmd.wRegister a l).call := by rw [singleton_headD hl]
  cases g with
  | rfSetup => exact congrArg (fun b => Call.send2 [0x26] [b]) (encRfSetup_eq c)
  | rxAddrP2 => exact hcall _ h2
  | rxAddrP3 => exact hcall _ h3
  | rxAddrP4 => exact hcall _ h4
  | rxAddrP5 => exact hcall _ h5
  | rfCh | enRxaddr | enAa | txAddr | rxAddrP0 | rxAddrP1 => rfl

theorem configCalls_eq_configFrames (h : ConfigWellFormed c) : configCalls c = configFrames c :=
  List.map_congr_left fun g _ => writeCall_eq_frame h g

/-- Bit `i` of the byte is pipe `i`'s flag (R262, R263). -/
theorem getLsbD_pipeFlags (f : PipeConfig → Bool) (c : RadioConfig) :
    (pipeFlags f c).getLsbD 0 = f c.pipe0 ∧ (pipeFlags f c).getLsbD 1 = f c.pipe1 ∧
      (pipeFlags f c).getLsbD 2 = f c.pipe2 ∧ (pipeFlags f c).getLsbD 3 = f c.pipe3 ∧
      (pipeFlags f c).getLsbD 4 = f c.pipe4 ∧ (pipeFlags f c).getLsbD 5 = f c.pipe5 := by
  unfold pipeFlags
  generalize f c.pipe0 = b0, f c.pipe1 = b1, f c.pipe2 = b2, f c.pipe3 = b3, f c.pipe4 = b4, f c.pipe5 = b5
  revert b0 b1 b2 b3 b4 b5
  decide

/-- The flag bytes differ just when the flag of a pipe does. -/
theorem pipeFlags_bne (f : PipeConfig → Bool) (o c : RadioConfig) :
    (pipeFlags f o != pipeFlags f c) = (f o.pipe0 != f c.pipe0 || f o.pipe1 != f c.pipe1 || f o.pipe2 != f c.pipe2
      || f o.pipe3 != f c.pipe3 || f o.pipe4 != f c.pipe4 || f o.pipe5 != f c.pipe5) := by
  rw [Bool.eq_iff_iff, ← not_iff_not]
  simp only [Bool.or_eq_true, bne_iff_ne, not_or, not_not]
  constructor
  · intro h
    have hbits := getLsbD_pipeFlags f o
    simp only [h, getLsbD_pipeFlags f c] at hbits
    simpa only [and_assoc, eq_comm] using hbits
  · rintro ⟨⟨⟨⟨⟨h0, h1⟩, h2⟩, h3⟩, h4⟩, h5⟩
    simp only [pipeFlags, h0, h1, h2, h3, h4, h5]

theorem diffCalls_eq_diffFrames (h : ConfigWellFormed c) : diffCalls (some o) c = diffFrames o c := by
  simp only [diffCalls, map_filter_eq_flatMap, writeCall_eq_frame h, diffFrames, pipeFlags_bne, List.append_assoc]
  simp only [governedOrder, List.flatMap_cons, List.flatMap_nil, List.append_nil, Governed.differs, Governed.frame]

/-- The writes of `cfgWriteDiff` are some of those of `cfgWriteDirectly`, in the same order (R269). -/
theorem diffCalls_sublist (old : Option RadioConfig) (new : RadioConfig) :
    (diffCalls old new).Sublist (configCalls new) := by
  cases old with
  | none => exact .refl _
  | some o => exact List.filter_sublist.map _

/-- No field of a configuration differs from itself. -/
theorem differs_self (g : Governed) (c : RadioConfig) : g.differs c c = false := by
  cases g <;> simp [Governed.differs]

theorem diffCalls_self (c : RadioConfig) : diffCalls (some c) c = [] := by
  simp [diffCalls, differs_self]

end Frames

/-! ### The operations on a bound instance (R267, R268, R271, R273) -/

theorem configOk_of_not_wellFormed {c : RadioConfig} (h : ¬ ConfigWellFormed c) : ¬ configOk c = true :=
  mt (configOk_iff c).1 h

/-- The check of both operands of `cfgWriteDiff` (R268, R305). -/
theorem diffOk_iff (old : Option RadioConfig) (new : RadioConfig) :
    (old.all configOk && configOk new) = true ↔ ConfigWellFormed new ∧ ∀ o ∈ old, ConfigWellFormed o := by
  rw [Bool.and_eq_true, configOk_iff, and_comm]
  refine and_congr_right fun _ => ?_
  cases old with
  | none => simp
  | some o => simpa using configOk_iff o

section Operations

variable {c new : RadioConfig} {old : Option RadioConfig} {s : State} (hb : s.bound = true)
include hb

theorem exec_cfgWriteDirectly (h : ConfigWellFormed c) :
    exec (.cfgWriteDirectly c) s =
      .next (respond (mk (failures (configFrames c) s)) .none (issueAll (configFrames c) s)) := by
  rw [← configCalls_eq_configFrames h]
  exact (whenBound_true hb _).trans (if_pos ((configOk_iff c).2 h))

theorem refuses_cfgWriteDirectly (h : ¬ ConfigWellFormed c) : Refuses (.cfgWriteDirectly c) s .badOperand :=
  (whenBound_true hb _).trans (if_neg (configOk_of_not_wellFormed h))

theorem exec_cfgWriteDiff (hn : ConfigWellFormed new) (ho : ∀ o ∈ old, ConfigWellFormed o) :
    exec (.cfgWriteDiff old new) s =
      .next (respond (mk (failures (diffCalls old new) s)) .none (issueAll (diffCalls old new) s)) :=
  (whenBound_true hb _).trans (if_pos ((diffOk_iff old new).2 ⟨hn, ho⟩))

theorem refuses_cfgWriteDiff (h : ¬ (ConfigWellFormed new ∧ ∀ o ∈ old, ConfigWellFormed o)) :
    Refuses (.cfgWriteDiff old new) s .badOperand :=
  (whenBound_true hb _).trans (if_neg (mt (diffOk_iff old new).1 h))

theorem exec_cfgRead :
    exec .cfgRead s = .next (respond (mk (failures configReads s)) (.config (decodeConfig (delivered configReads s)))
      (issueAll configReads s)) :=
  whenBound_true hb _

theorem refuses_cfgWrite_badOperand (h : ¬ ConfigWellFormed c) : Refuses (.cfgWrite c) s .badOperand :=
  (whenBound_true hb _).trans (if_neg (configOk_of_not_wellFormed h))

theorem refuses_cfgWrite_noValue (h : ConfigWellFormed c) (hr : s.radioEnabled = none) :
    Refuses (.cfgWrite c) s .noValue :=
  (whenBound_true hb _).trans ((if_pos ((configOk_iff c).2 h)).trans (by simp [hr, reject, answer]))

theorem exec_cfgWrite_off (h : ConfigWellFormed c) (hr : s.radioEnabled = some false) :
    exec (.cfgWrite c) s =
      .next (respond (mk (failures (configFrames c) s)) .none (issueAll (configFrames c) s)) := by
  rw [← configCalls_eq_configFrames h]
  exact (whenBound_true hb _).trans ((if_pos ((configOk_iff c).2 h)).trans (by simp [hr, answer]))

theorem exec_cfgWrite_on (h : ConfigWellFormed c) (hr : s.radioEnabled = some true) :
    exec (.cfgWrite c) s = .next (respond (mk (failures (configFrames c) (driveCe false s))) .none
      (driveCe true (issueAll (configFrames c) (driveCe false s)))) := by
  rw [← configCalls_eq_configFrames h]
  exact (whenBound_true hb _).trans ((if_pos ((configOk_iff c).2 h)).trans (by simp [hr, answer]))

end Operations

/-! ### The inverse mapping (R270) -/

section Inverse

variable {c : RadioConfig}

/-- The rate and the power stand in their own fields of `RF_SETUP` (R46, R260). -/
theorem rfSetupByte_fields (h : c.power.toNat ≤ 3) :
    (if (rfSetupByte c).getLsbD 3 then Rate.r2M else Rate.r1M) = c.rate ∧ (rfSetupByte c >>> 1) &&& 0x03 = c.power := by
  have hall : ∀ (r : Bool) (p : Byte), p.toNat ≤ 3 →
      ((if r then 0x08 else 0x00 : Byte) ||| (p <<< 1)).getLsbD 3 = r ∧
        (((if r then 0x08 else 0x00 : Byte) ||| (p <<< 1)) >>> 1) &&& 0x03 = p := by decide
  unfold rfSetupByte
  cases c.rate with
  | r1M => simpa using hall false c.power h
  | r2M => simpa using hall true c.power h

/-- The seven bits read back hold every admitted channel. -/
theorem channel_and_mask : ∀ b : Byte, b.toNat ≤ 125 → b &&& 0x7F = b := by decide

/-- What the inverse mapping makes of a well-formed configuration's own register bytes. -/
theorem decodeConfig_bytes (h : ConfigWellFormed c) : decodeConfig (governedOrder.map fun g => g.bytes c) = c := by
  obtain ⟨hch, hpow, -, -, -, h2, h3, h4, h5⟩ := h
  obtain ⟨hrate, hpower⟩ := rfSetupByte_fields hpow
  simp only [decodeConfig, governedOrder, List.map_cons, List.map_nil, Governed.bytes, encRfSetup_eq, encEnRxaddr_eq,
    encEnAa_eq, encRfCh, List.getD_cons_zero, List.getD_cons_succ, List.headD_cons, singleton_headD, h2, h3, h4, h5,
    hrate, hpower, channel_and_mask _ hch, getLsbD_pipeFlags]

end Inverse

/-! ### The round trip on a quiet RefChip (R272) -/

section RoundTrip

variable {s : State} {c : RadioConfig} {chip : RefChip}

theorem reply_readCall_quiet (hq : QuietRefChip s) (g : Governed) :
    reply g.readCall s = ⟨s.chip, .ok, s.chip.readReg g.addr g.width⟩ :=
  reply_quiet hq (d := .rRegister g.addr g.width) (by cases g <;> rfl)

/-- A run of reads leaves the chip and delivers what stands in the registers. -/
theorem reads_quiet (hq : QuietRefChip s) (gs : List Governed) :
    (issueAll (gs.map Governed.readCall) s).chip = s.chip ∧
      delivered (gs.map Governed.readCall) s = gs.map fun g => s.chip.readReg g.addr g.width := by
  induction gs generalizing s with
  | nil => exact ⟨rfl, rfl⟩
  | cons g gs ih =>
    have hchip : (transact g.readCall s).chip = s.chip := by rw [transact_chip, reply_readCall_quiet hq]
    obtain ⟨hlast, hbytes⟩ := ih (quiet_transact hq g.readCall)
    rw [hchip] at hlast hbytes
    refine ⟨hlast, ?_⟩
    rw [List.map_cons, delivered_cons, hbytes, reply_readCall_quiet hq]
    rfl

theorem issueAll_configCalls_chip (hq : QuietRefChip s) (hcfg : configOk c = true) :
    (issueAll (configCalls c) s).chip = writeAll s.chip (configWrites c) := by
  rw [configCalls_eq]
  refine issueAll_writeCalls_chip hq fun w hw => ?_
  rcases configWrites_length hcfg w hw with h | h <;> simp [countOk, h]

/-- A governed register reads as the bytes the configuration has written there. -/
theorem readReg_config (hc : chip.Sound) (hcfg : configOk c = true) (g : Governed) :
    (writeAll chip (configWrites c)).readReg g.addr g.width = g.bytes c := by
  have hkind := regKind_governed g
  have hlen := governed_bytes_length hcfg g
  rcases governed_width g with hw | hw <;> rw [hw] at hkind hlen ⊢
  · rw [readReg_one hkind, regByte_config hc hcfg hw, singleton_headD hlen]
  · rw [readReg_five hkind, regFive_config hc hcfg hw]

end RoundTrip

end Sys2Proof.Machine

namespace Sys2Proof.Proofs

open Sys2Proof Sys2Proof.Machine Sys2Proof.Claims

/-- Settles O47: the check of the operand decides, and the model's writes are the 11 frames. -/
theorem writeDirectlyIssuesTheElevenWrites : Obligations.WriteDirectlyIssuesTheElevenWrites := fun _ =>
  ⟨needsBinding_of_not_exempt rfl rfl, fun _ hb => ⟨refuses_cfgWriteDirectly hb, exec_cfgWriteDirectly hb⟩⟩

/-- Settles O48, by whether there is an old configuration. -/
theorem writeDiffIssuesWhatDiffers : Obligations.WriteDiffIssuesWhatDiffers := by
  refine fun old new => ⟨needsBinding_of_not_exempt rfl rfl, fun s hb => ⟨refuses_cfgWriteDiff hb, fun hn ho => ?_⟩⟩
  have hexec := exec_cfgWriteDiff hb hn ho
  cases old with
  | none => rwa [diffCalls, configCalls_eq_configFrames hn] at hexec
  | some o => rwa [diffCalls_eq_diffFrames hn] at hexec

/-- Settles O49: the difference write issues a filtered list of the same frames, and nothing differs from itself. -/
theorem writeDiffLaws : Obligations.WriteDiffLaws := by
  refine ⟨fun old new s hb hn ho => ⟨exec_cfgWriteDirectly hb hn, diffCalls old new, ?sublist,
    exec_cfgWriteDiff hb hn ho⟩, fun c s hb hc => ?self, fun _ _ => rfl⟩
  case sublist =>
    rw [← configCalls_eq_configFrames hn]
    exact diffCalls_sublist old new
  case self =>
    have hexec := exec_cfgWriteDiff (old := some c) hb hc (by simpa using hc)
    rwa [diffCalls_self] at hexec

/-- Settles O50: the model's inverse mapping is the one written out. -/
theorem configReadInvertsTheMapping : Obligations.ConfigReadInvertsTheMapping :=
  ⟨needsBinding_of_not_exempt rfl rfl, fun _ hb => exec_cfgRead hb⟩

/-- Settles O51, by the operand, then the radio flag. -/
theorem configWriteBracketsTheRadio : Obligations.ConfigWriteBracketsTheRadio := fun _ =>
  ⟨needsBinding_of_not_exempt rfl rfl, fun _ hb => ⟨refuses_cfgWrite_badOperand hb, refuses_cfgWrite_noValue hb,
    exec_cfgWrite_off hb, exec_cfgWrite_on hb⟩⟩

/-- Settles O52: no command fails on a quiet RefChip, each governed register reads as the bytes written there, and the
inverse mapping takes these bytes back to the configuration. -/
theorem configurationRoundTrip : Obligations.ConfigurationRoundTrip := by
  intro c s hc hb hq
  have hcfg := (configOk_iff c).2 hc
  let t := respond (mk (failures (configFrames c) s)) .none (issueAll (configFrames c) s)
  have hqt : QuietRefChip t := quiet_issueAll hq (configFrames c)
  have hchip : t.chip = writeAll s.chip (configWrites c) := by
    rw [← issueAll_configCalls_chip hq hcfg, configCalls_eq_configFrames hc]
    rfl
  have hwrites : failures (configFrames c) s = 0 := by
    rw [← configCalls_eq_configFrames hc]
    exact failures_quiet hq fun _ => isCommand_configCall hcfg
  have hreads : failures configReads t = 0 := failures_quiet hqt fun _ => isCommand_readConfigCall
  obtain ⟨hkept, hbytes⟩ := reads_quiet hqt governedOrder
  have hdelivered : delivered configReads t = governedOrder.map fun g => g.bytes c := by
    refine hbytes.trans (List.map_congr_left fun g _ => ?_)
    rw [hchip, readReg_config (quiet_sound hq) hcfg]
  refine ⟨t, _, exec_cfgWriteDirectly hb hc, ?written, exec_cfgRead ?bound, ?read, hkept⟩
  case written =>
    simp only [t, respond_response, hwrites]
    rfl
  case bound => exact (issueAll_bound _ s).trans hb
  case read =>
    rw [respond_response, hreads, hdelivered, decodeConfig_bytes hc]
    rfl

end Sys2Proof.Proofs

/-! PROOFS. The Device Lifecycle (46_device_lifecycle.md) but for `setup`: `init` (R280), `checkDevice` with its frames in
bytes (R281), `deinit` (R283), and the power and radio control (R284 to R287). -/

namespace Sys2Proof.Machine

open Sys2Proof.Claims

/-! ### What `T.init()` does (R38, R92, R106 to R109) -/

section Init

variable {x : Transport} {s : State} {i : EnvInput} {rest : List EnvInput}

theorem initRc_cons (hi : s.inputs = i :: rest) (hx : x = .blackBox ∨ x = .refChip) : initRc x s = i.rc := by
  rcases hx with rfl | rfl <;> simp [initRc, hi]

theorem initRc_ok (hx : x = .absent0 ∨ x = .absentF ∨ x = .refChip ∧ s.inputs = []) : initRc x s = .ok := by
  rcases hx with rfl | rfl | ⟨rfl, hi⟩
  · rfl
  · rfl
  · simp [initRc, hi, EnvInput.quiet]

theorem initPin_cons (hi : s.inputs = i :: rest) : initPin x s = i.pin.getD s.ce := by simp [initPin, hi]

theorem initPin_nil (hi : s.inputs = []) (hx : x ≠ .blackBox) : initPin x s = s.ce := by
  cases x with
  | blackBox => exact absurd rfl hx
  | _ => simp [initPin, hi]

theorem initChip_refChip_cons (hi : s.inputs = i :: rest) : initChip .refChip s = s.chip.radios i.events := by
  simp [initChip, hi]

theorem initChip_unchanged (h : x ≠ .refChip ∨ s.inputs = []) : initChip x s = s.chip := by
  cases x with
  | refChip => simp [initChip, h.resolve_left (not_not.2 rfl), EnvInput.quiet, RefChip.radios]
  | _ => rfl

theorem refuses_init (hb : s.bound = true) : Refuses (.init x) s .alreadyBound := if_pos hb

theorem exec_init_fail (hb : s.bound = false) (hrc : initRc x s = .fail) :
    exec (.init x) s = .next (respond (.transport 1) .none (transportInit x s)) := by
  simp [exec, execInit, hb, hrc, answer]

theorem exec_init_ok (hb : s.bound = false) (hrc : initRc x s = .ok) :
    exec (.init x) s =
      .next (respond .ok .none { transportInit x s with bound := true, ackPipe := some 0, transport := x }) := by
  simp [exec, execInit, hb, hrc, answer]

end Init

/-! ### The identity check in bytes (R281) -/

section CheckFrames

variable (s : State)

theorem perturb_eq_range (bk : List Byte) :
    perturb bk = (List.range bk.length).map fun k => bk.getD k 0 + BitVec.ofNat 8 k := by
  refine List.ext_getElem (by simp [perturb]) fun k hk _ => ?_
  have hlt : k < bk.length := by simpa [perturb] using hk
  simp [perturb, hlt]

theorem perturb_backup_eq_perturbed : perturb (backup s) = perturbed s := by
  rw [perturb_eq_range, backup_length]
  rfl

theorem checkCalls_eq_checkFrames : checkCalls s = checkFrames s := by
  rw [checkCalls, perturb_backup_eq_perturbed]
  rfl

theorem readBack_eq_readBackOf : readBack s = readBackOf s := by
  rw [readBack, perturb_backup_eq_perturbed]
  rfl

theorem checkState_eq_checkFrames : checkState s = issueAll (checkFrames s) s := by
  rw [checkState, checkCalls_eq_checkFrames]

theorem checkResult_eq_checkOutcome : checkResult s = checkOutcome s := by
  rw [checkResult, readBack_eq_readBackOf, perturb_backup_eq_perturbed, checkCalls_eq_checkFrames]
  rfl

end CheckFrames

theorem exec_checkDevice {s : State} (hb : s.bound = true) :
    exec .checkDevice s = .next (respond (checkResult s) .none (checkState s)) := whenBound_true hb _

/-! ### The identity check on an absent device (R109, R281) -/

section Absent

variable {s : State} {b : Byte}

/-- The transport is a device that leaves the chip alone and answers every read with one byte value (R109). -/
def Absent (b : Byte) (s : State) : Prop := s.transport = .absent0 ∧ b = 0x00 ∨ s.transport = .absentF ∧ b = 0xFF

theorem reply_absent (h : Absent b s) (c : Call) : reply c s = ⟨s.chip, .ok, List.replicate (readLen c) b⟩ := by
  rcases h with ⟨ht, rfl⟩ | ⟨ht, rfl⟩
  · exact reply_absent0 ht
  · exact reply_absentF ht

theorem absent_issueAll (h : Absent b s) (cs : List Call) : Absent b (issueAll cs s) := by
  unfold Absent
  rwa [issueAll_transport]

theorem issueAll_chip_absent (h : Absent b s) (cs : List Call) : (issueAll cs s).chip = s.chip := by
  induction cs generalizing s with
  | nil => rfl
  | cons c cs ih =>
    have hchip : (transact c s).chip = s.chip := by rw [transact_chip, reply_absent h]
    exact (ih (s := transact c s) h).trans hchip

/-- The read-back is five equal bytes, which the perturbed address never is. -/
theorem checkResult_absent (h : Absent b s) : checkResult s = .identity := by
  have hbackup : backup s = List.replicate 5 b := by rw [backup, reply_absent h]; rfl
  have hread : readBack s = List.replicate 5 b := by rw [readBack, reply_absent (absent_issueAll h _)]; rfl
  have hne : ∀ b : Byte, List.replicate 5 b ≠ perturb (List.replicate 5 b) := by decide
  rw [checkResult, hread, hbackup, if_pos (hne b)]

end Absent

/-! ### Power, radio and release (R283 to R287) -/

section Control

variable {s : State}

theorem exec_deinit_unbound (hb : s.bound = false) : exec .deinit s = .next (respond .ok .none s) := by
  simp [exec, execDeinit, hb, answer]

theorem exec_deinit (hb : s.bound = true) :
    exec .deinit s = .next (respond (mk (powerFailures 0 s)) .none (release (driveCe false (writePower 0 s)))) :=
  if_pos hb

variable (hb : s.bound = true)
include hb

theorem exec_powerUp : exec .powerUp s = .next (respond (mk (powerFailures 1 s)) .none (writePower 1 s)) :=
  whenBound_true hb _

theorem exec_powerDown : exec .powerDown s = .next (respond (mk (powerFailures 0 s)) .none (writePower 0 s)) :=
  whenBound_true hb _

theorem exec_radioOn : exec .radioOn s = .next (respond .ok .none (driveCe true s)) := whenBound_true hb _

theorem exec_radioOff : exec .radioOff s = .next (respond .ok .none (driveCe false s)) := whenBound_true hb _

end Control

end Sys2Proof.Machine

namespace Sys2Proof.Proofs

open Sys2Proof Sys2Proof.Machine Sys2Proof.Claims

/-- Settles O60: each operation on a bound instance is one shared operation of the model. -/
theorem powerAndRadioControl : Obligations.PowerAndRadioControl :=
  ⟨needsBinding_of_not_exempt rfl rfl, needsBinding_of_not_exempt rfl rfl, needsBinding_of_not_exempt rfl rfl,
    needsBinding_of_not_exempt rfl rfl,
    fun _ hb => ⟨exec_powerUp hb, exec_powerDown hb, exec_radioOn hb, exec_radioOff hb⟩⟩

/-- Settles O59: the power-down leaves the registers alone, then the pin is driven and the binding released. -/
theorem deinitReleasesTheBinding : Obligations.DeinitReleasesTheBinding := by
  refine fun s => ⟨exec_deinit_unbound, fun hb => ?_⟩
  rw [exec_deinit hb, release, driveCe_history, List.append_assoc]
  rfl

/-- Settles O53: the binding and what `T.init()` returns decide, and each answer of `T.init()` is a law of its own. -/
theorem initBindsTheTransport : Obligations.InitBindsTheTransport := by
  refine fun x s => ⟨refuses_init, fun hb => ⟨exec_init_fail hb, exec_init_ok hb, fun i rest => initRc_cons, initRc_ok,
    fun i rest => initPin_cons, initPin_nil, ?_, initChip_unchanged⟩⟩
  rintro i rest hi rfl
  exact initChip_refChip_cons hi

/-- Settles O54: the model's calls are the four frames, and any difference in the read-back decides the result. -/
theorem checkDeviceIssuesFourTransactions : Obligations.CheckDeviceIssuesFourTransactions := by
  refine ⟨needsBinding_of_not_exempt rfl rfl, fun s hb => ?_⟩
  rw [exec_checkDevice hb, checkResult_eq_checkOutcome, checkState_eq_checkFrames, checkOutcome]
  exact ⟨fun hne => by rw [if_pos hne], fun heq => by rw [if_neg (not_not.2 heq)]⟩

/-- Settles O55: a quiet RefChip holds the perturbed address and takes the old one back; an absent device holds
nothing. -/
theorem checkDeviceRestoresTheAddress : Obligations.CheckDeviceRestoresTheAddress := by
  refine fun s hb => ⟨fun hq => ⟨_, exec_checkDevice hb, ?ok, checkState_chip_quiet hq⟩, fun ht => ?absent⟩
  case ok => rw [respond_response, checkResult_quiet hq]
  case absent =>
    obtain ⟨b, h⟩ : ∃ b, Absent b s := ht.elim (fun h0 => ⟨0x00, .inl ⟨h0, rfl⟩⟩) fun hF => ⟨0xFF, .inr ⟨hF, rfl⟩⟩
    refine ⟨_, exec_checkDevice hb, ?_, issueAll_chip_absent h _⟩
    rw [respond_response, checkResult_absent h]

end Sys2Proof.Proofs

/-! PROOFS. `setup` (46_device_lifecycle.md): its refusals in operand order, the abort and the nine steps in bytes (R282),
and on a quiet RefChip a second one that changes nothing (R288). -/

namespace Sys2Proof.Machine

open Sys2Proof.Claims

/-! ### The operands of `setup` (R139, R305, R307) -/

theorem all_configOk_iff (config : Option RadioConfig) :
    config.all configOk = true ↔ ∀ c ∈ config, ConfigWellFormed c := by
  refine ⟨fun h c hc => ?_, all_configOk⟩
  obtain rfl := Option.mem_def.1 hc
  exact (configOk_iff c).1 h

theorem all_tableOk_iff (table : Option (List (Byte × Byte))) :
    table.all tableOk = true ↔ ∀ l ∈ table, TableWellFormed l := by
  refine ⟨fun h l hl => ?_, all_tableOk⟩
  obtain rfl := Option.mem_def.1 hl
  exact (tableOk_iff l).1 h

theorem exists_eq_roleCode {b : Byte} (h : b.toNat ≤ 1) : ∃ r, b = roleCode r := by
  have hcases : b = 0 ∨ b = 1 := by bv_omega
  rcases hcases with rfl | rfl
  · exact ⟨.ptx, rfl⟩
  · exact ⟨.prx, rfl⟩

section SetupOperands

variable {b : Byte} {r : Role} {config : Option RadioConfig} {table : Option (List (Byte × Byte))} {s : State}
variable (hb : s.bound = true)
include hb

theorem refuses_setup_badRole (h : 1 < b.toNat) : Refuses (.setup b config table) s .badOperand :=
  (whenBound_true hb _).trans (by rw [roleOf_of_lt h]; rfl)

theorem refuses_setup_badConfig (hcfg : ¬ config.all configOk = true) :
    Refuses (.setup (roleCode r) config table) s .badOperand :=
  (whenBound_true hb _).trans (by simp [roleOf_roleCode, hcfg, reject, answer])

theorem refuses_setup_badTable (hcfg : config.all configOk = true) (htbl : ¬ table.all tableOk = true) :
    Refuses (.setup (roleCode r) config table) s .badTable :=
  (whenBound_true hb _).trans (by simp [roleOf_roleCode, hcfg, htbl, reject, answer])

theorem exec_setup_aborted (hcfg : config.all configOk = true) (htbl : table.all tableOk = true)
    (hcheck : checkResult s ≠ .ok) :
    exec (.setup (roleCode r) config table) s = .next (respond (checkResult s) .none (checkState s)) :=
  (whenBound_true hb _).trans (by simp [roleOf_roleCode, hcfg, htbl, hcheck, answer])

end SetupOperands

/-! ### The writes of `setup` in bytes (R282) -/

theorem tableCalls_eq_frames {t : List (Byte × Byte)} (ht : TableWellFormed t) :
    tableCalls t = t.map fun p => .send2 [0x20 + p.1] [p.2] :=
  List.map_congr_left fun p hp => writeByteCall_regAddr (by have := table_addr_lt ht hp; omega) p.2

theorem setupWrites_eq_frames {c : RadioConfig} {t : List (Byte × Byte)} (hc : ConfigWellFormed c)
    (ht : TableWellFormed t) :
    setupWrites c t = softClearFrames ++ (t.map fun p => .send2 [0x20 + p.1] [p.2]) ++ configFrames c := by
  rw [setupWrites, tableCalls_eq_frames ht, configCalls_eq_configFrames hc]
  rfl

/-! ### Bits that an operation overwrites, and bits that it leaves

`setup` sets some bits of the register space to values that do not depend on the chip, and leaves the others. An operation
of that kind is idempotent, and any composition of such operations is of that kind. -/

/-- On a sound chip the operation sets each bit of the register space to a value of its own, or leaves it. -/
structure Overwrites (f : RefChip → RefChip) : Prop where
  sound : ∀ c : RefChip, c.Sound → (f c).Sound
  bits : ∀ k, ∃ kept fixed : Byte, ∀ c : RefChip, c.Sound →
    Memory.read (f c).regs k = (Memory.read c.regs k &&& kept) ||| fixed

theorem overwrite_none (x : Byte) : (x &&& 0xFF) ||| 0x00 = x :=
  BitVec.or_zero.trans (Laws.byte_and_ff x)

/-- One overwriting of bits after another is one overwriting. -/
theorem overwrite_comp (x k₁ s₁ k₂ s₂ : Byte) :
    (((x &&& k₁) ||| s₁) &&& k₂) ||| s₂ = (x &&& (k₁ &&& k₂)) ||| ((s₁ &&& k₂) ||| s₂) := by
  rw [BitVec.and_or_distrib_right, BitVec.and_assoc, BitVec.or_assoc]

theorem overwrite_idem (x k s : Byte) : (((x &&& k) ||| s) &&& k) ||| s = (x &&& k) ||| s := by
  ext i
  simp only [BitVec.getElem_or, BitVec.getElem_and]
  cases x[i] <;> cases k[i] <;> simp

section Overwrites

variable {f g : RefChip → RefChip}

theorem Overwrites.comp (hg : Overwrites g) (hf : Overwrites f) : Overwrites fun c => g (f c) where
  sound c hc := hg.sound _ (hf.sound c hc)
  bits k := by
    obtain ⟨k₁, s₁, h₁⟩ := hf.bits k
    obtain ⟨k₂, s₂, h₂⟩ := hg.bits k
    exact ⟨k₁ &&& k₂, (s₁ &&& k₂) ||| s₂, fun c hc => by rw [h₂ _ (hf.sound c hc), h₁ c hc, overwrite_comp]⟩

theorem Overwrites.regs_idem (hf : Overwrites f) {c : RefChip} (hc : c.Sound) : (f (f c)).regs = (f c).regs := by
  have hfc := hf.sound c hc
  refine Memory.ext_of_read _ _ (hf.sound _ hfc).regs_wf hfc.regs_wf fun k => ?_
  obtain ⟨kept, fixed, h⟩ := hf.bits k
  rw [h _ hfc, h c hc, overwrite_idem]

/-- An operation that writes whole cells. -/
theorem overwrites_of_cells (hs : ∀ c : RefChip, c.Sound → (f c).Sound)
    (h : ∀ k, (∃ v, ∀ c : RefChip, c.Sound → Memory.read (f c).regs k = v) ∨
      ∀ c : RefChip, c.Sound → Memory.read (f c).regs k = Memory.read c.regs k) : Overwrites f := by
  refine ⟨hs, fun k => ?_⟩
  rcases h k with ⟨v, hv⟩ | hkeep
  · exact ⟨0x00, v, fun c hc => by simp [hv c hc]⟩
  · exact ⟨0xFF, 0x00, fun c hc => (hkeep c hc).trans (overwrite_none _).symm⟩

theorem overwrites_writeReg (a : BitVec 5) (d : List Byte) : Overwrites fun c => c.writeReg a d := by
  refine overwrites_of_cells (fun c hc => sound_writeReg hc a d) fun k => ?_
  cases ha : regKind a with
  | one =>
    by_cases hk : k = regKey a 0
    · exact .inl ⟨d.headD 0, fun c hc => by simp [RefChip.writeReg, ha, Memory.read_write _ hc.regs_wf, hk]⟩
    · exact .inr fun c hc => by simp [RefChip.writeReg, ha, Memory.read_write _ hc.regs_wf, hk]
  | five =>
    by_cases hk : regKey a 0 ≤ k ∧ k < regKey a 0 + d.length
    · exact .inl ⟨d.getD (k - regKey a 0) 0, fun c hc => by
        simp only [RefChip.writeReg, ha, Memory.read_writeBytes _ hc.regs_wf, if_pos hk]⟩
    · exact .inr fun c hc => by simp only [RefChip.writeReg, ha, Memory.read_writeBytes _ hc.regs_wf, if_neg hk]
  | status | fifoStatus | readOnlyZero | unmapped =>
    exact .inr fun c _ => by simp [RefChip.writeReg, ha, RefChip.clearFlags]

theorem overwrites_writeAll (ws : List (BitVec 5 × List Byte)) : Overwrites fun c => writeAll c ws := by
  induction ws with
  | nil => exact overwrites_of_cells (fun _ hc => hc) fun _ => .inr fun _ _ => rfl
  | cons w ws ih => exact ih.comp (overwrites_writeReg w.1 w.2)

theorem overwrites_softCleared : Overwrites RefChip.softCleared :=
  overwrites_of_cells (fun _ hc => sound_softCleared hc) fun _ => .inr fun _ _ => rfl

/-- A field replaced is the bits of its mask set and the others left (R172). -/
theorem overwrites_modify {a : BitVec 5} (ha : regKind a = .one) (m v : Byte) : Overwrites fun c => c.modify a m v := by
  refine ⟨fun c hc => sound_modify hc a m v, fun k => ?_⟩
  by_cases hk : k = regKey a 0
  · exact ⟨~~~m, (v <<< maskShift m) &&& m, fun c hc => hk ▸ regByte_modify_same hc ha m v⟩
  · exact ⟨0xFF, 0x00, fun c hc => by
      rw [overwrite_none]
      simp [RefChip.modify, RefChip.writeReg, ha, Memory.read_write _ hc.regs_wf, hk]⟩

theorem overwrites_setUp (r : Role) (cfg : RadioConfig) (tbl : List (Byte × Byte)) :
    Overwrites fun c => c.setUp r cfg tbl :=
  have hcleared := overwrites_softCleared.comp (overwrites_modify (a := regConfig) rfl maskPwrUp 0)
  have htabled := (overwrites_writeAll (tableWrites tbl)).comp hcleared
  have hconfigured := (overwrites_writeAll (configWrites cfg)).comp htabled
  ((overwrites_modify (a := regConfig) rfl maskPwrUp 1).comp
    (overwrites_modify (a := regConfig) rfl maskPrimRx (roleCode r))).comp hconfigured

end Overwrites

/-! ### The chip without its register space -/

/-- The chip with its register space blanked out: what is left is its flags, its queues and its own parameters. -/
def RefChip.rest (c : RefChip) : RefChip := { c with regs := [] }

theorem RefChip.ext_of_rest {c d : RefChip} (hrest : c.rest = d.rest) (hregs : c.regs = d.regs) : c = d := by
  cases c
  cases d
  simp_all [RefChip.rest]

section Rest

variable {c : RefChip} (r : Role) (cfg : RadioConfig) (tbl : List (Byte × Byte))

/-- Where no flag is set, a write to `STATUS` too leaves the rest alone (R100). -/
theorem rest_writeReg_of_idle (hc : c.Idle) (a : BitVec 5) (d : List Byte) : (c.writeReg a d).rest = c.rest := by
  obtain ⟨-, -, hdr, hds, hrt⟩ := hc
  unfold RefChip.writeReg
  split
  case h_3 => simp [RefChip.clearFlags, RefChip.rest, hdr, hds, hrt]
  all_goals rfl

theorem rest_writeAll_of_idle (hc : c.Idle) (ws : List (BitVec 5 × List Byte)) : (writeAll c ws).rest = c.rest := by
  induction ws generalizing c with
  | nil => rfl
  | cons w ws ih => exact (ih (idle_writeReg hc w.1 w.2)).trans (rest_writeReg_of_idle hc w.1 w.2)

theorem rest_setUp : (c.setUp r cfg tbl).rest = c.rest.softCleared :=
  calc (c.setUp r cfg tbl).rest
      = (c.configured cfg tbl).rest := rfl
    _ = (writeAll (c.modify regConfig maskPwrUp 0).softCleared (tableWrites tbl)).rest :=
        rest_writeAll_of_idle (idle_writeAll (idle_softCleared _) _) _
    _ = (c.modify regConfig maskPwrUp 0).softCleared.rest := rest_writeAll_of_idle (idle_softCleared _) _
    _ = c.rest.softCleared := rfl

/-- A second `setup` changes nothing more in the chip (R288). -/
theorem setUp_idem (hc : c.Sound) : (c.setUp r cfg tbl).setUp r cfg tbl = c.setUp r cfg tbl := by
  refine RefChip.ext_of_rest ?_ ((overwrites_setUp r cfg tbl).regs_idem hc)
  rw [rest_setUp, rest_setUp]
  rfl

end Rest

/-! ### `setup` on a quiet RefChip -/

section QuietSetup

variable {r : Role} {config : Option RadioConfig} {table : Option (List (Byte × Byte))} {s t : State}

/-- On a quiet RefChip `setup` answers OK and leaves the chip set up, the instance ready and the radio on (R282). -/
theorem setup_quiet (hb : s.bound = true) (hq : QuietRefChip s) (hcfg : config.all configOk = true)
    (htbl : table.all tableOk = true) (h : exec (.setup (roleCode r) config table) s = .next t) :
    QuietRefChip t ∧ t.chip = s.chip.setUp r (config.getD defaultUserConfig) (table.getD defaultRegTable) ∧
      t.bound = true ∧ t.role = some r ∧ t.ackPipe = s.ackPipe ∧ t.radioEnabled = some true ∧ t.ce = true ∧
      t.response = some ⟨.ok, .none⟩ := by
  have hqc : QuietRefChip (checkState s) := quiet_issueAll hq _
  have hok := configOk_getD hcfg
  rw [exec_setup_of_checked hb hcfg htbl (checkResult_quiet hq), setupFailures_quiet hqc hok] at h
  obtain rfl := Host.Outcome.next.inj h
  refine ⟨quiet_modifyBits (quiet_setupRoled hqc) _ _ _, ?chip, (setupEnd_bound ..).trans ?bound, setupEnd_role ..,
    (setupEnd_ackPipe ..).trans ?ackPipe, rfl, rfl, rfl⟩
  case chip => rw [respond_chip, setupEnd_chip_quiet hqc hok, checkState_chip_quiet hq]
  case bound => exact (kept_checkState s).bound.trans hb
  case ackPipe => exact (kept_checkState s).ackPipe

end QuietSetup

end Sys2Proof.Machine

namespace Sys2Proof.Proofs

open Sys2Proof Sys2Proof.Machine Sys2Proof.Claims

/-- Settles O56: the operands decide in their order, then the identity check; the model's writes are the
frames of R282. -/
theorem setupRunsItsNineSteps : Obligations.SetupRunsItsNineSteps := by
  refine fun b config table => ⟨needsBinding_of_not_exempt rfl rfl, fun s hb => ⟨refuses_setup_badRole hb, ?badConfig,
    ?badTable, ?aborted, ?steps⟩⟩
  case badConfig =>
    intro hle hcfg
    obtain ⟨r, rfl⟩ := exists_eq_roleCode hle
    exact refuses_setup_badConfig hb (mt (all_configOk_iff config).1 hcfg)
  case badTable =>
    intro hle hcfg htbl
    obtain ⟨r, rfl⟩ := exists_eq_roleCode hle
    exact refuses_setup_badTable hb (all_configOk hcfg) (mt (all_tableOk_iff table).1 htbl)
  case aborted =>
    intro hle hcfg htbl hcheck
    obtain ⟨r, rfl⟩ := exists_eq_roleCode hle
    rw [← checkResult_eq_checkOutcome] at hcheck ⊢
    rw [← checkState_eq_checkFrames]
    exact exec_setup_aborted hb (all_configOk hcfg) (all_tableOk htbl) hcheck
  case steps =>
    intro r hcode hcfg htbl hcheck
    rw [← roleCode_eq] at hcode
    subst hcode
    have hconfig := (configOk_iff _).1 (configOk_getD (all_configOk hcfg))
    have htable := (tableOk_iff _).1 (tableOk_getD (all_tableOk htbl))
    rw [← checkState_eq_checkFrames, ← setupWrites_eq_frames hconfig htable]
    exact exec_setup_of_checked hb (all_configOk hcfg) (all_tableOk htbl) ((checkResult_eq_checkOutcome s).trans hcheck)

/-- Settles O58: a first `setup` leaves a quiet RefChip again, and there the second overwrites the same bits. -/
theorem setupIsIdempotent : Obligations.SetupIsIdempotent := by
  intro b config table s t u hb hq hle hconfig htable hfirst hsecond
  obtain ⟨r, rfl⟩ := exists_eq_roleCode hle
  have hcfg := all_configOk hconfig
  have htbl := all_tableOk htable
  obtain ⟨hqt, tchip, tbound, trole, tack, tradio, tce, tresp⟩ := setup_quiet hb hq hcfg htbl hfirst
  obtain ⟨-, uchip, ubound, urole, uack, uradio, uce, uresp⟩ := setup_quiet tbound hqt hcfg htbl hsecond
  refine ⟨?_, uce.trans tce.symm, ubound.trans tbound.symm, urole.trans trole.symm, uack, uradio.trans tradio.symm,
    uresp.trans tresp.symm⟩
  rw [uchip, tchip, setUp_idem _ _ _ (quiet_sound hq)]

end Sys2Proof.Proofs

/-! PROOFS. The lifecycle states (60_exceptions.md, R315): what an instruction does to them, from its effect on the
registers of the block. -/

namespace Sys2Proof.Machine

open Sys2Proof.Claims

/-! ### The phase is a matter of two registers -/

section Phase

variable {s t : State}

theorem phase_congr (hb : t.bound = s.bound) (hr : t.role = s.role) : phase t = phase s := by
  rw [phase, phase, hb, hr]

theorem phase_unbound (hb : s.bound = false) : phase s = .unbound := by simp [phase, hb]

theorem phase_bound (hb : s.bound = true) (hr : s.role = none) : phase s = .bound := by simp [phase, hb, hr]

theorem phase_ready (hb : s.bound = true) (hr : s.role ≠ none) : phase s = .ready := by simp [phase, hb, hr]

theorem bound_of_phase_ready (h : phase s = .ready) : s.bound = true := by
  by_contra hb
  rw [phase_unbound (by simpa using hb)] at h
  exact nomatch h

@[simp] theorem phase_respond (r : Result) (o : Output) : phase (respond r o s) = phase s := rfl

theorem Kept.phase_eq (h : Kept s t) : phase t = phase s := phase_congr h.bound h.role

end Phase

/-! ### The phase under an instruction (R280, R282, R283) -/

/-- An effect leaves the phase as it is, or moves it along one of the three arrows of R315. -/
theorem Effect.phase_cases {i : Instr} {s u : State} (h : Effect s i u) (hs : s.bound = false → s.role = none) :
    phase u = phase s ∨
    (phase s = .unbound ∧ phase u = .bound ∧ ∃ x, i = .init x) ∨
    (phase s = .bound ∧ phase u = .ready ∧ ∃ r c l, i = .setup r c l) ∨
    (phase s ≠ .unbound ∧ phase u = .unbound ∧ i = .deinit) := by
  have switched {r : Role} {v : State} (hb : s.bound = true) (hr : s.role ≠ none)
      (hk : Kept { s with role := some r } v) : phase v = phase s := by
    rw [hk.phase_eq, phase_ready hb hr]
    exact phase_ready hb (by simp)
  cases h with
  | kept hk => exact .inl hk.phase_eq
  | setAckPipe | initFailed | radioOn | radioOff => exact .inl rfl
  | switchRole b r hb hr hk | switchRoleDirectly b r hb hr hk => exact .inl (switched hb hr hk)
  | cfgWrite c hon hk => exact .inl (phase_congr hk.bound hk.role)
  | initBound x hb => exact .inr (.inl ⟨phase_unbound hb, phase_bound rfl (hs hb), x, rfl⟩)
  | @setup b c l r t u v hb hk₁ hk₂ hk₃ =>
    have hready : phase (driveCe true v) = .ready :=
      phase_ready (by simp [hk₁.registers, hk₂.registers, hk₃.registers, hb]) (by simp [hk₃.role])
    by_cases hr : s.role = none
    · exact .inr (.inr (.inl ⟨phase_bound hb hr, hready, b, c, l, rfl⟩))
    · exact .inl (hready.trans (phase_ready hb hr).symm)
  | @deinit t hk =>
    have hunbound : phase (release (driveCe false t)) = .unbound := phase_unbound rfl
    by_cases hp : phase s = .unbound
    · exact .inl (hunbound.trans hp.symm)
    · exact .inr (.inr (.inr ⟨hp, hunbound, rfl⟩))

section Outcomes

variable {s t : State}

/-- A failed `init` leaves the block unbound (R280). -/
theorem initRc_of_phase_ne {x : Transport} (h : exec (.init x) s = .next t) (hp : phase t ≠ phase s) :
    initRc x s = .ok := by
  cases hrc : initRc x s with
  | ok => rfl
  | fail =>
    cases hb : s.bound with
    | true =>
      obtain rfl := Host.Outcome.next.inj ((refuses_init hb).symm.trans h)
      exact absurd rfl hp
    | false =>
      obtain rfl := Host.Outcome.next.inj ((exec_init_fail hb hrc).symm.trans h)
      exact absurd rfl hp

/-- A `setup` that is refused, or whose identity check fails, stores no role (R282). -/
theorem checkOutcome_of_phase_ne {b : Byte} {c : Option RadioConfig} {l : Option (List (Byte × Byte))}
    (h : exec (.setup b c l) s = .next t) (hp : phase t ≠ phase s) : checkOutcome s = .ok := by
  rw [← checkResult_eq_checkOutcome]
  by_contra hcheck
  have hkept : Answers (Kept s) (exec (.setup b c l) s) := by
    refine kept_whenBound ?_
    split
    · exact kept_reject _ s
    · exact answers_ite (fun _ => kept_reject _ s) fun _ => answers_ite (fun _ => kept_reject _ s) fun _ =>
        answers_ite (fun hok => absurd hok hcheck) fun _ =>
          answers_answer (checkResult_ne_transport_zero s) _ (kept_checkState s)
  obtain ⟨r, out, u, rfl, -, hk⟩ := hkept t h
  exact hp hk.phase_eq

/-- An instruction never takes a block that is `READY` back to `BOUND` (R315). -/
theorem phase_ne_bound_of_ready {i : Instr} (h : exec i s = .next t) (hs : phase s = .ready) : phase t ≠ .bound := by
  obtain ⟨r, out, u, rfl, -, hu⟩ := exec_effect i s t h
  have hb := bound_of_phase_ready hs
  rw [phase_respond]
  rcases hu.phase_cases fun hf => absurd (hb.symm.trans hf) (by decide) with hu | ⟨hs', -⟩ | ⟨hs', -⟩ | ⟨-, hu, -⟩
  · simp [hu, hs]
  · exact nomatch hs.symm.trans hs'
  · exact nomatch hs.symm.trans hs'
  · simp [hu]

end Outcomes

end Sys2Proof.Machine

namespace Sys2Proof.Proofs

open Sys2Proof Sys2Proof.Machine Sys2Proof.Claims

/-- Settles O11, from the effect of the instruction; what is no instruction leaves the two registers alone. -/
theorem noWayFromReadyBackToBound : Obligations.NoWayFromReadyBackToBound := by
  refine ⟨fun s t h hs => ?noWayBack, fun i s t hs h => ?threeWays⟩
  case noWayBack =>
    rcases step_next h with ⟨-, rfl⟩ | ⟨e, rest, -, rfl⟩ | ⟨b, rest, -, rfl⟩ | ⟨r, rest, i, -, -, hx⟩ |
      ⟨r, rest, e, -, -, hu⟩
    · simp [hs]
    · exact fun ht => nomatch hs.symm.trans ht
    · exact fun ht => nomatch hs.symm.trans ht
    · exact phase_ne_bound_of_ready (s := takeItem rest s) hx hs
    · obtain ⟨q, out, u, rfl, -, hk⟩ := kept_undecoded r (takeItem rest s) t hu
      rw [phase_respond, hk.phase_eq]
      exact fun ht => nomatch hs.symm.trans ht
  case threeWays =>
    by_cases hp : phase t = phase s
    · exact .inl hp
    obtain ⟨r, out, u, rfl, -, hu⟩ := exec_effect i s t h
    rcases hu.phase_cases hs with hsame | ⟨hunbound, hbound, x, rfl⟩ | ⟨hbound, hready, b, c, l, rfl⟩ | hdeinit
    · exact absurd hsame hp
    · exact .inr (.inl ⟨hunbound, hbound, x, rfl, initRc_of_phase_ne h hp⟩)
    · exact .inr (.inr (.inl ⟨hbound, hready, checkOutcome_of_phase_ne h hp, b, c, l, rfl⟩))
    · exact .inr (.inr (.inr hdeinit))

end Sys2Proof.Proofs

/-! PROOFS. How a host operation ends: refused with nothing done (R305), or answered with its failures counted (R301, R302)
and its transactions in the history (R350). -/

namespace Sys2Proof.Machine

open Sys2Proof.Claims

/-! ### The transactions in the history (R63, R350) -/

/-- The bus transactions that the history of a state holds. -/
def transactions (s : State) : Nat := (s.history.filter fun e => !isPinEvent e).length

theorem transactions_of_history {s t : State} {es : List Event} (h : t.history = s.history ++ es) :
    transactions t = transactions s + (es.filter fun e => !isPinEvent e).length := by
  simp [transactions, h]

@[simp] theorem transactions_respond (r : Result) (o : Output) (s : State) :
    transactions (respond r o s) = transactions s := rfl

@[simp] theorem transactions_transact (c : Call) (s : State) : transactions (transact c s) = transactions s + 1 := by
  rw [transactions_of_history (transact_history c s)]
  cases c <;> rfl

@[simp] theorem transactions_issueAll (cs : List Call) (s : State) :
    transactions (issueAll cs s) = transactions s + cs.length := by
  induction cs generalizing s with
  | nil => rfl
  | cons c cs ih =>
    rw [issueAll_cons, ih, transactions_transact, List.length_cons]
    omega

@[simp] theorem transactions_driveCe (b : Bool) (s : State) : transactions (driveCe b s) = transactions s :=
  transactions_of_history (driveCe_history b s)

@[simp] theorem transactions_release (s : State) : transactions (release s) = transactions s :=
  transactions_of_history (release_history s)

@[simp] theorem transactions_transportInit (x : Transport) (s : State) :
    transactions (transportInit x s) = transactions s :=
  transactions_of_history (transportInit_history x s)

@[simp] theorem transactions_setRole (r : Option Role) (s : State) :
    transactions { s with role := r } = transactions s := rfl

/-- A read-modify-write is its read and at most one write (R178). -/
theorem transactions_modifyBits_le (a : BitVec 5) (m v : Byte) (s : State) :
    transactions (modifyBits a m v s) ≤ transactions s + 2 := by
  rcases modifyBits_run a m v s with h | ⟨b, h⟩ <;> simp [h]

theorem transactions_writeRoleBit_le (r : Role) (s : State) : transactions (writeRoleBit r s) ≤ transactions s + 2 :=
  transactions_modifyBits_le _ _ _ s

theorem transactions_writePower_le (v : Byte) (s : State) : transactions (writePower v s) ≤ transactions s + 2 :=
  transactions_modifyBits_le _ _ _ s

/-! ### The two ways to end -/

/-- An operation on `s` ends in this state: refused, with nothing but the response written; or with another result, which
counts from 1 to `f` failures if it counts any, after at most `n` transactions. -/
inductive Ends (f n : Nat) (s : State) : State → Prop where
  | refused (e : Reason) : Ends f n s (respond (.rejected e) .none s)
  | answered {r : Result} {u : State} (o : Output) : (∀ e, r ≠ .rejected e) →
      (∀ k, r = .transport k → 1 ≤ k ∧ k ≤ f) → transactions u ≤ transactions s + n → Ends f n s (respond r o u)

/-- The outcome, if it is a next state, is one that the operation may end in. -/
def Concludes (f n : Nat) (s : State) (o : Host.Outcome State Fault Refusal) : Prop := ∀ t, o = .next t → Ends f n s t

theorem mk_ne_rejected (k : Nat) (e : Reason) : mk k ≠ .rejected e := by
  unfold mk
  split <;> simp

theorem result_of_response {r r' : Result} {o o' : Output} {s : State}
    (h : (respond r o s).response = some ⟨r', o'⟩) : r = r' :=
  congrArg Response.result (Option.some.inj h)

section Concludes

variable {f n : Nat} {s u : State} {k k' : Host.Outcome State Fault Refusal}

theorem concludes_answer {r : Result} (hrej : ∀ e, r ≠ .rejected e) (hfail : ∀ k, r = .transport k → 1 ≤ k ∧ k ≤ f)
    (out : Output) (hu : transactions u ≤ transactions s + n) : Concludes f n s (answer r out u) := by
  intro t ht
  obtain rfl := answer_eq_next.1 ht
  exact .answered out hrej hfail hu

theorem concludes_mk {c : Nat} (hc : c ≤ f) (out : Output) (hu : transactions u ≤ transactions s + n) :
    Concludes f n s (answer (mk c) out u) := by
  refine concludes_answer (mk_ne_rejected c) (fun k hk => ?_) out hu
  obtain ⟨rfl, hpos⟩ := mk_transport hk
  exact ⟨hpos, hc⟩

theorem concludes_ok (out : Output) (hu : transactions u ≤ transactions s + n) : Concludes f n s (answer .ok out u) :=
  concludes_answer (by simp) (by simp) out hu

theorem concludes_reject (e : Reason) : Concludes f n s (reject e s) := by
  intro t ht
  obtain rfl := reject_eq_next.1 ht
  exact .refused e

theorem concludes_ite {b : Prop} [Decidable b] (h : b → Concludes f n s k) (h' : ¬ b → Concludes f n s k') :
    Concludes f n s (if b then k else k') := by
  split
  · exact h ‹_›
  · exact h' ‹_›

/-- A check of an operand, then the operation (R305). -/
theorem concludes_checked {b : Prop} [Decidable b] (h : Concludes f n s k) (e : Reason) :
    Concludes f n s (if b then k else reject e s) := concludes_ite (fun _ => h) fun _ => concludes_reject e

theorem concludes_whenBound (h : Concludes f n s k) : Concludes f n s (whenBound s k) := concludes_checked h _

end Concludes

/-! ### The shared operations -/

section Shared

variable (s : State)

theorem concludes_call (c : Call) (out : Output) : Concludes 1 1 s (answer (mk (failed c s)) out (transact c s)) :=
  concludes_mk (failed_le_one c s) out (transactions_transact c s).le

theorem concludes_single (c : Call) : Concludes 1 1 s (single c s) := concludes_call s c .none

/-- A query counts no failure of its one read (R306). -/
theorem concludes_query (c : Call) (out : Output) : Concludes 0 1 s (answer .ok out (transact c s)) :=
  concludes_ok out (transactions_transact c s).le

theorem concludes_fifoQuery (q : Byte → Bool) : Concludes 0 1 s (fifoQuery q s) :=
  concludes_whenBound (concludes_query s _ _)

/-- A run of at most `n` transactions counts at most `n` failures (R302). -/
theorem concludes_run {n : Nat} {cs : List Call} (hcs : cs.length ≤ n) (out : Output) :
    Concludes n n s (answer (mk (failures cs s)) out (issueAll cs s)) :=
  concludes_mk ((failures_le cs s).trans hcs) out (by rw [transactions_issueAll]; omega)

theorem concludes_modify (a : BitVec 5) (m v : Byte) :
    Concludes 1 2 s (answer (mk (modifyFailures a m v s)) .none (modifyBits a m v s)) :=
  concludes_mk (modifyFailures_le_one a m v s) _ (transactions_modifyBits_le a m v s)

end Shared

/-! ### The operations of several steps -/

section Operations

variable (s : State)

theorem concludes_execTxWrite (d : List Byte) (len : Nat) : Concludes 1 1 s (execTxWrite d len s) := by
  refine concludes_whenBound (concludes_checked ?_ _)
  split
  · exact concludes_reject _
  · exact concludes_reject _
  · exact concludes_single s _
  · exact concludes_single s _

theorem concludes_execTxWriteNoAck (d : List Byte) (len : Nat) : Concludes 1 1 s (execTxWriteNoAck d len s) := by
  refine concludes_whenBound (concludes_checked ?_ _)
  split
  · exact concludes_reject _
  · exact concludes_reject _
  · exact concludes_single s _
  · exact concludes_single s _

theorem concludes_execRxRead : Concludes 3 3 s (execRxRead s) := by
  refine concludes_whenBound (concludes_ite (fun _ => ?_) fun _ => concludes_ite (fun _ => ?_) fun _ => ?_)
  · exact concludes_answer (by simp) (by simp) _ (by simp)
  · exact fun _ ht => nomatch ht
  · exact concludes_run s le_rfl _

theorem concludes_execSwitchRole (b : Byte) : Concludes 4 5 s (execSwitchRole b s) := by
  refine concludes_whenBound ?_
  split
  · exact concludes_reject _
  · exact concludes_reject _
  · refine concludes_ite (fun _ => concludes_ok _ (Nat.le_add_right _ _)) fun _ => concludes_mk ?_ _ ?_
    · exact Nat.add_le_add (failures_le softClearCalls _) (modifyFailures_le_one ..)
    · exact (transactions_writeRoleBit_le _ _).trans (by simp [softClearCalls])

theorem concludes_execSwitchRoleDirectly (b : Byte) : Concludes 1 2 s (execSwitchRoleDirectly b s) := by
  refine concludes_whenBound ?_
  split
  · exact concludes_reject _
  · exact concludes_reject _
  · exact concludes_mk (modifyFailures_le_one ..) _ (transactions_writeRoleBit_le _ _)

theorem concludes_execCfgWrite (c : RadioConfig) : Concludes 11 11 s (execCfgWrite c s) := by
  refine concludes_whenBound (concludes_checked ?_ _)
  split
  · exact concludes_reject _
  · exact concludes_run s le_rfl _
  · refine concludes_mk (failures_le (configCalls c) _) _ ?_
    rw [transactions_driveCe, transactions_issueAll, transactions_driveCe]
    exact le_rfl

theorem concludes_execInit (x : Transport) : Concludes 1 0 s (execInit x s) := by
  refine concludes_ite (fun _ => concludes_reject _) fun _ => ?_
  split
  · exact concludes_answer (by simp) (by simp) _ (transactions_transportInit x s).le
  · exact concludes_ok _ (transactions_transportInit x s).le

theorem checkResult_ne_rejected (e : Reason) : checkResult s ≠ .rejected e := by
  unfold checkResult
  split
  · simp
  · exact mk_ne_rejected _ e

theorem checkResult_transport {k : Nat} (h : checkResult s = .transport k) : 1 ≤ k ∧ k ≤ 4 := by
  unfold checkResult at h
  split at h
  · exact nomatch h
  · obtain ⟨rfl, hpos⟩ := mk_transport h
    exact ⟨hpos, failures_le (checkCalls s) s⟩

theorem transactions_checkState : transactions (checkState s) = transactions s + 4 :=
  transactions_issueAll (checkCalls s) s

theorem concludes_check {f n : Nat} (hf : 4 ≤ f) (hn : 4 ≤ n) :
    Concludes f n s (answer (checkResult s) .none (checkState s)) := by
  refine concludes_answer (checkResult_ne_rejected s) (fun k hk => ?_) _ ?_
  · obtain ⟨hpos, hle⟩ := checkResult_transport s hk
    exact ⟨hpos, hle.trans hf⟩
  · rw [transactions_checkState]
    omega

theorem setupWrites_length (cfg : RadioConfig) (tbl : List (Byte × Byte)) :
    (setupWrites cfg tbl).length = 14 + tbl.length := by
  simp only [setupWrites, softClearCalls, tableCalls, configCalls, governedOrder, List.length_append, List.length_map,
    List.length_cons, List.length_nil]
  omega

/-- Each of the three read-modify-writes counts at most one failure (R301, R302). -/
theorem setupFailures_le (r : Role) (cfg : RadioConfig) (tbl : List (Byte × Byte)) :
    setupFailures r cfg tbl s ≤ 17 + tbl.length := by
  have hoff : powerFailures 0 s ≤ 1 := modifyFailures_le_one ..
  have hwrites := failures_le (setupWrites cfg tbl) (setupOff s)
  have hrole : roleBitFailures r (setupNamed r cfg tbl s) ≤ 1 := modifyFailures_le_one ..
  have hon : powerFailures 1 (setupRoled r cfg tbl s) ≤ 1 := modifyFailures_le_one ..
  rw [setupWrites_length] at hwrites
  unfold setupFailures
  omega

theorem transactions_setupEnd_le (r : Role) (cfg : RadioConfig) (tbl : List (Byte × Byte)) :
    transactions (setupEnd r cfg tbl s) ≤ transactions s + (20 + tbl.length) := by
  have hoff : transactions (setupOff s) ≤ transactions s + 2 := by
    rw [setupOff, transactions_driveCe]
    exact transactions_writePower_le 0 s
  have hwritten : transactions (setupNamed r cfg tbl s) = transactions (setupOff s) + (14 + tbl.length) := by
    rw [setupNamed, transactions_setRole, setupWritten, transactions_issueAll, setupWrites_length]
  have hroled : transactions (setupRoled r cfg tbl s) ≤ transactions (setupNamed r cfg tbl s) + 2 :=
    transactions_writeRoleBit_le r _
  have hend : transactions (setupEnd r cfg tbl s) ≤ transactions (setupRoled r cfg tbl s) + 2 := by
    rw [setupEnd, transactions_driveCe]
    exact transactions_writePower_le 1 _
  omega

theorem concludes_execSetup (b : Byte) (c : Option RadioConfig) (l : Option (List (Byte × Byte))) :
    Concludes (17 + (l.getD defaultRegTable).length) (24 + (l.getD defaultRegTable).length) s
      (execSetup b c l s) := by
  refine concludes_whenBound ?_
  split
  · exact concludes_reject _
  · refine concludes_ite (fun _ => concludes_reject _) fun _ => concludes_ite (fun _ => concludes_reject _) fun _ =>
      concludes_ite (fun _ => concludes_mk (setupFailures_le _ _ _ _) _ ?_) fun _ =>
        concludes_check s (by omega) (by omega)
    have hend := transactions_setupEnd_le (checkState s)
    rw [transactions_checkState] at hend
    exact (hend _ _ _).trans (by omega)

theorem concludes_execDeinit : Concludes 1 2 s (execDeinit s) := by
  refine concludes_ite (fun _ => ?_) fun _ => concludes_ok _ (Nat.le_add_right _ _)
  refine concludes_mk (modifyFailures_le_one ..) _ ?_
  rw [transactions_release, transactions_driveCe]
  exact transactions_writePower_le 0 s

end Operations

/-- A host operation ends within its bounds on failures and transactions (R301, R305, R350). -/
theorem exec_concludes {i : Instr} (hi : i.isHost = true) (s : State) :
    Concludes (maxFailures i) (maxTransactions i) s (exec i s) := by
  cases i with
  | rRegister | wRegister | rRxPayload | wTxPayload | flushTx | flushRx | reuseTxPl | wireActivate | rRxPlWid
  | wAckPayload | wTxPayloadNoack => exact nomatch hi
  | getBits | setBits => exact concludes_checked (concludes_ok _ le_rfl) _
  | decode => exact concludes_ok _ le_rfl
  | readRegister | readRegisters => exact concludes_whenBound (concludes_checked (concludes_call s _ _) _)
  | writeRegister | writeRegisters => exact concludes_whenBound (concludes_checked (concludes_single s _) _)
  | modifyRegisterBits =>
    exact concludes_whenBound (concludes_ite (fun _ => concludes_reject _) fun _ =>
      concludes_ite (fun _ => concludes_reject _) fun _ => concludes_modify s _ _ _)
  | reuseTx | activate | txFlush | rxFlush | statusClear | statusClearAll | clearTxFail =>
    exact concludes_whenBound (concludes_single s _)
  | txHasSpace | txIsEmpty | rxHasData | rxIsFull => exact concludes_fifoQuery s _
  | statusRead => exact concludes_whenBound (concludes_query s _ _)
  | txWrite d len => exact concludes_execTxWrite s d len
  | txWriteNoAck d len => exact concludes_execTxWriteNoAck s d len
  | setAckPipe | getAckPipe | getRole =>
    refine concludes_whenBound ?_
    split
    · exact concludes_ok _ le_rfl
    · exact concludes_reject _
  | rxRead => exact concludes_execRxRead s
  | switchRole b => exact concludes_execSwitchRole s b
  | switchRoleDirectly b => exact concludes_execSwitchRoleDirectly s b
  | cfgWriteDirectly => exact concludes_whenBound (concludes_checked (concludes_run s le_rfl _) _)
  | cfgWriteDiff old new =>
    exact concludes_whenBound (concludes_checked (concludes_run s (diffCalls_sublist old new).length_le _) _)
  | cfgRead => exact concludes_whenBound (concludes_run s le_rfl _)
  | cfgWrite c => exact concludes_execCfgWrite s c
  | init x => exact concludes_execInit s x
  | checkDevice => exact concludes_whenBound (concludes_check s le_rfl le_rfl)
  | setup b c l => exact concludes_execSetup s b c l
  | deinit => exact concludes_execDeinit s
  | powerUp | powerDown => exact concludes_whenBound (concludes_modify s _ _ _)
  | radioOn | radioOff => exact concludes_whenBound (concludes_ok _ (transactions_driveCe _ s).le)

end Sys2Proof.Machine

namespace Sys2Proof.Proofs

open Sys2Proof Sys2Proof.Machine Sys2Proof.Claims

/-- Settles O13: an operation that ends otherwise than refused answers another result. -/
theorem refusedOperationsChangeNothing : Obligations.RefusedOperationsChangeNothing := by
  intro i s t r o hi h hresp
  cases exec_concludes hi s t h with
  | refused e =>
    obtain rfl := Result.rejected.inj (result_of_response hresp)
    rfl
  | answered o' hrej => exact absurd (result_of_response hresp) (hrej r)

/-- Settles O17. -/
theorem failureCountsAreBounded : Obligations.FailureCountsAreBounded := by
  intro i s t n o hi h hresp
  cases exec_concludes hi s t h with
  | refused e => exact nomatch result_of_response hresp
  | answered o' _ hfail => exact hfail n (result_of_response hresp)

/-- Settles O18: the transactions of the old history and those of the new events are the new history's. -/
theorem transactionsPerOperationAreBounded : Obligations.TransactionsPerOperationAreBounded := by
  intro i s t es hi h hes
  have hsum := transactions_of_history hes
  have hle : transactions t ≤ transactions s + maxTransactions i := by
    cases exec_concludes hi s t h with
    | refused e => exact Nat.le_add_right _ _
    | answered o _ _ hn => exact hn
  omega

end Sys2Proof.Proofs

/-! PROOFS. Which host operations can clear MAX_RT (60_exceptions.md, R311): what a write of STATUS carries, by the calls an
instruction may issue. -/

namespace Sys2Proof.Machine

open Sys2Proof.Claims

/-- A call that writes no STATUS byte with the `MAX_RT` bit set (R47, R100). -/
def SparesMaxRt (c : Call) : Prop := ∀ d, c = .send2 [0x27] d → (d.headD 0).getLsbD 4 = false

/-- Of the 11 commands only W_REGISTER to STATUS is such a frame (R131, R134). -/
theorem sparesMaxRt_call {d : WireCmd} (h : ∀ x, d = .wRegister regStatus x → (x.headD 0).getLsbD 4 = false) :
    SparesMaxRt d.call := by
  have hread (ws : List Byte) (n : Nat) : SparesMaxRt (.xfer ws n) := fun _ hx => nomatch hx
  have hsend (bs : List Byte) : SparesMaxRt (.send bs) := fun _ hx => nomatch hx
  have hother {op : Byte} (x : List Byte) (hop : op ≠ 0x27) : SparesMaxRt (.send2 [op] x) := fun y hx =>
    absurd (List.cons.inj (Call.send2.inj hx).1).1 hop
  have hack : ∀ p : BitVec 3, (0xA8 : Byte) ||| p.setWidth 8 ≠ 0x27 := by decide
  have hreg : ∀ a : BitVec 5, a ≠ regStatus → (0x20 : Byte) ||| a.setWidth 8 ≠ 0x27 := by decide
  cases d with
  | rRegister | rRxPayload | rRxPlWid => exact hread _ _
  | flushTx | flushRx | reuseTxPl | activate => exact hsend _
  | wTxPayload x | wTxPayloadNoack x => exact hother x (by decide)
  | wAckPayload p x => exact hother x (hack p)
  | wRegister a x =>
    by_cases ha : a = regStatus
    · subst ha
      intro y hy
      obtain rfl := (Call.send2.inj hy).2
      exact h _ rfl
    · exact hother x (hreg a ha)

theorem sparesMaxRt_write_of_ne {a : BitVec 5} (ha : a ≠ regStatus) (x : List Byte) :
    SparesMaxRt (WireCmd.wRegister a x).call :=
  sparesMaxRt_call fun _ h => absurd (WireCmd.wRegister.inj h).1 ha

theorem sparesMaxRt_write_of_bit (a : BitVec 5) {b : Byte} (hb : b.getLsbD 4 = false) :
    SparesMaxRt (writeByteCall a b) :=
  sparesMaxRt_call fun x h => by obtain rfl := (WireCmd.wRegister.inj h).2; exact hb

theorem sparesMaxRt_read (a : BitVec 5) (n : Nat) : SparesMaxRt (WireCmd.rRegister a n).call :=
  sparesMaxRt_call (by simp)

/-- The role and the power bit stand in `CONFIG` (R40). -/
theorem sparesMaxRt_modifyConfig {c : Call} (h : ModifyCall regConfig c) : SparesMaxRt c := by
  rcases h with rfl | ⟨b, rfl⟩
  · exact sparesMaxRt_read _ _
  · exact sparesMaxRt_write_of_ne (by decide) _

/-- `STATUS` is none of the governed registers (R266). -/
theorem sparesMaxRt_configCall {cfg : RadioConfig} {c : Call} (h : c ∈ configCalls cfg) : SparesMaxRt c := by
  obtain ⟨g, -, rfl⟩ := List.mem_map.1 h
  exact sparesMaxRt_write_of_ne (by cases g <;> decide) _

/-- The host operations that R311 names. -/
def clearsMaxRt : Instr → Bool
  | .clearTxFail => true
  | .switchRole _ => true
  | .setup _ _ _ => true
  | .writeRegister _ _ => true
  | .writeRegisters _ _ => true
  | .modifyRegisterBits _ _ _ => true
  | _ => false

theorem MayIssue.sparesMaxRt {i : Instr} {c : Call} (hi : i.isHost = true) (hc : clearsMaxRt i = false)
    (h : MayIssue i c) : SparesMaxRt c := by
  cases i with
  | rRegister | wRegister | rRxPayload | wTxPayload | flushTx | flushRx | reuseTxPl | wireActivate | rRxPlWid
  | wAckPayload | wTxPayloadNoack => exact nomatch hi
  | clearTxFail | switchRole | setup | writeRegister | writeRegisters | modifyRegisterBits => exact nomatch hc
  | getBits | setBits | setAckPipe | getAckPipe | decode | getRole | init | radioOn | radioOff => exact h.elim
  | readRegister | txHasSpace | txIsEmpty | rxHasData | rxIsFull | statusRead => exact h ▸ sparesMaxRt_read _ _
  | readRegisters => exact h.2 ▸ sparesMaxRt_read _ _
  | reuseTx | activate | txFlush | rxFlush => exact h ▸ sparesMaxRt_call (by simp)
  | txWrite =>
    obtain ⟨-, rfl | ⟨p, rfl⟩⟩ := h
    · exact sparesMaxRt_call (by simp)
    · exact sparesMaxRt_call (by simp)
  | txWriteNoAck => exact h.2 ▸ sparesMaxRt_call (by simp)
  | rxRead =>
    obtain rfl | rfl | ⟨n, -, -, rfl⟩ := h
    · exact sparesMaxRt_call (by simp)
    · exact sparesMaxRt_read _ _
    · exact sparesMaxRt_call (by simp)
  | statusClear => exact h ▸ sparesMaxRt_write_of_bit _ (by simp)
  | statusClearAll => exact h ▸ sparesMaxRt_write_of_bit _ (by decide)
  | switchRoleDirectly | deinit | powerUp | powerDown => exact sparesMaxRt_modifyConfig h
  | cfgWriteDirectly | cfgWriteDiff | cfgWrite => exact sparesMaxRt_configCall h.2
  | cfgRead =>
    obtain ⟨g, -, rfl⟩ := List.mem_map.1 h
    exact sparesMaxRt_read _ _
  | checkDevice =>
    rcases h with rfl | ⟨bs, -, rfl⟩
    · exact sparesMaxRt_read _ _
    · exact sparesMaxRt_write_of_ne (by decide) _

section Events

variable {s t : State} {es : List Event}

theorem call_eq_of_eventOf_eq_send2 {c : Call} {rc rc' : Rc} {bs b1 b2 : List Byte}
    (h : eventOf c rc bs = .send2 b1 b2 rc') : c = .send2 b1 b2 := by
  cases c with
  | send2 => obtain ⟨rfl, rfl, -⟩ := Event.send2.inj h; rfl
  | send | xfer => exact nomatch h

theorem not_pinEvent_send2 {b1 b2 : List Byte} {rc : Rc} : ¬ PinEvent (.send2 b1 b2 rc) := by simp [PinEvent]

/-- The events of an operation that R311 does not name. -/
theorem events_spareMaxRt {i : Instr} (hi : i.isHost = true) (hc : clearsMaxRt i = false) (h : exec i s = .next t)
    (hes : t.history = s.history ++ es) {d : List Byte} {rc : Rc} (he : Event.send2 [0x27] d rc ∈ es) :
    (d.headD 0).getLsbD 4 = false := by
  obtain ⟨fs, hfs, hall⟩ := (exec_path h).history
  obtain rfl : es = fs := List.append_cancel_left (hes.symm.trans hfs)
  rcases hall _ he with hpin | ⟨c, rc', bs, hissue, heq⟩
  · exact absurd hpin not_pinEvent_send2
  · exact hissue.sparesMaxRt hi hc d (call_eq_of_eventOf_eq_send2 heq.symm)

/-- `switchRole` to the role that the block holds issues nothing (R251). -/
theorem history_switchRole_same {b : Byte} (hr : s.role = roleOf b) (h : exec (.switchRole b) s = .next t) :
    t.history = s.history := by
  rcases whenBound_next h with ⟨-, rfl⟩ | ⟨-, h⟩
  · rfl
  · split at h
    case h_1 => obtain rfl := reject_eq_next.1 h; rfl
    case h_2 => obtain rfl := reject_eq_next.1 h; rfl
    case h_3 r current hb hrole =>
      have heq : r = current := Option.some.inj (hb.symm.trans (hr.symm.trans hrole))
      obtain rfl := answer_eq_next.1 ((if_pos heq).symm.trans h)
      rfl

end Events

end Sys2Proof.Machine

namespace Sys2Proof.Proofs

open Sys2Proof Sys2Proof.Machine Sys2Proof.Claims

/-- Settles O16: an operation outside R311's list issues no such call, and `switchRole` to the same role issues none at
all. -/
theorem maxRtIsClearedOnlyExplicitly : Obligations.MaxRtIsClearedOnlyExplicitly := by
  rintro i s t es hi hclear hswitch hsetup hbyte hbytes hmodify h hes _ he d rc rfl
  cases i with
  | clearTxFail => exact absurd rfl hclear
  | setup r c l => exact absurd rfl (hsetup r c l)
  | writeRegister a b => exact absurd rfl (hbyte a b)
  | writeRegisters a bs => exact absurd rfl (hbytes a bs)
  | modifyRegisterBits a m v => exact absurd rfl (hmodify a m v)
  | switchRole b =>
    obtain rfl : es = [] := by simpa [history_switchRole_same (hswitch b rfl) h] using hes
    exact nomatch he
  | _ => exact events_spareMaxRt hi rfl h hes he

end Sys2Proof.Proofs

/-! PROOFS. The shared operations under a failure (60_exceptions.md, R302; R178) and the state at power-on
(70_reset_and_hazards.md, R330). -/

namespace Sys2Proof.Proofs

open Sys2Proof Sys2Proof.Machine Sys2Proof.Claims

/-- Settles O23: a run is its first call and the rest, and the return code of the read decides the rest of the
read-modify-write. -/
theorem runsGoOnAndModifyReadsThenWrites : Obligations.RunsGoOnAndModifyReadsThenWrites := by
  refine ⟨fun s c cs => ⟨issueAll_nil s, failures_nil s, delivered_nil s, issueAll_cons c cs s, failures_cons c cs s,
    failures_le cs s, delivered_cons c cs s⟩, fun s a m v => ?_⟩
  intro rd wr
  have hread : readByteCall a = rd := call_rRegister a 1
  have hwrite : modifyCall a m v s = wr := by
    rw [modifyCall, hread]
    exact call_wRegister a _
  rw [← hwrite, ← hread]
  exact ⟨fun hrc => modify_of_read_fail hrc m v, fun hrc => modify_of_read_ok hrc m v⟩

/-- Settles O7: the reset state holds no value, and nothing is pending. -/
theorem powerOnHoldsNoValues : Obligations.PowerOnHoldsNoValues :=
  ⟨rfl, rfl, rfl, rfl, rfl, step_of_nothing rfl⟩

end Sys2Proof.Proofs
